-- ==== Sys2Proof/Word.lean ====
section
/-! DEFINITION. The units of data the block moves: bytes, 32-bit words inside the crypto functions, and byte strings of
a fixed length (keys, tags, IVs). -/
namespace Sys2Proof

/-- 8 bits (spec/00_scope.md section 6, "Bytes and byte strings"). -/
abbrev Byte := BitVec 8

/-- The 32-bit word of ChaCha20 and SHA-256 (spec/45_crypto_primitives.md R302, R311). -/
abbrev Word32 := BitVec 32

/-- A byte string of exactly `n` bytes, first byte first: the keys, `SID`, the tags and the IV have a fixed length
(spec/10_state.md R20), so a value of another length cannot be built. -/
abbrev Bytes (n : Nat) := { l : List Byte // l.length = n }

/-- `0^n` of spec/00_scope.md section 6. -/
def Bytes.zero (n : Nat) : Bytes n := ⟨List.replicate n 0, by simp⟩

/-- Bytewise exclusive or of two byte strings (spec/00_scope.md section 6; the strings have equal length wherever the
block uses it). -/
def xorBytes (a b : List Byte) : List Byte := List.zipWith (· ^^^ ·) a b

end Sys2Proof
end

