-- ==== Sys2Proof/Config.lean ====
section
/-! DEFINITION. What an implementation fixes: the constants of spec/00_scope.md R7, the parameters of R8, the record
`Crypto` of spec/45_crypto_primitives.md R300 with the properties of R301, and the free values. -/
namespace Sys2Proof.Config

/-- `HWM`, 1024 × 2^20 bytes (R7). -/
def hwm : Nat := 1024 * 2 ^ 20

/-- `REKEY_SECONDS` (R7). -/
def rekeySeconds : Nat := 10

/-- `MAX_MESSAGE` (R7). -/
def maxMessage : Nat := 12000000

/-- `MIN_SIZE` (R7). -/
def minSize : Nat := 6

/-- `SIZE_LEN` (R7). -/
abbrev sizeLen : Nat := 4

/-- `TAG_LEN` (R7). -/
abbrev tagLen : Nat := 16

/-- `IV_LEN` (R7). -/
abbrev ivLen : Nat := 8

/-- `KEY_LEN` (R7): the bytes of each of `K1`, `K2`, `SID`. -/
abbrev keyLen : Nat := 32

/-- `SEQ_BITS` (R7). -/
abbrev seqBits : Nat := 32

/-- `SEQ_BITS` in bytes. -/
abbrev seqBytes : Nat := seqBits / 8

/-- `CIPHER_ID`, the only valid cipher number (R7). -/
def cipherId : BitVec 8 := 0

/-- `KS_LIMIT`, the value R8 and R316 take; the spec marks it as its own decision. DEDUCED, log 7. -/
def ksLimit : Nat := 2 ^ 38 - 64

/-- `STRICT_CS` (R8, R105): OPEN in the spec, so neither value is assumed. FREE VALUE, log 5. -/
opaque strictCs : Bool

/-- The least `RXQ_CAPACITY` R8 allows: the largest `waiting`. -/
def rxqMinCapacity : Nat := maxMessage + tagLen

/-- How far a finite `RXQ_CAPACITY` lies above its least value; `none` is the unbounded queue (R8, R66). FREE VALUE,
log 6. -/
opaque rxqExtra : Option Nat

/-- `RXQ_CAPACITY` (R8): unbounded, or at least `rxqMinCapacity`. -/
def rxqCapacity : Option Nat := rxqExtra.map (rxqMinCapacity + ·)

/-- What a 32-bit length field holds when the length is 2^32 or more: the spec states no value. FREE VALUE, log 8. -/
opaque freeLength32 : Nat → BitVec 32

/-- What a 64-bit length field holds when the length is 2^64 or more: the spec states no value. FREE VALUE, log 8. -/
opaque freeLength64 : Nat → BitVec 64

/-- A value of `K1`, `K2` or `SID`. -/
abbrev Key := Bytes keyLen

/-- A value of `iv`. -/
abbrev Iv := Bytes ivLen

/-- A tag. -/
abbrev Tag := Bytes tagLen

/-- The enciphered or deciphered length prefix of a frame. -/
abbrev SizeField := Bytes sizeLen

/-- A sequence number. -/
abbrev SeqNum := BitVec seqBits

/-- The parameter record of R300: six functions, whose result lengths (R301 (d)) are in their types. -/
structure Crypto where
  /-- Bytes `pos` to `pos + n - 1` of the size keystream for a key and an IV. -/
  ksSize : Key → Iv → Nat → (n : Nat) → Bytes n
  /-- Bytes `pos` to `pos + n - 1` of the payload keystream for a key and an IV. -/
  ksPay : Key → Iv → Nat → (n : Nat) → Bytes n
  /-- The one-time MAC key of a frame, 32 bytes by R300. -/
  polyKey : Key → Iv → Bytes 32
  /-- What the MAC is computed over, given all ciphertext absorbed. -/
  macInput : List Byte → List Byte
  /-- The MAC. -/
  poly1305 : Bytes 32 → List Byte → Tag
  /-- The hash, 32 bytes by R300. -/
  sha256 : List Byte → Bytes 32

/-- `Tag(k, iv, ct)` (R310), composed so in every instantiation. -/
def Crypto.tag (c : Crypto) (k : Key) (iv : Iv) (ct : List Byte) : Tag :=
  c.poly1305 (c.polyKey k iv) (c.macInput ct)

/-- `SHA256d(m)` (R314), composed so in every instantiation. -/
def Crypto.sha256d (c : Crypto) (m : List Byte) : Bytes 32 :=
  c.sha256 (c.sha256 m).val

/-- R301 (a): a keystream read in two pieces is the keystream read at once. (R301 (b), (c) and (d) hold of every
`Crypto` by its type.) -/
structure Crypto.Lawful (c : Crypto) : Prop where
  size_append : ∀ k iv pos n m,
    (c.ksSize k iv pos n).val ++ (c.ksSize k iv (pos + n) m).val = (c.ksSize k iv pos (n + m)).val
  pay_append : ∀ k iv pos n m,
    (c.ksPay k iv pos n).val ++ (c.ksPay k iv (pos + n) m).val = (c.ksPay k iv pos (n + m)).val

end Sys2Proof.Config
end

