-- ==== Sys2Proof/Machine/ByteOrder.lean ====
section
/-! DEFINITION. Byte order: little-endian at every interface of the block (spec/20_memory.md R70), big-endian inside
SHA-256 only (R71). `le`, `be` and `rdle` of spec/00_scope.md section 6. -/
namespace Sys2Proof.Machine

/-- The value `v` as `n` bytes, least significant byte first (`leN` with N = 8n). -/
def leBytes : Nat → Nat → List Byte
  | 0, _ => []
  | n + 1, v => BitVec.ofNat 8 v :: leBytes n (v / 256)

/-- The number a byte string stands for, least significant byte first (`rdleN`). -/
def rdle : List Byte → Nat
  | [] => 0
  | b :: bs => b.toNat + 256 * rdle bs

/-- The value `v` as `n` bytes, most significant byte first (`beN`). -/
def beBytes (n v : Nat) : List Byte := (leBytes n v).reverse

/-- The number a byte string stands for, most significant byte first (`rdbeN`). -/
def rdbe (bs : List Byte) : Nat := rdle bs.reverse

/-- `le32(v)`. -/
def le32 (v : BitVec 32) : List Byte := leBytes 4 v.toNat

/-- `le64(v)`. -/
def le64 (v : BitVec 64) : List Byte := leBytes 8 v.toNat

/-- A length carried in 64 bits; of a length of 2^64 or more the spec states no value. FREE VALUE, log 8. -/
def lengthField64 (n : Nat) : BitVec 64 := if n < 2 ^ 64 then BitVec.ofNat 64 n else Config.freeLength64 n

/-- A length carried in 32 bits; of a length of 2^32 or more the spec states no value. FREE VALUE, log 8. -/
def lengthField32 (n : Nat) : BitVec 32 := if n < 2 ^ 32 then BitVec.ofNat 32 n else Config.freeLength32 n

theorem length_leBytes (n v : Nat) : (leBytes n v).length = n := by
  induction n generalizing v with
  | zero => rfl
  | succ n ih => simp [leBytes, ih]

theorem length_beBytes (n v : Nat) : (beBytes n v).length = n := by
  simp [beBytes, length_leBytes]

end Sys2Proof.Machine
end

