-- ==== Sys2Proof/Syntax.lean ====
section
/-! DEFINITION. The commands of the block, one constructor per row of spec/opcode_table.json, with their operands
(spec/30_encoding.md R91, R92). -/
namespace Sys2Proof

open Config (Key Tag SizeField)

/-- The bank a command names by its `s` bit: `s = 0` is D0's `in`, `s = 1` its `out` (spec/30_encoding.md R93). -/
inductive BankSel where
  | input
  | output
deriving DecidableEq, Repr

/-- The per-bank registers of RDREG, numbers 00 to 0A (spec/10_state.md R42). -/
inductive BankReg where
  | seq
  | iv
  | sflags
  | cipherId
  | processed
  | lastRekey
  | tag
  | sid
  | sizePos
  | aeadPos
  | macLen
deriving DecidableEq, Repr

/-- The block-level registers of RDREG, numbers 10 to 13 (spec/10_state.md R42). -/
inductive BlockReg where
  | bflags
  | fault
  | waiting
  | total
deriving DecidableEq, Repr

/-- What RDREG names: a register of one bank, or a register of the block, which takes no bank (R42, R144). -/
inductive Reg where
  | ofBank (sel : BankSel) (r : BankReg)
  | ofBlock (r : BlockReg)
deriving DecidableEq, Repr

/-- The 17 operations of spec/30_encoding.md R92. -/
inductive Instr where
  /-- NEW `cid` (R133). -/
  | new (cid : BitVec 8)
  /-- DESTROY (R134). -/
  | destroy
  /-- INIT `S, now, K1, K2, SID` (R135). -/
  | init (sel : BankSel) (now : BitVec 64) (k1 k2 sid : Key)
  /-- REKEY `S` (R183). -/
  | rekey (sel : BankSel)
  /-- REKEYX `S, K1, K2` (R184). -/
  | rekeyx (sel : BankSel) (k1 k2 : Key)
  /-- SHOULDREKEY `S, now, n` (R181). -/
  | shouldrekey (sel : BankSel) (now n : BitVec 64)
  /-- SEQUENCE `S` (R136). -/
  | sequence (sel : BankSel)
  /-- ENCSIZE `S, buf4` (R137). -/
  | encsize (sel : BankSel) (buf : SizeField)
  /-- DECSIZE `S, buf4` (R138). -/
  | decsize (sel : BankSel) (buf : SizeField)
  /-- ENCRYPT `S, data` (R139). -/
  | encrypt (sel : BankSel) (data : List Byte)
  /-- DECRYPT `S, data` (R140). -/
  | decrypt (sel : BankSel) (data : List Byte)
  /-- AUTH `S, data` (R141). -/
  | auth (sel : BankSel) (data : List Byte)
  /-- FINAL `S` (R142). -/
  | final (sel : BankSel)
  /-- VERIFY `S, tag16` (R143). -/
  | verify (sel : BankSel) (tag : Tag)
  /-- PACK `now, cmd, body` (R200). -/
  | pack (now : BitVec 64) (cmd body : List Byte)
  /-- FEED `data` (R220). -/
  | feed (data : List Byte)
  /-- RDREG `S, reg` (R144). -/
  | rdreg (reg : Reg)
deriving DecidableEq, Repr

end Sys2Proof
end

