-- ==== Sys2Proof/WellFormed.lean ====
section
/-! DEFINITION. Which commands a transaction can carry: the byte strings of formats D, F and P have their length in a
32-bit operand (spec/30_encoding.md R91, R94); every other operand is of its width by its type. -/
namespace Sys2Proof

/-- A byte string whose length a `le32` operand can state (R91, R94). -/
def fits32 (data : List Byte) : Bool := decide (data.length < 2 ^ 32)

/-- The commands that have an encoding. -/
def Instr.wellFormed : Instr → Bool
  | .new _ => true
  | .destroy => true
  | .init _ _ _ _ _ => true
  | .rekey _ => true
  | .rekeyx _ _ _ => true
  | .shouldrekey _ _ _ => true
  | .sequence _ => true
  | .encsize _ _ => true
  | .decsize _ _ => true
  | .encrypt _ data => fits32 data
  | .decrypt _ data => fits32 data
  | .auth _ data => fits32 data
  | .final _ => true
  | .verify _ _ => true
  | .pack _ cmd body => fits32 cmd && fits32 body
  | .feed data => fits32 data
  | .rdreg _ => true

end Sys2Proof
end

