-- ==== Sys2Proof/Decode.lean ====
section
/-! DEFINITION. Command transactions (spec/30_encoding.md sections 1 to 3): the decoder, total on any bytes and refusing
by name; then the encoder, from the same tables. -/
namespace Sys2Proof

open Machine (leBytes rdle le32 le64)

/-- Why a transaction is an illegal command (R98). Each is answered alike, with `F_ILLEGAL_CMD`. -/
inductive Reject where
  /-- Fewer than the 4 bytes of a command word (R90, R98). -/
  | shortWord
  /-- A non-zero reserved bit, 15:9 or 31:24 (R97). -/
  | reservedBits
  /-- `opc` 00, 0F or 13 to FF (R96). -/
  | reservedOpcode
  /-- `s = 1` in NEW, DESTROY, PACK or FEED (R97). -/
  | bankNotNamed
  /-- `arg ≠ 0` in an operation other than NEW and RDREG (R97). -/
  | argNotUsed
  /-- A transaction whose length is not the one its format prescribes (R90). -/
  | wrongLength
  /-- RDREG of a reserved number, or of a block-level register with `s = 1` (R42, R144); and of a number above 1F
  (log 17). -/
  | reservedRegister
deriving DecidableEq, Repr

/-- The rows of R92. -/
inductive Opcode where
  | new
  | destroy
  | init
  | rekey
  | rekeyx
  | shouldrekey
  | sequence
  | encsize
  | decsize
  | encrypt
  | decrypt
  | auth
  | final
  | verify
  | pack
  | feed
  | rdreg
deriving DecidableEq, Repr

/-- The `opc` column of R92. -/
def Opcode.byte : Opcode → BitVec 8
  | .new => 0x01
  | .destroy => 0x02
  | .init => 0x03
  | .rekey => 0x04
  | .rekeyx => 0x05
  | .shouldrekey => 0x06
  | .sequence => 0x07
  | .encsize => 0x08
  | .decsize => 0x09
  | .encrypt => 0x0A
  | .decrypt => 0x0B
  | .auth => 0x0C
  | .final => 0x0D
  | .verify => 0x0E
  | .pack => 0x10
  | .feed => 0x11
  | .rdreg => 0x12

/-- The rows in the table's order. -/
def opcodeTable : List Opcode :=
  [.new, .destroy, .init, .rekey, .rekeyx, .shouldrekey, .sequence, .encsize, .decsize, .encrypt, .decrypt, .auth,
    .final, .verify, .pack, .feed, .rdreg]

/-- The row an `opc` selects; the codes of R96 select none. -/
def opcodeOfByte (b : BitVec 8) : Option Opcode := opcodeTable.find? (fun o => o.byte == b)

/-- The `Bank` column of R92: whether bit 8 is a bank select. -/
def Opcode.namesBank : Opcode → Bool
  | .new | .destroy | .pack | .feed => false
  | .init | .rekey | .rekeyx | .shouldrekey | .sequence | .encsize | .decsize | .encrypt | .decrypt | .auth | .final
  | .verify | .rdreg => true

/-- Whether bits 23:16 are used (R90). -/
def Opcode.usesArg : Opcode → Bool
  | .new | .rdreg => true
  | .destroy | .init | .rekey | .rekeyx | .shouldrekey | .sequence | .encsize | .decsize | .encrypt | .decrypt | .auth
  | .final | .verify | .pack | .feed => false

/-- `s = 0` is `in`, `s = 1` is `out` (R93). -/
def bankOfBit : Bool → BankSel
  | false => .input
  | true => .output

/-- The `s` bit of a bank (R93). -/
def bitOfBank : BankSel → Bool
  | .input => false
  | .output => true

/-- The numbers of the per-bank registers (spec/10_state.md R42). -/
def BankReg.number : BankReg → BitVec 8
  | .seq => 0x00
  | .iv => 0x01
  | .sflags => 0x02
  | .cipherId => 0x03
  | .processed => 0x04
  | .lastRekey => 0x05
  | .tag => 0x06
  | .sid => 0x07
  | .sizePos => 0x08
  | .aeadPos => 0x09
  | .macLen => 0x0A

/-- The numbers of the block-level registers (R42). -/
def BlockReg.number : BlockReg → BitVec 8
  | .bflags => 0x10
  | .fault => 0x11
  | .waiting => 0x12
  | .total => 0x13

/-- The per-bank registers of R42. -/
def bankRegTable : List BankReg :=
  [.seq, .iv, .sflags, .cipherId, .processed, .lastRekey, .tag, .sid, .sizePos, .aeadPos, .macLen]

/-- The block-level registers of R42. -/
def blockRegTable : List BlockReg := [.bflags, .fault, .waiting, .total]

/-- The register RDREG names: the `s` bit selects the bank of a per-bank register and must be 0 for a block-level one
(R42, R144). Numbers 0B to 0F and 14 to 1F are reserved (R42). Numbers 20 to FF have no row in R42 and no rule calls them
reserved; with `s = 1` R144 makes them illegal, with `s = 0` they name no register here, as if reserved.
DESIGN CHOICE, log 17. -/
def regOfFields (s : Bool) (num : BitVec 8) : Option Reg :=
  match bankRegTable.find? (fun r => r.number == num) with
  | some r => some (.ofBank (bankOfBit s) r)
  | none =>
    match blockRegTable.find? (fun r => r.number == num) with
    | some r => if s then none else some (.ofBlock r)
    | none => none

/-- The fields of a legal command word (R90). -/
structure CommandWord where
  opc : BitVec 8
  s : Bool
  arg : BitVec 8
deriving DecidableEq, Repr

/-- The fields of a command word by the bit table of R90; bits 15:9 and 31:24 must be 0. -/
def splitWord (w : BitVec 32) : Except Reject CommandWord :=
  if w.extractLsb' 9 7 = 0 ∧ w.extractLsb' 24 8 = 0 then
    .ok { opc := w.extractLsb' 0 8, s := w.getLsbD 8, arg := w.extractLsb' 16 8 }
  else .error .reservedBits

/-- A byte string of `n` bytes and what follows it; `none` where fewer are left. -/
def takeBytes (n : Nat) (bs : List Byte) : Option (Bytes n × List Byte) :=
  if h : n ≤ bs.length then some (⟨bs.take n, by simp [h]⟩, bs.drop n) else none

/-- A `le32` operand and what follows it (R91, R94). -/
def take32 (bs : List Byte) : Option (BitVec 32 × List Byte) :=
  (takeBytes 4 bs).map fun p => (BitVec.ofNat 32 (rdle p.1.val), p.2)

/-- A `le64` operand and what follows it (R91, R94). -/
def take64 (bs : List Byte) : Option (BitVec 64 × List Byte) :=
  (takeBytes 8 bs).map fun p => (BitVec.ofNat 64 (rdle p.1.val), p.2)

/-- The operands are used up: a transaction has exactly the length its format prescribes (R90). -/
def whenDone (rest : List Byte) (i : Instr) : Option Instr := if rest.isEmpty then some i else none

/-- Format D and F: `n:4 ∥ data:n` (R91). -/
def takeData (bs : List Byte) : Option (List Byte) :=
  (take32 bs).bind fun p => if p.2.length = p.1.toNat then some p.2 else none

/-- A parse that fails for its length only (R90, R98). -/
def sized (i : Option Instr) : Except Reject Instr :=
  match i with
  | none => .error .wrongLength
  | some i => .ok i

/-- The operands of each format (R91), and RDREG's register (R144). -/
def parseOperands (op : Opcode) (s : Bool) (arg : BitVec 8) (ops : List Byte) : Except Reject Instr :=
  let sel := bankOfBit s
  match op with
  | .new => sized (whenDone ops (.new arg))
  | .destroy => sized (whenDone ops .destroy)
  | .init => sized <|
    (take64 ops).bind fun now => (takeBytes Config.keyLen now.2).bind fun k1 => (takeBytes Config.keyLen k1.2).bind fun k2 =>
      (takeBytes Config.keyLen k2.2).bind fun sid => whenDone sid.2 (.init sel now.1 k1.1 k2.1 sid.1)
  | .rekey => sized (whenDone ops (.rekey sel))
  | .rekeyx => sized <|
    (takeBytes Config.keyLen ops).bind fun k1 => (takeBytes Config.keyLen k1.2).bind fun k2 =>
      whenDone k2.2 (.rekeyx sel k1.1 k2.1)
  | .shouldrekey => sized <|
    (take64 ops).bind fun now => (take64 now.2).bind fun n => whenDone n.2 (.shouldrekey sel now.1 n.1)
  | .sequence => sized (whenDone ops (.sequence sel))
  | .encsize => sized <| (takeBytes Config.sizeLen ops).bind fun b => whenDone b.2 (.encsize sel b.1)
  | .decsize => sized <| (takeBytes Config.sizeLen ops).bind fun b => whenDone b.2 (.decsize sel b.1)
  | .encrypt => sized <| (takeData ops).map (.encrypt sel)
  | .decrypt => sized <| (takeData ops).map (.decrypt sel)
  | .auth => sized <| (takeData ops).map (.auth sel)
  | .final => sized (whenDone ops (.final sel))
  | .verify => sized <| (takeBytes Config.tagLen ops).bind fun t => whenDone t.2 (.verify sel t.1)
  | .pack => sized <|
    (take64 ops).bind fun now => (take32 now.2).bind fun c => (take32 c.2).bind fun b =>
      if b.2.length = c.1.toNat + b.1.toNat then
        some (.pack now.1 (b.2.take c.1.toNat) (b.2.drop c.1.toNat))
      else none
  | .feed => sized <| (takeData ops).map .feed
  | .rdreg =>
    match regOfFields s arg with
    | none => .error .reservedRegister
    | some reg => sized (whenDone ops (.rdreg reg))

/-- The command of a word without reserved bits and its operand bytes (R91 to R98). -/
def decodeFields (cw : CommandWord) (ops : List Byte) : Except Reject Instr :=
  match opcodeOfByte cw.opc with
  | none => .error .reservedOpcode
  | some op =>
    if cw.s && !op.namesBank then .error .bankNotNamed
    else if cw.arg != 0 && !op.usesArg then .error .argNotUsed
    else parseOperands op cw.s cw.arg ops

/-- The command a transaction carries: the word is its first 4 bytes, least significant first (R90). -/
def decode (tx : List Byte) : Except Reject Instr :=
  match take32 tx with
  | none => .error .shortWord
  | some (w, ops) =>
    match splitWord w with
    | .error e => .error e
    | .ok cw => decodeFields cw ops

/-! ### The encoder -/

/-- The row of R92 a command belongs to. -/
def Instr.opcode : Instr → Opcode
  | .new _ => .new
  | .destroy => .destroy
  | .init _ _ _ _ _ => .init
  | .rekey _ => .rekey
  | .rekeyx _ _ _ => .rekeyx
  | .shouldrekey _ _ _ => .shouldrekey
  | .sequence _ => .sequence
  | .encsize _ _ => .encsize
  | .decsize _ _ => .decsize
  | .encrypt _ _ => .encrypt
  | .decrypt _ _ => .decrypt
  | .auth _ _ => .auth
  | .final _ => .final
  | .verify _ _ => .verify
  | .pack _ _ _ => .pack
  | .feed _ => .feed
  | .rdreg _ => .rdreg

/-- The `s` bit (R90, R93). -/
def Instr.sBit : Instr → Bool
  | .new _ | .destroy | .pack _ _ _ | .feed _ => false
  | .init sel _ _ _ _ | .rekey sel | .rekeyx sel _ _ | .shouldrekey sel _ _ | .sequence sel | .encsize sel _
  | .decsize sel _ | .encrypt sel _ | .decrypt sel _ | .auth sel _ | .final sel | .verify sel _ => bitOfBank sel
  | .rdreg (.ofBank sel _) => bitOfBank sel
  | .rdreg (.ofBlock _) => false

/-- The `arg` field (R90): NEW's cipher number, RDREG's register number. -/
def Instr.argField : Instr → BitVec 8
  | .new cid => cid
  | .rdreg (.ofBank _ r) => r.number
  | .rdreg (.ofBlock r) => r.number
  | .destroy | .init _ _ _ _ _ | .rekey _ | .rekeyx _ _ _ | .shouldrekey _ _ _ | .sequence _ | .encsize _ _
  | .decsize _ _ | .encrypt _ _ | .decrypt _ _ | .auth _ _ | .final _ | .verify _ _ | .pack _ _ _ | .feed _ => 0

/-- A length operand (`n`, `c`, `b` of R91). -/
def lengthOperand (data : List Byte) : List Byte := le32 (BitVec.ofNat 32 data.length)

/-- The operand bytes after the command word (R91). -/
def Instr.operands : Instr → List Byte
  | .new _ | .destroy | .rekey _ | .sequence _ | .final _ | .rdreg _ => []
  | .init _ now k1 k2 sid => le64 now ++ (k1.val ++ (k2.val ++ sid.val))
  | .rekeyx _ k1 k2 => k1.val ++ k2.val
  | .shouldrekey _ now n => le64 now ++ le64 n
  | .encsize _ buf | .decsize _ buf => buf.val
  | .encrypt _ data | .decrypt _ data | .auth _ data | .feed data => lengthOperand data ++ data
  | .verify _ tag => tag.val
  | .pack now cmd body => le64 now ++ (lengthOperand cmd ++ (lengthOperand body ++ (cmd ++ body)))

/-- The command word by the bit table of R90: bits 31:24 zero, `arg` 23:16, bits 15:9 zero, `s` 8, `opc` 7:0. -/
def commandWord (opc : BitVec 8) (s : Bool) (arg : BitVec 8) : BitVec 32 :=
  0#8 ++ arg ++ 0#7 ++ BitVec.ofBool s ++ opc

/-- The command word of a command. -/
def Instr.word (i : Instr) : BitVec 32 := commandWord i.opcode.byte i.sBit i.argField

/-- The transaction that carries a command (R90). -/
def encode (i : Instr) : List Byte := le32 i.word ++ i.operands

/-! ### Transactions of the opcode table -/

/-- The number of operand bytes, told from `opc` and the length operands (R91); bytes not there read as zero. -/
def Opcode.operandLength (op : Opcode) (ops : List Byte) : Nat :=
  match op with
  | .new | .destroy | .rekey | .sequence | .final | .rdreg => 0
  | .init => 8 + 3 * Config.keyLen
  | .rekeyx => 2 * Config.keyLen
  | .shouldrekey => 16
  | .encsize | .decsize => Config.sizeLen
  | .encrypt | .decrypt | .auth | .feed => 4 + rdle (ops.take 4)
  | .verify => Config.tagLen
  | .pack => 16 + rdle ((ops.drop 8).take 4) + rdle ((ops.drop 12).take 4)

/-- The length of the transaction that begins with these bytes (R90, R91). -/
def prescribedLength (tx : List Byte) : Nat :=
  4 + match opcodeOfByte (tx.headD 0) with
      | some op => op.operandLength (tx.drop 4)
      | none => 0

/-- The transaction whose first `nbits` bits are `w`, every later bit zero, up to the length its format prescribes. -/
def tableTransaction (nbits w : Nat) : List Byte :=
  leBytes ((nbits + 7) / 8) w
    ++ List.replicate (prescribedLength (leBytes ((nbits + 7) / 8) w) - (nbits + 7) / 8) 0

/-- What the decoder reads from a table row's word. -/
def decodeTableWord (nbits w : Nat) : Option Instr :=
  match decode (tableTransaction nbits w) with
  | .ok i => some i
  | .error _ => none

end Sys2Proof
end

