-- ==== Sys2Proof/Machine/ChaCha20.lean ====
section
/-! DEFINITION. ChaCha20 in the layout with a 64-bit block counter and a 64-bit IV (spec/45_crypto_primitives.md R302 to
R305). -/
namespace Sys2Proof.Machine

/-- The sixteen words `x[0..15]` of R302. -/
structure ChaState where
  x0 : Word32
  x1 : Word32
  x2 : Word32
  x3 : Word32
  x4 : Word32
  x5 : Word32
  x6 : Word32
  x7 : Word32
  x8 : Word32
  x9 : Word32
  x10 : Word32
  x11 : Word32
  x12 : Word32
  x13 : Word32
  x14 : Word32
  x15 : Word32
deriving DecidableEq, Repr

/-- The words `a`, `b`, `c`, `d` a quarter round works on. -/
structure Quarter where
  a : Word32
  b : Word32
  c : Word32
  d : Word32
deriving DecidableEq, Repr

/-- Bytes `4i` to `4i + 3` of a byte string as a little-endian word (R302). -/
def wordLe (bs : List Byte) (i : Nat) : Word32 := BitVec.ofNat 32 (rdle ((bs.drop (4 * i)).take 4))

/-- The initial state of R302. -/
def chachaInit (key : Bytes 32) (ctr : Nat) (iv : Bytes 8) : ChaState where
  x0 := 0x61707865
  x1 := 0x3320646e
  x2 := 0x79622d32
  x3 := 0x6b206574
  x4 := wordLe key.val 0
  x5 := wordLe key.val 1
  x6 := wordLe key.val 2
  x7 := wordLe key.val 3
  x8 := wordLe key.val 4
  x9 := wordLe key.val 5
  x10 := wordLe key.val 6
  x11 := wordLe key.val 7
  x12 := BitVec.ofNat 32 ctr
  x13 := BitVec.ofNat 32 (ctr / 2 ^ 32)
  x14 := wordLe iv.val 0
  x15 := wordLe iv.val 1

/-- The quarter round of R303. -/
def quarterRound (a b c d : Word32) : Quarter :=
  let a := a + b
  let d := (d ^^^ a).rotateLeft 16
  let c := c + d
  let b := (b ^^^ c).rotateLeft 12
  let a := a + b
  let d := (d ^^^ a).rotateLeft 8
  let c := c + d
  let b := (b ^^^ c).rotateLeft 7
  ⟨a, b, c, d⟩

/-- A column round: QR(0,4,8,12), QR(1,5,9,13), QR(2,6,10,14), QR(3,7,11,15) (R304). -/
def columnRound (x : ChaState) : ChaState :=
  let p := quarterRound x.x0 x.x4 x.x8 x.x12
  let q := quarterRound x.x1 x.x5 x.x9 x.x13
  let r := quarterRound x.x2 x.x6 x.x10 x.x14
  let s := quarterRound x.x3 x.x7 x.x11 x.x15
  ⟨p.a, q.a, r.a, s.a, p.b, q.b, r.b, s.b, p.c, q.c, r.c, s.c, p.d, q.d, r.d, s.d⟩

/-- A diagonal round: QR(0,5,10,15), QR(1,6,11,12), QR(2,7,8,13), QR(3,4,9,14) (R304). -/
def diagonalRound (x : ChaState) : ChaState :=
  let p := quarterRound x.x0 x.x5 x.x10 x.x15
  let q := quarterRound x.x1 x.x6 x.x11 x.x12
  let r := quarterRound x.x2 x.x7 x.x8 x.x13
  let s := quarterRound x.x3 x.x4 x.x9 x.x14
  ⟨p.a, q.a, r.a, s.a, s.b, p.b, q.b, r.b, r.c, s.c, p.c, q.c, q.d, r.d, s.d, p.d⟩

/-- `n` times a column round and a diagonal round (R304 takes `n = 10`). -/
def doubleRounds : Nat → ChaState → ChaState
  | 0, x => x
  | n + 1, x => doubleRounds n (diagonalRound (columnRound x))

/-- The sixteen words in order. -/
def ChaState.words (x : ChaState) : List Word32 :=
  [x.x0, x.x1, x.x2, x.x3, x.x4, x.x5, x.x6, x.x7, x.x8, x.x9, x.x10, x.x11, x.x12, x.x13, x.x14, x.x15]

/-- `Block(k, ctr, iv)` (R304): the initial state is added word by word, each word goes out little-endian. -/
def chachaBlock (key : Bytes 32) (ctr : Nat) (iv : Bytes 8) : List Byte :=
  let x := chachaInit key ctr iv
  (List.zipWith (· + ·) (doubleRounds 10 x).words x.words).flatMap le32

theorem length_flatMap_le32 (ws : List Word32) : (ws.flatMap le32).length = 4 * ws.length := by
  induction ws with
  | nil => rfl
  | cons w ws ih => simp [ih, le32, length_leBytes]; omega

theorem length_chachaBlock (key : Bytes 32) (ctr : Nat) (iv : Bytes 8) : (chachaBlock key ctr iv).length = 64 := by
  rw [chachaBlock, length_flatMap_le32, List.length_zipWith]; rfl

/-- `n` successive blocks from block `ctr` on (R305). -/
def chachaBlocks (key : Bytes 32) (iv : Bytes 8) : Nat → Nat → List Byte
  | _, 0 => []
  | ctr, n + 1 => chachaBlock key ctr iv ++ chachaBlocks key iv (ctr + 1) n

theorem length_chachaBlocks (key : Bytes 32) (iv : Bytes 8) (ctr n : Nat) :
    (chachaBlocks key iv ctr n).length = 64 * n := by
  induction n generalizing ctr with
  | zero => rfl
  | succ n ih => simp [chachaBlocks, length_chachaBlock, ih]; omega

/-- `Stream(k, iv, off, n)` (R305): bytes `off` to `off + n - 1` of the keystream, cut from the blocks that hold them. -/
def chachaStream (key : Bytes 32) (iv : Bytes 8) (off n : Nat) : Bytes n :=
  ⟨((chachaBlocks key iv (off / 64) ((off % 64 + n + 63) / 64)).drop (off % 64)).take n, by
    simp only [List.length_take, List.length_drop, length_chachaBlocks]; omega⟩

end Sys2Proof.Machine
end

