-- ==== Sys2Proof/Machine/Poly1305.lean ====
section
/-! DEFINITION. Poly1305 and the MAC's input (spec/45_crypto_primitives.md R308, R309). -/
namespace Sys2Proof.Machine

/-- `2^130 - 5` (R308). -/
def polyPrime : Nat := 2 ^ 130 - 5

/-- The mask that clamps `r` (R308). -/
def polyClamp : Nat := 0x0ffffffc0ffffffc0ffffffc0fffffff

/-- One piece of 1 to 16 bytes absorbed: `acc = ((acc + c) · r) mod p` (R308). -/
def polyAbsorb (r acc : Nat) (piece : List Byte) : Nat :=
  (acc + (rdle piece + 2 ^ (8 * piece.length))) * r % polyPrime

/-- The successive 16-byte pieces, the last of 1 to 15 bytes where the length is no multiple of 16 (R308). The first
argument bounds the number of pieces. -/
def polyPieces (r : Nat) : Nat → Nat → List Byte → Nat
  | 0, acc, _ => acc
  | n + 1, acc, m => polyPieces r n (polyAbsorb r acc (m.take 16)) (m.drop 16)

/-- `Poly1305(key, m)` (R308). -/
def poly1305 (key : Bytes 32) (m : List Byte) : Bytes 16 :=
  let r := rdle (key.val.take 16) &&& polyClamp
  let s := rdle (key.val.drop 16)
  ⟨leBytes 16 (polyPieces r ((m.length + 15) / 16) 0 m + s), length_leBytes ..⟩

/-- `MacInput(ct)` (R309): the ciphertext, zeros to a multiple of 16, the length of the (absent) associated data, the
length of the ciphertext. -/
def macInput (ct : List Byte) : List Byte :=
  ct ++ (List.replicate ((16 - ct.length % 16) % 16) 0 ++ (le64 0 ++ le64 (lengthField64 ct.length)))

end Sys2Proof.Machine
end

