-- ==== Sys2Proof/Machine/Sha256.lean ====
section
/-! DEFINITION. SHA-256 (spec/45_crypto_primitives.md R311 to R313). -/
namespace Sys2Proof.Machine

/-- The eight words of a hash value, or of the working variables `a` to `h` (R312, R313). -/
structure ShaState where
  a : Word32
  b : Word32
  c : Word32
  d : Word32
  e : Word32
  f : Word32
  g : Word32
  h : Word32
deriving DecidableEq, Repr

/-- The eight 32-bit words of a 256-bit number, leftmost first: a row of constants as R312 prints it. -/
def shaRow (row : BitVec 256) : List Word32 := (List.range 8).map fun i => row.extractLsb' (224 - 32 * i) 32

/-- The words `a` to `h` in order, from a list of them. -/
def ShaState.ofWords (ws : List Word32) : ShaState where
  a := ws.getD 0 0
  b := ws.getD 1 0
  c := ws.getD 2 0
  d := ws.getD 3 0
  e := ws.getD 4 0
  f := ws.getD 5 0
  g := ws.getD 6 0
  h := ws.getD 7 0

/-- The words in order. -/
def ShaState.words (x : ShaState) : List Word32 := [x.a, x.b, x.c, x.d, x.e, x.f, x.g, x.h]

/-- The initial hash `H`, the row of R312. -/
def shaInit : ShaState :=
  .ofWords (shaRow 0x6a09e667_bb67ae85_3c6ef372_a54ff53a_510e527f_9b05688c_1f83d9ab_5be0cd19)

/-- The round constants `K[0..63]`, row by row as R312 prints them. -/
def shaConstants : List Word32 :=
  List.flatMap shaRow
    [0x428a2f98_71374491_b5c0fbcf_e9b5dba5_3956c25b_59f111f1_923f82a4_ab1c5ed5,
     0xd807aa98_12835b01_243185be_550c7dc3_72be5d74_80deb1fe_9bdc06a7_c19bf174,
     0xe49b69c1_efbe4786_0fc19dc6_240ca1cc_2de92c6f_4a7484aa_5cb0a9dc_76f988da,
     0x983e5152_a831c66d_b00327c8_bf597fc7_c6e00bf3_d5a79147_06ca6351_14292967,
     0x27b70a85_2e1b2138_4d2c6dfc_53380d13_650a7354_766a0abb_81c2c92e_92722c85,
     0xa2bfe8a1_a81a664b_c24b8b70_c76c51a3_d192e819_d6990624_f40e3585_106aa070,
     0x19a4c116_1e376c08_2748774c_34b0bcb5_391c0cb3_4ed8aa4a_5b9cca4f_682e6ff3,
     0x748f82ee_78a5636f_84c87814_8cc70208_90befffa_a4506ceb_bef9a3f7_c67178f2]

/-- The exclusive or of a word's right rotations by the amounts listed: the shape of R313's four sums. -/
def xorRotations (amounts : List Nat) (x : Word32) : Word32 :=
  (amounts.map x.rotateRight).foldl (· ^^^ ·) 0

/-- `s0` of the schedule (R313). -/
def shaSmall0 (x : Word32) : Word32 := xorRotations [7, 18] x ^^^ (x >>> 3)

/-- `s1` of the schedule (R313). -/
def shaSmall1 (x : Word32) : Word32 := xorRotations [17, 19] x ^^^ (x >>> 10)

/-- `S0` of a round (R313). -/
def shaBig0 (x : Word32) : Word32 := xorRotations [2, 13, 22] x

/-- `S1` of a round (R313). -/
def shaBig1 (x : Word32) : Word32 := xorRotations [6, 11, 25] x

/-- `Ch` (R313). -/
def shaCh (x y z : Word32) : Word32 := (x &&& y) ^^^ (~~~x &&& z)

/-- `Maj` (R313). -/
def shaMaj (x y z : Word32) : Word32 := (x &&& y) ^^^ (x &&& z) ^^^ (y &&& z)

/-- Round `t` with its constant and its schedule word (R313). -/
def shaRound (x : ShaState) (k w : Word32) : ShaState :=
  let t1 := x.h + shaBig1 x.e + shaCh x.e x.f x.g + k + w
  let t2 := shaBig0 x.a + shaMaj x.a x.b x.c
  ⟨t1 + t2, x.a, x.b, x.c, x.d + t1, x.e, x.f, x.g⟩

/-- The rounds, run while constants last. `w` holds the next 16 schedule words; each round uses the first and appends
`w[t] = w[t-16] + s0(w[t-15]) + w[t-7] + s1(w[t-2])` (R313). -/
def shaRounds : List Word32 → List Word32 → ShaState → ShaState
  | [], _, x => x
  | k :: ks, w, x =>
    let next := w.getD 0 0 + shaSmall0 (w.getD 1 0) + w.getD 9 0 + shaSmall1 (w.getD 14 0)
    shaRounds ks (w.tail ++ [next]) (shaRound x k (w.getD 0 0))

/-- Word `i` of a block, most significant byte first (R311). -/
def wordBe (block : List Byte) (i : Nat) : Word32 := BitVec.ofNat 32 (rdbe ((block.drop (4 * i)).take 4))

/-- Compression of one 64-byte block into the hash (R313). -/
def shaCompress (x : ShaState) (block : List Byte) : ShaState :=
  let y := shaRounds shaConstants ((List.range 16).map (wordBe block)) x
  .ofWords (List.zipWith (· + ·) x.words y.words)

/-- The first `n` 64-byte blocks of a padded message, compressed in order. -/
def shaBlocks : Nat → ShaState → List Byte → ShaState
  | 0, x, _ => x
  | n + 1, x, m => shaBlocks n (shaCompress x (m.take 64)) (m.drop 64)

/-- The padded message (R311): 80, the least number of zeros to 56 modulo 64, the bit length in 8 bytes. -/
def shaPad (m : List Byte) : List Byte :=
  m ++ (0x80 :: (List.replicate ((119 - m.length % 64) % 64) 0 ++ beBytes 8 (lengthField64 (8 * m.length)).toNat))

/-- The digest: each word most significant byte first (R313). -/
def shaDigest (x : ShaState) : Bytes 32 :=
  ⟨x.words.flatMap fun w => beBytes 4 w.toNat, by simp [ShaState.words, length_beBytes]⟩

/-- `SHA256(m)` (R311 to R313). -/
def sha256 (m : List Byte) : Bytes 32 := shaDigest (shaBlocks ((shaPad m).length / 64) shaInit (shaPad m))

end Sys2Proof.Machine
end

