-- ==== Sys2Proof/Machine/Crypto.lean ====
section
/-! DEFINITION. The default instantiation of the record `Crypto` (spec/45_crypto_primitives.md R306 to R311), and the
instantiation the machine runs. -/
namespace Sys2Proof.Machine

/-- The default instantiation: size keystream from block 0 (R306), one-time key from block 0 and payload keystream from
block 1 (R307), Poly1305 (R308), MacInput (R309), SHA-256 (R311). -/
def defaultCrypto : Config.Crypto where
  ksSize key iv pos n := chachaStream key iv pos n
  ksPay key iv pos n := chachaStream key iv (64 + pos) n
  polyKey key iv := chachaStream key iv 0 32
  macInput := macInput
  poly1305 := poly1305
  sha256 := sha256

/-- The instantiation the machine runs. R8 leaves it open with this default. DESIGN CHOICE, log 4: what is proved of the
machine through `Config.Crypto.Lawful` alone holds for every instantiation of R301. -/
def crypto : Config.Crypto := defaultCrypto

end Sys2Proof.Machine
end

