-- ==== Sys2Proof/Machine/State.lean ====
section
/-! DEFINITION. The state of the block as plain data (spec/10_state.md sections 1, 2 and 4), its reset value, and the
reasons the model itself could stop. -/
namespace Sys2Proof.Machine

/-- One register bank (spec/10_state.md R20). `iv` and `cipher_id` are views (R24, R25), see `Bank.iv` and
`Bank.cipherId`. -/
structure Bank where
  /-- `K1`, `K2` and `SID` hold loaded values (R22). -/
  keyed : Bool
  /-- The size-cipher key `K1` (R21). -/
  k1 : Config.Key
  /-- The AEAD key `K2` (R21). -/
  k2 : Config.Key
  /-- The session identifier `SID` (R21). -/
  sid : Config.Key
  /-- Frames processed in this direction, modulo 2^`SEQ_BITS` (R23). -/
  seq : Config.SeqNum
  /-- `size_pos`: size-keystream bytes used since the last `CipherInit` (R26). -/
  sizePos : BitVec 64
  /-- `aead_pos`: payload-keystream bytes used since the last `CipherInit` (R27). -/
  aeadPos : BitVec 64
  /-- `mac_data`: what the MAC has absorbed since the last `CipherInit`, in order (R27). -/
  macData : List Byte
  /-- `mac_final`: FINAL has run since the last `CipherInit` (R27). -/
  macFinal : Bool
  /-- The tag of the last FINAL (R28). -/
  tag : Config.Tag
  /-- `tag_valid`: a FINAL has written `tag` since NEW (R28). -/
  tagValid : Bool
  /-- Bytes counted since the last re-key (R29). -/
  processed : BitVec 64
  /-- `last_rekey_time`, seconds since the epoch (R30). -/
  lastRekeyTime : BitVec 64
deriving DecidableEq, Repr

/-- The whole block and its two ports. -/
structure State where
  /-- Bank `in`, the receive direction (R20). -/
  inBank : Bank
  /-- Bank `out`, the transmit direction (R20). -/
  outBank : Bank
  /-- NEW has run and DESTROY has not (R33). -/
  live : Bool
  /-- 0, or the code of the first fault since NEW (R34). -/
  fault : BitVec 8
  /-- The receive queue `RXQ`: received bytes the parser has not consumed (R35); `total` is its length. -/
  pending : List Byte
  /-- Bytes the parser needs for its next step (R36). -/
  waiting : BitVec 32
  /-- The length prefix of the frame in progress has been consumed (R37). -/
  hasSize : Bool
  /-- An `error` event has been emitted since NEW (R38). -/
  halted : Bool
  /-- `CMD`: the transactions the host has presented and the block has not yet taken, oldest first
  (spec/20_memory.md R60, spec/30_encoding.md R90). Log 1. -/
  cmd : List (List Byte)
  /-- `RSP`: the transactions the block has answered with, oldest first (R61, R100). Log 1. -/
  rsp : List (List Byte)
deriving DecidableEq, Repr

/-- Why the model would stop with a fault of its own. It has NO constructor: the block stops nowhere. What the spec calls
a fault (spec/60_exceptions.md R345) is a next state, with the `fault` field written and the code in the response. -/
inductive Fault where
deriving DecidableEq, Repr

/-- Why the model would refuse an instruction. -/
inductive Refusal where
  /-- Raised by `exec` alone, for an instruction without a meaning yet; safe. No arm raises it. -/
  | notModelled (mnemonic : String)
deriving DecidableEq, Repr

/-- The reset value of every field of a bank (R40). -/
def Bank.reset : Bank where
  keyed := false
  k1 := Bytes.zero Config.keyLen
  k2 := Bytes.zero Config.keyLen
  sid := Bytes.zero Config.keyLen
  seq := 0
  sizePos := 0
  aeadPos := 0
  macData := []
  macFinal := false
  tag := Bytes.zero Config.tagLen
  tagValid := false
  processed := 0
  lastRekeyTime := 0

/-- The block after hardware reset (R40, R41, R380), no command presented and none answered (log 1). -/
def State.reset : State where
  inBank := Bank.reset
  outBank := Bank.reset
  live := false
  fault := 0
  pending := []
  waiting := BitVec.ofNat 32 Config.sizeLen
  hasSize := false
  halted := false
  cmd := []
  rsp := []

end Sys2Proof.Machine
end

