-- ==== Sys2Proof/Machine/Flags.lean ====
section
/-! DEFINITION. The flag bytes RDREG shows (spec/10_state.md R42, R43). The block has no condition codes and computes no
flag from a result (R43); these two bytes are its only flag layouts. -/
namespace Sys2Proof.Machine

/-- `SFLAGS`: bit 0 `keyed`, bit 1 `mac_final`, bit 2 `tag_valid`, bits 7:3 zero. -/
def sflags (b : Bank) : BitVec 8 := 0#5 ++ BitVec.ofBool b.tagValid ++ BitVec.ofBool b.macFinal ++ BitVec.ofBool b.keyed

/-- `BFLAGS`: bit 0 `live`, bit 1 `has_size`, bit 2 `halted`, bits 7:3 zero. -/
def bflags (s : State) : BitVec 8 := 0#5 ++ BitVec.ofBool s.halted ++ BitVec.ofBool s.hasSize ++ BitVec.ofBool s.live

end Sys2Proof.Machine
end

