-- ==== Sys2Proof/Machine/Operands.lean ====
section
/-! DEFINITION. What an operand names: a bank (spec/30_encoding.md R93) or a register (spec/10_state.md R42). The layouts
of the operand bytes are Decode.lean's. -/
namespace Sys2Proof.Machine

/-- The bank a command names. -/
def State.bank (s : State) : BankSel → Bank
  | .input => s.inBank
  | .output => s.outBank

/-- The state with that bank replaced, the other untouched (R20). -/
def State.setBank (s : State) (sel : BankSel) (b : Bank) : State :=
  match sel with
  | .input => { s with inBank := b }
  | .output => { s with outBank := b }

/-- `S.seq`, least significant byte first. -/
def Bank.seqField (b : Bank) : List Byte := leBytes Config.seqBytes b.seq.toNat

/-- `S.iv = le32(S.seq) ∥ 0^4` (R24): the sequence number, then zeros to `IV_LEN`. -/
def Bank.iv (b : Bank) : Config.Iv :=
  ⟨b.seqField ++ List.replicate (Config.ivLen - Config.seqBytes) 0, by
    rw [List.length_append, List.length_replicate, Bank.seqField, length_leBytes]; rfl⟩

/-- `S.cipher_id`, hardwired 0 (R25). -/
def Bank.cipherId (_ : Bank) : BitVec 8 := Config.cipherId

/-- `total`, the length of `pending` (R35). -/
def State.total (s : State) : Nat := s.pending.length

/-- The value of a per-bank register as RDREG returns it (R42). -/
def bankRegBytes (b : Bank) : BankReg → List Byte
  | .seq => b.seqField
  | .iv => b.iv.val
  | .sflags => [sflags b]
  | .cipherId => [b.cipherId]
  | .processed => le64 b.processed
  | .lastRekey => le64 b.lastRekeyTime
  | .tag => b.tag.val
  | .sid => b.sid.val
  | .sizePos => le64 b.sizePos
  | .aeadPos => le64 b.aeadPos
  | .macLen => le64 (lengthField64 b.macData.length)

/-- The value of a block-level register as RDREG returns it (R42). -/
def blockRegBytes (s : State) : BlockReg → List Byte
  | .bflags => [bflags s]
  | .fault => [s.fault]
  | .waiting => le32 s.waiting
  | .total => le64 (lengthField64 s.total)

/-- The value of the register RDREG names (R42, R144). -/
def regBytes (s : State) : Reg → List Byte
  | .ofBank sel r => bankRegBytes (s.bank sel) r
  | .ofBlock r => blockRegBytes s r

end Sys2Proof.Machine
end

