-- ==== Sys2Proof/Machine/Wire.lean ====
section
/-! DEFINITION. The wire formats D0 fixes (spec/30_encoding.md section 5): compact-size, varstring, inner message, and
the parser of inner messages (spec/43_feed.md R236). -/
namespace Sys2Proof.Machine

/-- The sub-codes of a PARSE error (spec/30_encoding.md R103). -/
inductive ParseError where
  /-- A compact-size runs past the end. -/
  | csTrunc
  /-- A compact-size is over-long and `STRICT_CS` holds. -/
  | csNoncanon
  /-- The name runs past the end. -/
  | cmdTrunc
  /-- Fewer than 4 bytes remain for the body length. -/
  | lenTrunc
  /-- The body runs past the end. -/
  | bodyTrunc
deriving DecidableEq, Repr

/-- An inner message as delivered: name and body (R107, R233). -/
structure Message where
  cmd : List Byte
  body : List Byte
deriving DecidableEq, Repr

/-- `cs(n)` (R104). -/
def csEncode (n : Nat) : List Byte :=
  if n < 0xFD then leBytes 1 n
  else if n < 0x10000 then 0xFD :: leBytes 2 n
  else if n < 0x100000000 then 0xFE :: leBytes 4 n
  else 0xFF :: leBytes 8 n

/-- `cs_len(n)` (R104). -/
def csLen (n : Nat) : Nat :=
  if n < 0xFD then 1 else if n < 0x10000 then 3 else if n < 0x100000000 then 5 else 9

/-- The width of the number that follows the first byte `FD`, `FE` or `FF` (R105). -/
def csWidth (t : Byte) : Nat := if t = 0xFD then 2 else if t = 0xFE then 4 else 8

/-- The smallest value that needs the form of the first byte `FD`, `FE` or `FF` (R105). -/
def csLeast (t : Byte) : Nat := if t = 0xFD then 0xFD else if t = 0xFE then 0x10000 else 0x100000000

/-- `cs_dec` (R105) on what is left of the payload: the value and the bytes used. `strict` is `STRICT_CS`. -/
def csDecode (strict : Bool) (p : List Byte) : Except ParseError (Nat × Nat) :=
  match p with
  | [] => .error .csTrunc
  | t :: rest =>
    if t.toNat < 0xFD then .ok (t.toNat, 1)
    else if rest.length < csWidth t then .error .csTrunc
    else if decide (rdle (rest.take (csWidth t)) < csLeast t) && strict then .error .csNoncanon
    else .ok (rdle (rest.take (csWidth t)), 1 + csWidth t)

/-- `varstring(x)` (R106). -/
def varstring (x : List Byte) : List Byte := csEncode x.length ++ x

/-- `v`, the length of `varstring(x)` (R106). -/
def varstringLen (x : List Byte) : Nat := csLen x.length + x.length

/-- An inner message `varstring(cmd) ∥ le32(len) ∥ body` (R107). -/
def innerMessage (cmd body : List Byte) : List Byte :=
  varstring cmd ++ (le32 (BitVec.ofNat 32 body.length) ++ body)

/-- One turn of the loop of `ParseInner` (spec/43_feed.md R236): the message at the head of what is left of the payload,
and what follows it. -/
def parseMessage (strict : Bool) (p : List Byte) : Except ParseError (Message × List Byte) :=
  match csDecode strict p with
  | .error e => .error e
  | .ok (c, used) =>
    let afterCs := p.drop used
    if c > afterCs.length then .error .cmdTrunc
    else
      let afterCmd := afterCs.drop c
      if afterCmd.length < 4 then .error .lenTrunc
      else
        let len := rdle (afterCmd.take 4)
        let afterLen := afterCmd.drop 4
        if len > afterLen.length then .error .bodyTrunc
        else .ok (⟨afterCs.take c, afterLen.take len⟩, afterLen.drop len)

/-- The loop of `ParseInner`, all or nothing (R235, R236). Every turn uses at least 5 bytes, so the length of the payload
is turns enough. -/
def parseLoop (strict : Bool) : Nat → List Byte → Except ParseError (List Message)
  | 0, _ => .ok []
  | n + 1, p =>
    if p.isEmpty then .ok []
    else
      match parseMessage strict p with
      | .error e => .error e
      | .ok (m, rest) =>
        match parseLoop strict n rest with
        | .error e => .error e
        | .ok ms => .ok (m :: ms)

/-- `ParseInner(p)` (R236). -/
def parseInner (strict : Bool) (p : List Byte) : Except ParseError (List Message) := parseLoop strict p.length p

end Sys2Proof.Machine
end

