-- ==== Sys2Proof/Machine/Response.lean ====
section
/-! DEFINITION. What the block answers: status and fault codes (spec/60_exceptions.md R346), events
(spec/30_encoding.md R102, R103) and the response transaction (R100). -/
namespace Sys2Proof.Machine

/-- The fault codes of R346. A raise leaves the code in `fault` and in the response's status (R345); none of them stops
the model. -/
inductive FaultCode where
  /-- `live = 0`. -/
  | notLive
  /-- An illegal command (spec/30_encoding.md R98). -/
  | illegalCmd
  /-- NEW with `cid ≠ 0`. -/
  | badCipher
  /-- The bank's `keyed = 0`. -/
  | notKeyed
  /-- INIT of a keyed bank. -/
  | alreadyKeyed
  /-- `mac_final = 1`. -/
  | macFinal
  /-- VERIFY with `tag_valid = 0`. -/
  | noTag
  /-- `payload_size ≥ 2^32`, or `processed + n ≥ 2^64`. -/
  | range
  /-- A keystream position would pass `KS_LIMIT`. -/
  | ksLimit
  /-- `total + n > RXQ_CAPACITY`. -/
  | rxqOverflow
deriving DecidableEq, Repr

/-- The numbers of R346. -/
def FaultCode.byte : FaultCode → BitVec 8
  | .notLive => 0x10
  | .illegalCmd => 0x11
  | .badCipher => 0x12
  | .notKeyed => 0x13
  | .alreadyKeyed => 0x14
  | .macFinal => 0x15
  | .noTag => 0x16
  | .range => 0x17
  | .ksLimit => 0x18
  | .rxqOverflow => 0x19

/-- Every fault code. -/
def allFaultCodes : List FaultCode :=
  [.notLive, .illegalCmd, .badCipher, .notKeyed, .alreadyKeyed, .macFinal, .noTag, .range, .ksLimit, .rxqOverflow]

/-- `ST_OK` (R346). -/
def statusOk : BitVec 8 := 0x00

/-- `ST_FAULTED` (R346). -/
def statusFaulted : BitVec 8 := 0x02

/-- The events the block emits (R102, R103, R351). -/
inductive Event where
  /-- From PACK, when the trigger fired. -/
  | rekey
  /-- From FEED, one per inner message of a good frame. -/
  | packet (m : Message)
  /-- `error(BAD_SIZE)` with the deciphered size. -/
  | badSize (size : BitVec 32)
  /-- `error(BAD_TAG)` with the tag bytes taken from the received frame. -/
  | badTag (received : List Byte)
  /-- `error(PARSE)` with its sub-code. -/
  | parse (e : ParseError)
deriving DecidableEq, Repr

/-- The sub-codes of R103. -/
def ParseError.byte : ParseError → Byte
  | .csTrunc => 0x01
  | .csNoncanon => 0x02
  | .cmdTrunc => 0x03
  | .lenTrunc => 0x04
  | .bodyTrunc => 0x05

/-- A 32-bit length field; a length of 2^32 or more is a FREE VALUE (log 8). -/
def lengthBytes32 (n : Nat) : List Byte := le32 (lengthField32 n)

/-- An event as bytes (R102, R103). -/
def Event.encode : Event → List Byte
  | .rekey => [0x01]
  | .packet m => 0x02 :: (lengthBytes32 m.cmd.length ++ (m.cmd ++ (lengthBytes32 m.body.length ++ m.body)))
  | .badSize size => 0x03 :: 0x01 :: le32 size
  | .badTag received => 0x03 :: 0x02 :: received
  | .parse e => [0x03, 0x03, e.byte]

/-- Whether an event is one of the three `error` events. -/
def Event.isError : Event → Bool
  | .rekey | .packet _ => false
  | .badSize _ | .badTag _ | .parse _ => true

/-- A response before it is laid out (R100). -/
structure Response where
  status : BitVec 8
  result : List Byte
  events : List Event
deriving DecidableEq, Repr

/-- The response transaction `status:1 ∥ rlen:4 ∥ result ∥ nev:4 ∥ events` (R100). -/
def Response.encode (r : Response) : List Byte :=
  r.status :: (lengthBytes32 r.result.length
    ++ (r.result ++ (lengthBytes32 r.events.length ++ r.events.flatMap Event.encode)))

/-- `ST_OK` with a result and no event. -/
def okResponse (result : List Byte) : Response := ⟨statusOk, result, []⟩

/-- A fault's response: no result, the events emitted before the raise (R100, R345). -/
def faultResponse (c : FaultCode) (events : List Event) : Response := ⟨c.byte, [], events⟩

/-- A true or false result, one byte (R101). -/
def boolResult (b : Bool) : List Byte := if b then [0x01] else [0x00]

end Sys2Proof.Machine
end

