-- ==== Sys2Proof/Machine/Ops.lean ====
section
/-! DEFINITION. The shared operations: taking a fault and answering (spec/60_exceptions.md R345), the guard
(spec/40_stream_ops.md R130, R131), the micro-operations on one bank (40_stream_ops.md, 41_rekey.md), the receive queue
(spec/20_memory.md R66, R67) and the command port. -/
namespace Sys2Proof.Machine

/-! ### Answering, and taking a fault -/

/-- One response goes out, after those before it (spec/20_memory.md R61, R75). -/
def State.respond (s : State) (r : Response) : State := { s with rsp := s.rsp ++ [r.encode] }

/-- `raise Fault(c)` (R345): the code goes into `fault` if that is 0; the response carries the code, no result and the
events emitted so far. What was written before the raise is in `s` already. There is no return from it (R355). -/
def State.raise (s : State) (c : FaultCode) (events : List Event) : State :=
  { s with fault := if s.fault = 0 then c.byte else s.fault }.respond (faultResponse c events)

/-- A command refused because `fault ≠ 0`: status `ST_FAULTED`, nothing else changes (R346, R347). -/
def State.refuse (s : State) : State := s.respond ⟨statusFaulted, [], []⟩

/-- `Guard()` for a legal command other than NEW, DESTROY and RDREG (R130, R131): checks (1) and (3). Check (2), the
legality of the command, is the decoder's; see `illegalCommand`. -/
def State.guarded (s : State) (operation : State → State) : State :=
  if s.fault ≠ 0 then s.refuse
  else if s.live then operation s
  else s.raise .notLive []

/-- Whether a transaction's operation is NEW, DESTROY or RDREG, told by its first byte, the `opc` field. DEDUCED, log 9. -/
def alwaysAccepted (tx : List Byte) : Bool :=
  match tx with
  | [] => false
  | b :: _ => b == Opcode.new.byte || b == Opcode.destroy.byte || b == Opcode.rdreg.byte

/-- An illegal command (spec/30_encoding.md R98, R130 checks (1) and (2)): a faulted block refuses it unless its operation
is NEW, DESTROY or RDREG; otherwise `F_ILLEGAL_CMD`. -/
def State.illegalCommand (s : State) (tx : List Byte) : State :=
  if s.fault ≠ 0 ∧ alwaysAccepted tx = false then s.refuse else s.raise .illegalCmd []

/-! ### Runs: a computation that may end in a fault, with the state as it then stands -/

/-- The result of internal steps over a state `σ`: a value, or a raise with the state as it stood (R345 (3)). -/
inductive Run (σ α : Type) where
  | done (a : α) (s : σ)
  | raised (c : FaultCode) (s : σ)
deriving DecidableEq, Repr

/-- Internal steps in order: nothing after a raise is performed (R345 (2)). -/
def Run.bind {σ α β : Type} (r : Run σ α) (next : α → σ → Run σ β) : Run σ β :=
  match r with
  | .done a s => next a s
  | .raised c s => .raised c s

/-! ### Micro-operations on one bank -/

/-- `CipherInit(S)` (spec/10_state.md R31). -/
def Bank.cipherInit (b : Bank) : Bank := { b with sizePos := 0, aeadPos := 0, macData := [], macFinal := false }

/-- `NeedKeyed(S)` (R131). -/
def Bank.needKeyed (b : Bank) : Run Bank Unit := if b.keyed then .done () b else .raised .notKeyed b

/-- INIT's effect on its bank (R135). -/
def Bank.load (now : BitVec 64) (k1 k2 sid : Config.Key) (b : Bank) : Run Bank Unit :=
  if b.keyed then .raised .alreadyKeyed b
  else
    .done () { { b with k1 := k1, k2 := k2, sid := sid, keyed := true, seq := 0 }.cipherInit with lastRekeyTime := now }

/-- SEQUENCE's effect on its bank (R136): `seq` wraps silently at 2^`SEQ_BITS` (R23). -/
def Bank.sequence (b : Bank) : Run Bank Unit :=
  b.needKeyed.bind fun _ b => .done () { b with seq := b.seq + 1 }.cipherInit

/-- The XOR with the next size-keystream bytes that ENCSIZE and DECSIZE share (R137, R138). -/
def Bank.cryptSize (buf : List Byte) (b : Bank) : Run Bank (List Byte) :=
  b.needKeyed.bind fun _ b =>
    if b.sizePos.toNat + Config.sizeLen > Config.ksLimit then .raised .ksLimit b
    else
      .done (xorBytes buf (crypto.ksSize b.k1 b.iv b.sizePos.toNat Config.sizeLen).val)
        { b with sizePos := b.sizePos + BitVec.ofNat 64 Config.sizeLen }

/-- The XOR with the payload keystream at the bank's position (R139, R140). -/
def Bank.cryptPayload (data : List Byte) (b : Bank) : List Byte :=
  xorBytes data (crypto.ksPay b.k2 b.iv b.aeadPos.toNat data.length).val

/-- Whether `n` more payload-keystream bytes would pass `KS_LIMIT` (R139, R140). -/
def Bank.payloadPastLimit (n : Nat) (b : Bank) : Bool := decide (b.aeadPos.toNat + n > Config.ksLimit)

/-- ENCRYPT's effect on its bank (R139). -/
def Bank.encrypt (data : List Byte) (b : Bank) : Run Bank (List Byte) :=
  b.needKeyed.bind fun _ b =>
    if b.macFinal then .raised .macFinal b
    else if b.payloadPastLimit data.length then .raised .ksLimit b
    else
      .done (b.cryptPayload data)
        { b with
          aeadPos := b.aeadPos + BitVec.ofNat 64 data.length
          macData := b.macData ++ b.cryptPayload data }

/-- DECRYPT's effect on its bank (R140): the MAC absorbs the ciphertext unless it is finished. -/
def Bank.decrypt (data : List Byte) (b : Bank) : Run Bank (List Byte) :=
  b.needKeyed.bind fun _ b =>
    if b.payloadPastLimit data.length then .raised .ksLimit b
    else
      .done (b.cryptPayload data)
        { b with
          aeadPos := b.aeadPos + BitVec.ofNat 64 data.length
          macData := if b.macFinal then b.macData else b.macData ++ data }

/-- AUTH's effect on its bank (R141). -/
def Bank.auth (data : List Byte) (b : Bank) : Run Bank Unit :=
  b.needKeyed.bind fun _ b =>
    if b.macFinal then .raised .macFinal b else .done () { b with macData := b.macData ++ data }

/-- The tag of what the bank's MAC has absorbed (R142, R310). -/
def Bank.currentTag (b : Bank) : Config.Tag := crypto.tag b.k2 b.iv b.macData

/-- FINAL's effect on its bank (R142). -/
def Bank.final (b : Bank) : Run Bank (List Byte) :=
  b.needKeyed.bind fun _ b =>
    if b.macFinal then .raised .macFinal b
    else .done b.currentTag.val { b with tag := b.currentTag, tagValid := true, macFinal := true }

/-- VERIFY on its bank (R143): no state changes; all 16 bytes take part. -/
def Bank.verify (t : List Byte) (b : Bank) : Run Bank Bool :=
  if b.tagValid then .done (decide (b.tag.val = t)) b else .raised .noTag b

/-- Whether the trigger fires for a bank that has counted `processed` bytes (R180, R181): both comparisons are `≥`, the
sum of the time clause does not wrap. -/
def rekeyDue (now lastRekeyTime : BitVec 64) (processed : Nat) : Bool :=
  decide (now.toNat ≥ lastRekeyTime.toNat + Config.rekeySeconds) || decide (processed ≥ Config.hwm)

/-- SHOULDREKEY's effect on its bank (R181). -/
def Bank.shouldRekey (now : BitVec 64) (n : Nat) (b : Bank) : Run Bank Bool :=
  b.needKeyed.bind fun _ b =>
    if b.processed.toNat + n ≥ 2 ^ 64 then .raised .range b
    else if rekeyDue now b.lastRekeyTime (b.processed.toNat + n) then
      .done true { b with processed := 0, lastRekeyTime := now }
    else .done false { b with processed := b.processed + BitVec.ofNat 64 n }

/-- The next generation of a key (R183): `SHA256d(SID ∥ K)`. -/
def nextKey (sid k : Config.Key) : Config.Key := crypto.sha256d (sid.val ++ k.val)

/-- REKEYX's effect on its bank (R184): both keys replaced, `SID`, `seq` and the trigger's measures kept. -/
def Bank.rekeyWith (k1 k2 : Config.Key) (b : Bank) : Run Bank Unit :=
  b.needKeyed.bind fun _ b => .done () { b with k1 := k1, k2 := k2 }.cipherInit

/-- REKEY's effect on its bank (R183). -/
def Bank.rekey (b : Bank) : Run Bank Unit :=
  b.rekeyWith (nextKey b.sid b.k1) (nextKey b.sid b.k2)

/-! ### A micro-operation as a command, and as an internal step -/

/-- A step on one bank, as a step on the block (R20: the other bank is not touched). -/
def State.onBank {α : Type} (s : State) (sel : BankSel) (op : Bank → Run Bank α) : Run State α :=
  match op (s.bank sel) with
  | .done a b => .done a (s.setBank sel b)
  | .raised c b => .raised c (s.setBank sel b)

/-- A run that has ended, answered: `ST_OK` with its result and events, or the fault with the events so far. -/
def answer (events : List Event) (r : Run State (List Byte)) : State :=
  match r with
  | .done result s => s.respond ⟨statusOk, result, events⟩
  | .raised c s => s.raise c events

/-- A micro-operation without result as a command: guarded, on the bank it names (R130, R132). -/
def State.runUnit (s : State) (sel : BankSel) (op : Bank → Run Bank Unit) : State :=
  s.guarded fun s => answer [] ((s.onBank sel op).bind fun _ s => .done [] s)

/-- A micro-operation with a byte-string result as a command. -/
def State.runBytes (s : State) (sel : BankSel) (op : Bank → Run Bank (List Byte)) : State :=
  s.guarded fun s => answer [] (s.onBank sel op)

/-- A micro-operation with a true or false result as a command (R101). -/
def State.runBool (s : State) (sel : BankSel) (op : Bank → Run Bank Bool) : State :=
  s.guarded fun s => answer [] ((s.onBank sel op).bind fun t s => .done (boolResult t) s)

/-- Both banks and the parser at their reset values (spec/10_state.md R40, R41); `live`, `fault` and the ports kept. -/
def State.resetSession (s : State) : State :=
  { s with
    inBank := Bank.reset
    outBank := Bank.reset
    pending := State.reset.pending
    waiting := State.reset.waiting
    hasSize := State.reset.hasSize
    halted := State.reset.halted }

/-! ### The receive queue -/

/-- Whether `n` more bytes would pass a finite `RXQ_CAPACITY` (spec/20_memory.md R66). `extra` is
`Config.rxqExtra`; the first test only says early that no capacity R8 allows is passed. -/
def rxqOverflows (extra : Option Nat) (total n : Nat) : Bool :=
  decide (total + n > Config.rxqMinCapacity) &&
    match extra with
    | none => false
    | some e => decide (total + n > Config.rxqMinCapacity + e)

/-- `RxqAppend(d)` (R66). -/
def State.rxqAppend (s : State) (d : List Byte) : State := { s with pending := s.pending ++ d }

/-- What `RxqRead(n)` returns (R67). -/
def State.rxqChunk (s : State) (n : Nat) : List Byte := s.pending.take n

/-- What `RxqRead(n)` leaves (R67). -/
def State.rxqDrop (s : State) (n : Nat) : State := { s with pending := s.pending.drop n }

/-! ### The command port -/

/-- The block takes the transaction at the head of `CMD`: bytes are consumed in order, once (spec/20_memory.md R60). -/
def State.takeCommand (s : State) : Option (List Byte × State) :=
  match s.cmd with
  | [] => none
  | tx :: rest => some (tx, { s with cmd := rest })

/-- The host presents a transaction ahead of those waiting (log 2). -/
def State.present (s : State) (tx : List Byte) : State := { s with cmd := tx :: s.cmd }

end Sys2Proof.Machine
end

