-- ==== Sys2Proof/Machine/Aead.lean ====
section
/-! DEFINITION. The AEAD: ENCRYPT, DECRYPT, AUTH, FINAL, VERIFY (spec/40_stream_ops.md R139 to R143). -/
namespace Sys2Proof.Machine

/-- ENCRYPT `S, data` (R139). -/
def execEncrypt (sel : BankSel) (data : List Byte) (s : State) : Host.Outcome State Fault Refusal :=
  .next (s.runBytes sel (Bank.encrypt data))

/-- DECRYPT `S, data` (R140). -/
def execDecrypt (sel : BankSel) (data : List Byte) (s : State) : Host.Outcome State Fault Refusal :=
  .next (s.runBytes sel (Bank.decrypt data))

/-- AUTH `S, data` (R141). -/
def execAuth (sel : BankSel) (data : List Byte) (s : State) : Host.Outcome State Fault Refusal :=
  .next (s.runUnit sel (Bank.auth data))

/-- FINAL `S` (R142). -/
def execFinal (sel : BankSel) (s : State) : Host.Outcome State Fault Refusal :=
  .next (s.runBytes sel Bank.final)

/-- VERIFY `S, tag16` (R143). -/
def execVerify (sel : BankSel) (tag : Config.Tag) (s : State) : Host.Outcome State Fault Refusal :=
  .next (s.runBool sel (Bank.verify tag.val))

end Sys2Proof.Machine
end

