-- ==== Sys2Proof/Machine/Debug.lean ====
section
/-! DEFINITION. The debug read: RDREG (spec/40_stream_ops.md R144). -/
namespace Sys2Proof.Machine

/-- RDREG `S, reg` (R144): accepted in every state, changes no state. A reserved number, or a block-level register with
`s = 1`, is an illegal command and never reaches here (spec/30_encoding.md R98); nor does a number above 1F (log 17). -/
def execRdreg (reg : Reg) (s : State) : Host.Outcome State Fault Refusal :=
  .next (s.respond (okResponse (regBytes s reg)))

end Sys2Proof.Machine
end

