-- ==== Sys2Proof/Machine/Feed.lean ====
section
/-! DEFINITION. Inbound framing: FEED and the two-phase parser (spec/43_feed.md R220 to R237). The micro-operations run as
internal steps on bank `in`. A phase emits its events last, so a raise in a phase has no event of that phase. -/
namespace Sys2Proof.Machine

/-- `PhaseA(chunk)` (R225 to R228): decipher the size, check `6 ≤ size ≤ MAX_MESSAGE`. -/
def phaseA (chunk : List Byte) (s : State) : Run State (List Event) :=
  (s.onBank .input (Bank.cryptSize chunk)).bind fun d s =>
    if rdle d < Config.minSize ∨ rdle d > Config.maxMessage then
      .done [.badSize (BitVec.ofNat 32 (rdle d))] { s with halted := true }
    else .done [] { s with hasSize := true, waiting := BitVec.ofNat 32 (rdle d + Config.tagLen) }

/-- The end of phase B for a frame whose tag is good (R232 to R235): decipher, advance `seq`, then parse. -/
def phaseBGood (payload : List Byte) (s : State) : Run State (List Event) :=
  (s.onBank .input (Bank.decrypt payload)).bind fun plain s =>
  (s.onBank .input Bank.sequence).bind fun _ s =>
    match parseInner Config.strictCs plain with
    | .error e => .done [.parse e] { s with halted := true }
    | .ok ms => .done (ms.map .packet) s

/-- The end of phase B for a frame whose tag is bad (R231): advance `seq`, halt; the payload is not deciphered. -/
def phaseBBad (t : List Byte) (s : State) : Run State (List Event) :=
  (s.onBank .input Bank.sequence).bind fun _ s => .done [.badTag t] { s with halted := true }

/-- `PhaseB(chunk)` (R229 to R235): the phase returns to A first, then the payload is authenticated. -/
def phaseB (chunk : List Byte) (s : State) : Run State (List Event) :=
  let size := chunk.length - Config.tagLen
  let payload := chunk.take size
  let t := chunk.drop size
  ({ s with hasSize := false, waiting := State.reset.waiting }.onBank .input (Bank.auth payload)).bind fun _ s =>
  (s.onBank .input Bank.final).bind fun _ s =>
  (s.onBank .input (Bank.verify t)).bind fun good s =>
    if good then phaseBGood payload s else phaseBBad t s

/-- One turn of FEED's loop (R220): take `waiting` bytes from the queue, run the phase. -/
def parserTurn (s : State) : Run State (List Event) :=
  let chunk := s.rxqChunk s.waiting.toNat
  let s := s.rxqDrop s.waiting.toNat
  if s.hasSize then phaseB chunk s else phaseA chunk s

/-- The loop's condition (R223). -/
def State.parserReady (s : State) : Bool := !s.halted && decide (s.waiting.toNat ≤ s.total)

/-- How FEED's loop ends. -/
structure FeedEnd where
  /-- The state as it stands. -/
  state : State
  /-- The events emitted, in order. -/
  events : List Event
  /-- The fault raised, if one was. -/
  raised : Option FaultCode
deriving DecidableEq, Repr

/-- FEED's loop (R220, R223). The number bounds the turns; `feedTurns` are enough (DEDUCED, log 16). -/
def feedLoop : Nat → List Event → State → FeedEnd
  | 0, events, s => ⟨s, events, none⟩
  | n + 1, events, s =>
    if s.parserReady then
      match parserTurn s with
      | .raised c s => ⟨s, events, some c⟩
      | .done new s => feedLoop n (events ++ new) s
    else ⟨s, events, none⟩

/-- Turns enough for the queue: every turn after the first takes at least 4 bytes (R244). -/
def feedTurns (s : State) : Nat := s.total + 1

/-- The loop's end, answered. -/
def FeedEnd.answered (r : FeedEnd) : State :=
  match r.raised with
  | none => r.state.respond ⟨statusOk, [], r.events⟩
  | some c => r.state.raise c r.events

/-- FEED after the guard (R220): the keyed check, then `halted` (R221), then the queue's capacity (R66). -/
def State.feed (data : List Byte) (s : State) : State :=
  if s.inBank.keyed = false then s.raise .notKeyed []
  else if s.halted then s.respond (okResponse [])
  else if rxqOverflows Config.rxqExtra s.total data.length then s.raise .rxqOverflow []
  else (feedLoop (feedTurns (s.rxqAppend data)) [] (s.rxqAppend data)).answered

/-- FEED `data` (R220). -/
def execFeed (data : List Byte) (s : State) : Host.Outcome State Fault Refusal :=
  .next (s.guarded (State.feed data))

end Sys2Proof.Machine
end

