-- ==== Sys2Proof/Machine/Lifecycle.lean ====
section
/-! DEFINITION. NEW, DESTROY, INIT and SEQUENCE (spec/40_stream_ops.md R133 to R136). -/
namespace Sys2Proof.Machine

/-- NEW `cid` (R133): accepted in every state; a cipher number other than 0 leaves the block not live and faulted. -/
def execNew (cid : BitVec 8) (s : State) : Host.Outcome State Fault Refusal :=
  .next <|
    if cid = Config.cipherId then
      { s.resetSession with live := true, fault := 0 }.respond (okResponse [])
    else
      { s.resetSession with live := false, fault := FaultCode.badCipher.byte }.respond (faultResponse .badCipher [])

/-- DESTROY (R134): accepted in every state; `fault` stays. -/
def execDestroy (s : State) : Host.Outcome State Fault Refusal :=
  .next ({ s.resetSession with live := false }.respond (okResponse []))

/-- INIT `S, now, K1, K2, SID` (R135). -/
def execInit (sel : BankSel) (now : BitVec 64) (k1 k2 sid : Config.Key) (s : State) :
    Host.Outcome State Fault Refusal :=
  .next (s.runUnit sel (Bank.load now k1 k2 sid))

/-- SEQUENCE `S` (R136). -/
def execSequence (sel : BankSel) (s : State) : Host.Outcome State Fault Refusal :=
  .next (s.runUnit sel Bank.sequence)

end Sys2Proof.Machine
end

