-- ==== Sys2Proof/Machine/Pack.lean ====
section
/-! DEFINITION. Outbound framing: PACK (spec/42_pack.md R200 to R213). The micro-operations run as internal steps on bank
`out`; a raise in one of them ends PACK with the bank as it then stands (R200). -/
namespace Sys2Proof.Machine

/-- `payload_size = v + 4 + b` (R201). -/
def payloadSize (cmd body : List Byte) : Nat := varstringLen cmd + 4 + body.length

/-- The whole frame's length, `4 + payload_size + 16` (R201). -/
def frameLength (cmd body : List Byte) : Nat := Config.sizeLen + payloadSize cmd body + Config.tagLen

/-- Steps 1 to 3 up to the trigger's answer (R202, R204): the range check comes before any state changes. -/
def Bank.packTrigger (now : BitVec 64) (cmd body : List Byte) (b : Bank) : Run Bank Bool :=
  b.needKeyed.bind fun _ b =>
    if payloadSize cmd body ≥ 2 ^ 32 then .raised .range b else b.shouldRekey now (frameLength cmd body)

/-- The `rekey` event, appended before the keys change (R204). -/
def packEvents (due : Bool) : List Event := if due then [.rekey] else []

/-- `MemRead(off, n)` on `TXBUF` (spec/00_scope.md section 6, spec/20_memory.md R62). -/
def txRead (txbuf : List Byte) (off n : Nat) : List Byte := (txbuf.drop off).take n

/-- `MemWrite(off, |v|, v)` on `TXBUF`. -/
def txWrite (txbuf : List Byte) (off : Nat) (v : List Byte) : List Byte :=
  txbuf.take off ++ (v ++ txbuf.drop (off + v.length))

/-- Step 2, the clear frame with 16 bytes of trailing space (R203), laid out by the map of spec/20_memory.md R63. -/
def clearFrame (cmd body : List Byte) : List Byte :=
  le32 (BitVec.ofNat 32 (payloadSize cmd body)) ++ (innerMessage cmd body ++ List.replicate Config.tagLen 0)

/-- The rest of step 3, then steps 4 to 8 (R204 to R209): the re-key if due, the enciphered size, the enciphered payload,
the tag, the sequence step; each result goes into `TXBUF`, which is the result. -/
def Bank.packFrame (due : Bool) (cmd body : List Byte) (b : Bank) : Run Bank (List Byte) :=
  let ps := payloadSize cmd body
  let txbuf := clearFrame cmd body
  (if due then b.rekey else .done () b).bind fun _ b =>
  (b.cryptSize (txRead txbuf 0 Config.sizeLen)).bind fun size b =>
  let txbuf := txWrite txbuf 0 size
  (b.encrypt (txRead txbuf Config.sizeLen ps)).bind fun ciphertext b =>
  let txbuf := txWrite txbuf Config.sizeLen ciphertext
  b.final.bind fun tag b =>
  let txbuf := txWrite txbuf (Config.sizeLen + ps) tag
  b.sequence.bind fun _ b =>
  .done txbuf b

/-- PACK `now, cmd, body` (R200). -/
def execPack (now : BitVec 64) (cmd body : List Byte) (s : State) : Host.Outcome State Fault Refusal :=
  .next <| s.guarded fun s =>
    match s.onBank .output (Bank.packTrigger now cmd body) with
    | .raised c s => s.raise c []
    | .done due s => answer (packEvents due) (s.onBank .output (Bank.packFrame due cmd body))

end Sys2Proof.Machine
end

