-- ==== Sys2Proof/Machine/Rekey.lean ====
section
/-! DEFINITION. The re-key trigger and the re-key operations: SHOULDREKEY, REKEY, REKEYX (spec/41_rekey.md R181, R183,
R184). -/
namespace Sys2Proof.Machine

/-- SHOULDREKEY `S, now, n` (R181). -/
def execShouldrekey (sel : BankSel) (now n : BitVec 64) (s : State) : Host.Outcome State Fault Refusal :=
  .next (s.runBool sel (Bank.shouldRekey now n.toNat))

/-- REKEY `S` (R183). -/
def execRekey (sel : BankSel) (s : State) : Host.Outcome State Fault Refusal :=
  .next (s.runUnit sel Bank.rekey)

/-- REKEYX `S, K1, K2` (R184). -/
def execRekeyx (sel : BankSel) (k1 k2 : Config.Key) (s : State) : Host.Outcome State Fault Refusal :=
  .next (s.runUnit sel (Bank.rekeyWith k1 k2))

end Sys2Proof.Machine
end

