-- ==== Sys2Proof/Machine/SizeCipher.lean ====
section
/-! DEFINITION. The size cipher: ENCSIZE and DECSIZE (spec/40_stream_ops.md R137, R138). -/
namespace Sys2Proof.Machine

/-- ENCSIZE `S, buf4` (R137). -/
def execEncsize (sel : BankSel) (buf : Config.SizeField) (s : State) : Host.Outcome State Fault Refusal :=
  .next (s.runBytes sel (Bank.cryptSize buf.val))

/-- DECSIZE `S, buf4` (R138): the result bytes are `le32(size)`; the size is not validated here. -/
def execDecsize (sel : BankSel) (buf : Config.SizeField) (s : State) : Host.Outcome State Fault Refusal :=
  .next (s.runBytes sel (Bank.cryptSize buf.val))

end Sys2Proof.Machine
end

