-- ==== Sys2Proof/Machine/Dispatch.lean ====
section
/-! DEFINITION. One arm per command (spec/30_encoding.md R92), each a call of its meaning. -/
namespace Sys2Proof.Machine

/-- What the block does with a legal command it has taken from `CMD`. -/
def exec (i : Instr) (s : State) : Host.Outcome State Fault Refusal :=
  match i with
  | .new cid => Sys2Proof.Machine.execNew cid s
  | .destroy => Sys2Proof.Machine.execDestroy s
  | .init sel now k1 k2 sid => Sys2Proof.Machine.execInit sel now k1 k2 sid s
  | .rekey sel => Sys2Proof.Machine.execRekey sel s
  | .rekeyx sel k1 k2 => Sys2Proof.Machine.execRekeyx sel k1 k2 s
  | .shouldrekey sel now n => Sys2Proof.Machine.execShouldrekey sel now n s
  | .sequence sel => Sys2Proof.Machine.execSequence sel s
  | .encsize sel buf => Sys2Proof.Machine.execEncsize sel buf s
  | .decsize sel buf => Sys2Proof.Machine.execDecsize sel buf s
  | .encrypt sel data => Sys2Proof.Machine.execEncrypt sel data s
  | .decrypt sel data => Sys2Proof.Machine.execDecrypt sel data s
  | .auth sel data => Sys2Proof.Machine.execAuth sel data s
  | .final sel => Sys2Proof.Machine.execFinal sel s
  | .verify sel tag => Sys2Proof.Machine.execVerify sel tag s
  | .pack now cmd body => Sys2Proof.Machine.execPack now cmd body s
  | .feed data => Sys2Proof.Machine.execFeed data s
  | .rdreg reg => Sys2Proof.Machine.execRdreg reg s

end Sys2Proof.Machine
end

