-- ==== Sys2Proof/Machine/Step.lean ====
section
/-! DEFINITION. One step: the block takes the next command from `CMD` and completes it (spec/20_memory.md R75). -/
namespace Sys2Proof.Machine

/-- With no command presented the block is idle and holds its state (spec/60_exceptions.md R367, spec/70 R382; log 3).
A transaction that is no command is answered as illegal (spec/30_encoding.md R98). -/
def step (s : State) : Host.Outcome State Fault Refusal :=
  match s.takeCommand with
  | none => .next s
  | some (tx, s) =>
    match decode tx with
    | .ok i => exec i s
    | .error _ => .next (s.illegalCommand tx)

/-- `s` with the table's transaction presented as the next command (log 2). -/
def State.withFetchWord (s : State) (nbits w : Nat) : State := s.present (tableTransaction nbits w)

end Sys2Proof.Machine
end

