-- ==== Sys2Proof/Machine/Pseudo.lean ====
section
/-! DEFINITION. The pseudo-instructions of spec/30_encoding.md R114, each an abbreviation of real commands. None has an
encoding or a meaning of its own. -/
namespace Sys2Proof.Machine

/-- REKEYSIG. -/
def rekeySig : Instr := .rekey .input

/-- REKEYSIGX `k1, k2`. -/
def rekeySigX (k1 k2 : Config.Key) : Instr := .rekeyx .input k1 k2

/-- RDSEQ `bank`. -/
def rdSeq (sel : BankSel) : Instr := .rdreg (.ofBank sel .seq)

/-- The first command of PACKX and of PACK's expansion (spec/42_pack.md R210, R211): the trigger on the whole frame. -/
def expansionTrigger (now : BitVec 64) (cmd body : List Byte) : Instr :=
  .shouldrekey .output now (BitVec.ofNat 64 (frameLength cmd body))

/-- The commands after the trigger: ENCSIZE, ENCRYPT, FINAL, SEQUENCE (R210, R211). -/
def expansionFrame (cmd body : List Byte) : List Instr :=
  [.encsize .output ⟨le32 (BitVec.ofNat 32 (payloadSize cmd body)), length_leBytes ..⟩,
    .encrypt .output (innerMessage cmd body), .final .output, .sequence .output]

/-- PACKX after its trigger answered `due`: the supplied keys in place of PACK's own re-key (R114, R210). -/
def packXRest (due : Bool) (k1 k2 : Config.Key) (cmd body : List Byte) : List Instr :=
  (if due then [.rekeyx .output k1 k2] else []) ++ expansionFrame cmd body

/-- PACK's own expansion after its trigger answered `due` (R211). -/
def packRest (due : Bool) (cmd body : List Byte) : List Instr :=
  (if due then [.rekey .output] else []) ++ expansionFrame cmd body

end Sys2Proof.Machine
end

