-- ==== Sys2Proof/Safety.lean ====
section
/-! DEFINITION. The terms claims are stated in: when the block accepts work, when a bank or the parser is between frames,
what a received frame says, which commands act on which bank, several commands in order, and the invariant every step
keeps. -/
namespace Sys2Proof.Machine

/-- The guard lets every command through: no fault is recorded and a session exists (spec/40_stream_ops.md R130). -/
def State.Accepting (s : State) : Prop := s.fault = 0 ∧ s.live = true

/-- Frame-clean (spec/42_pack.md R209): nothing of a frame is under way in the bank's ciphers. -/
def Bank.FrameClean (b : Bank) : Prop :=
  b.sizePos = 0 ∧ b.aeadPos = 0 ∧ b.macData = [] ∧ b.macFinal = false

/-- `in` as FEED leaves it between two FEEDs (spec/43_feed.md R226, R230, R244): in phase A the bank is frame-clean; in
phase B only the size has been deciphered. -/
def State.ParserSynced (s : State) : Prop :=
  (s.hasSize = false ∧ s.waiting = 4 ∧ s.inBank.FrameClean) ∨
  (s.hasSize = true ∧ 22 ≤ s.waiting.toNat ∧ s.waiting.toNat ≤ 12000016 ∧
    s.inBank.sizePos = 4 ∧ s.inBank.aeadPos = 0 ∧ s.inBank.macData = [] ∧ s.inBank.macFinal = false)

/-- A value `fault` may hold: 0 or a code of spec/60_exceptions.md R346. -/
def LegalFault (f : BitVec 8) : Prop := f = 0 ∨ (0x10 ≤ f.toNat ∧ f.toNat ≤ 0x19)

/-- The values of R40 (spec/10_state.md), field by field. -/
structure Bank.AtReset (b : Bank) : Prop where
  keyed : b.keyed = false
  k1 : b.k1.val = List.replicate 32 0
  k2 : b.k2.val = List.replicate 32 0
  sid : b.sid.val = List.replicate 32 0
  seq : b.seq = 0
  iv : b.iv.val = List.replicate 8 0
  sizePos : b.sizePos = 0
  aeadPos : b.aeadPos = 0
  macData : b.macData = []
  macFinal : b.macFinal = false
  tag : b.tag.val = List.replicate 16 0
  tagValid : b.tagValid = false
  processed : b.processed = 0
  lastRekeyTime : b.lastRekeyTime = 0

/-- The values of R41, field by field. -/
structure State.ParserAtReset (s : State) : Prop where
  pending : s.pending = []
  total : s.total = 0
  waiting : s.waiting = 4
  hasSize : s.hasSize = false
  halted : s.halted = false

/-- An unfaulted block after a fault that wrote nothing before the raise (spec/60_exceptions.md R345), the response byte by
byte: the code, `rlen = 0`, `nev = 0` (spec/30_encoding.md R100). -/
def State.faultedWith (s : State) (code : BitVec 8) : State :=
  { s with fault := code, rsp := s.rsp ++ [[code, 0, 0, 0, 0, 0, 0, 0, 0]] }

/-- `n` more bytes do not pass a finite `RXQ_CAPACITY` (spec/20_memory.md R66). -/
def State.RoomFor (s : State) (n : Nat) : Prop := ∀ cap, Config.rxqCapacity = some cap → s.total + n ≤ cap

/-- The size a bank deciphers from 4 bytes at the start of a frame (spec/43_feed.md R226). -/
def Bank.decipheredSize (b : Bank) (bytes : List Byte) : Nat := rdle (xorBytes bytes (crypto.ksSize b.k1 b.iv 0 4).val)

/-- The payload a bank deciphers at the start of a frame (R232). -/
def Bank.decipheredPayload (b : Bank) (ct : List Byte) : List Byte :=
  xorBytes ct (crypto.ksPay b.k2 b.iv 0 ct.length).val

/-- A bank after a frame with payload ciphertext `ct`: the computed tag, the next sequence number, frame-clean
(R241 here, spec/42_pack.md R209). -/
def Bank.afterFrame (ct : List Byte) (b : Bank) : Bank :=
  { b with
    seq := b.seq + 1, sizePos := 0, aeadPos := 0, macData := [], macFinal := false
    tag := crypto.tag b.k2 b.iv ct, tagValid := true }

/-- Commands one after another (spec/20_memory.md R76). -/
def execAll : List Instr → State → Host.Outcome State Fault Refusal
  | [], s => .next s
  | i :: is, s =>
    match exec i s with
    | .next t => execAll is t
    | .fault r => .fault r
    | .refused r => .refused r

/-- What holds of a bank in every run. -/
structure Bank.Inv (b : Bank) : Prop where
  /-- A bank without keys is as reset left it (spec/10_state.md R22, R40). -/
  unkeyed : b.keyed = false → b = Bank.reset
  /-- The size position stays within `KS_LIMIT` (spec/45 R316). -/
  sizePos_le : b.sizePos.toNat ≤ Config.ksLimit
  /-- The payload position stays within `KS_LIMIT` (R316). -/
  aeadPos_le : b.aeadPos.toNat ≤ Config.ksLimit
  /-- A finished MAC has left its tag (spec/40 R142). -/
  final_tag : b.macFinal = true → b.tagValid = true
  /-- The byte count is reset whenever it reaches `HWM` (spec/10_state.md R29). -/
  processed_lt : b.processed.toNat < Config.hwm

/-- What holds of the block in every run. -/
structure State.Inv (s : State) : Prop where
  inBank : s.inBank.Inv
  outBank : s.outBank.Inv
  /-- R346. -/
  fault : LegalFault s.fault
  /-- Without a session every field is at its reset value (R40, R41, R133, R134). -/
  notLive : s.live = false →
    s.inBank = Bank.reset ∧ s.outBank = Bank.reset ∧ s.pending = [] ∧ s.halted = false ∧ s.hasSize = false
  /-- `waiting` is 4 in phase A (R36). -/
  phaseA : s.hasSize = false → s.waiting = 4
  /-- `waiting` is `size + 16` with a size within bounds in phase B (R36, R227). -/
  phaseB : s.hasSize = true → 22 ≤ s.waiting.toNat ∧ s.waiting.toNat ≤ 12000016
  /-- A halted parser is in phase A (R227, R230). -/
  halted : s.halted = true → s.hasSize = false
  /-- Between commands an unfaulted parser has halted or waits for bytes (R223). -/
  drained : s.fault = 0 → s.halted = false → s.pending.length < s.waiting.toNat

end Sys2Proof.Machine

namespace Sys2Proof

/-- The micro-operations of spec/40_stream_ops.md and 41_rekey.md on bank `sel`: they touch that bank only (R20). -/
def Instr.microOn (sel : BankSel) : Instr → Bool
  | .init x _ _ _ _ | .rekey x | .rekeyx x _ _ | .shouldrekey x _ _ | .sequence x | .encsize x _ | .decsize x _
  | .encrypt x _ | .decrypt x _ | .auth x _ | .final x | .verify x _ => x == sel
  | .new _ | .destroy | .pack _ _ _ | .feed _ | .rdreg _ => false

/-- FEED. -/
def Instr.isFeed : Instr → Bool
  | .feed _ => true
  | .new _ | .destroy | .init _ _ _ _ _ | .rekey _ | .rekeyx _ _ _ | .shouldrekey _ _ _ | .sequence _ | .encsize _ _
  | .decsize _ _ | .encrypt _ _ | .decrypt _ _ | .auth _ _ | .final _ | .verify _ _ | .pack _ _ _ | .rdreg _ => false

/-- PACK. -/
def Instr.isPack : Instr → Bool
  | .pack _ _ _ => true
  | .new _ | .destroy | .init _ _ _ _ _ | .rekey _ | .rekeyx _ _ _ | .shouldrekey _ _ _ | .sequence _ | .encsize _ _
  | .decsize _ _ | .encrypt _ _ | .decrypt _ _ | .auth _ _ | .final _ | .verify _ _ | .feed _ | .rdreg _ => false

/-- The commands that touch only `in` and the parser (spec/20_memory.md R77). -/
def Instr.inSide (i : Instr) : Bool := i.microOn .input || i.isFeed

/-- The commands that touch only `out` (R77). -/
def Instr.outSide (i : Instr) : Bool := i.microOn .output || i.isPack

/-- NEW, DESTROY and RDREG: the commands `Guard()` does not apply to (R130). -/
def Instr.unguarded : Instr → Bool
  | .new _ | .destroy | .rdreg _ => true
  | .init _ _ _ _ _ | .rekey _ | .rekeyx _ _ _ | .shouldrekey _ _ _ | .sequence _ | .encsize _ _ | .decsize _ _
  | .encrypt _ _ | .decrypt _ _ | .auth _ _ | .final _ | .verify _ _ | .pack _ _ _ | .feed _ => false

/-- The bank whose `keyed` a command checks (R131, R346): INIT and VERIFY check something else. -/
def Instr.needsKeyed : Instr → Option BankSel
  | .rekey x | .rekeyx x _ _ | .shouldrekey x _ _ | .sequence x | .encsize x _ | .decsize x _ | .encrypt x _
  | .decrypt x _ | .auth x _ | .final x => some x
  | .pack _ _ _ => some .output
  | .feed _ => some .input
  | .new _ | .destroy | .init _ _ _ _ _ | .verify _ _ | .rdreg _ => none

end Sys2Proof
end

