-- ==== Sys2Proof/Certificates/Slice0/Obligations.lean ====
section
/-! DEFINITION. The statements for the provers. A next state written as an equality of whole states is also the frame:
every field the equality does not name, either bank's included, is unchanged. There is no memory and no program counter
(spec/10_state.md R45, R47). -/
section

open Sys2Proof Sys2Proof.Machine

/-! ### Reset, creation, destruction -/

/-- R40, R41: hardware reset, NEW (valid cipher number or not) and DESTROY leave every field of both banks and the parser at
the values listed; `live` and `fault` as R41 says. -/
def Obligations.BanksAndParserTakeResetValues : Prop :=
  (State.reset.inBank.AtReset ∧ State.reset.outBank.AtReset ∧ State.reset.ParserAtReset ∧ State.reset.live = false ∧
    State.reset.fault = 0) ∧
  (∀ (s : State) (cid : BitVec 8), ∃ t, exec (.new cid) s = .next t ∧ t.inBank.AtReset ∧ t.outBank.AtReset ∧
    t.ParserAtReset ∧ (cid = 0 → t.live = true ∧ t.fault = 0)) ∧
  (∀ s : State, ∃ t, exec .destroy s = .next t ∧ t.inBank.AtReset ∧ t.outBank.AtReset ∧ t.ParserAtReset ∧
    t.live = false ∧ t.fault = s.fault)

/-- R133: NEW in every state, with cipher number 0 and with any other. -/
def Obligations.NewStartsOrRefusesSession : Prop :=
  ∀ s : State,
    exec (.new 0) s = .next
      { inBank := Bank.reset, outBank := Bank.reset, live := true, fault := 0, pending := [], waiting := 4,
        hasSize := false, halted := false, cmd := s.cmd, rsp := s.rsp ++ [[0x00, 0, 0, 0, 0, 0, 0, 0, 0]] } ∧
    ∀ cid : BitVec 8, cid ≠ 0 →
      exec (.new cid) s = .next
        { inBank := Bank.reset, outBank := Bank.reset, live := false, fault := 0x12, pending := [], waiting := 4,
          hasSize := false, halted := false, cmd := s.cmd, rsp := s.rsp ++ [[0x12, 0, 0, 0, 0, 0, 0, 0, 0]] }

/-- R134: DESTROY in every state; `fault` stays. -/
def Obligations.DestroyClearsAllButFault : Prop :=
  ∀ s : State,
    exec .destroy s = .next
      { inBank := Bank.reset, outBank := Bank.reset, live := false, fault := s.fault, pending := [], waiting := 4,
        hasSize := false, halted := false, cmd := s.cmd, rsp := s.rsp ++ [[0x00, 0, 0, 0, 0, 0, 0, 0, 0]] }

/-! ### The invariant -/

/-- The state after reset meets the invariant the next statement keeps. -/
def Obligations.ResetMeetsInvariant : Prop := State.reset.Inv

/-- Every step keeps the invariant: un-keyed banks hold the reset values (R22, R40), the keystream positions stay within
`KS_LIMIT` (R316; its value is log 7's), a finished MAC has left a tag (R142), `processed` stays below `HWM` (R29), `fault`
is a code of R346, a block without a session is at reset (R41), the parser's phase and `waiting` agree (R36), an unfaulted
parser between commands has halted or waits for bytes (R223). -/
def Obligations.StepKeepsInvariant : Prop := ∀ s t : State, s.Inv → step s = .next t → t.Inv

/-! ### Encoding -/

/-- Every command that has an encoding is what the decoder reads from that encoding (R90 to R94). -/
def Obligations.DecodeOfEncodeIsSame : Prop := ∀ i : Instr, i.wellFormed = true → decode (encode i) = .ok i

/-- A transaction the decoder accepts is the encoding of what it reads: no two transactions mean one command, and none of
another length or with a stray bit is accepted (R90, R97). -/
def Obligations.EncodeOfDecodeIsSame : Prop :=
  ∀ (tx : List Byte) (i : Instr), decode tx = .ok i → i.wellFormed = true ∧ encode i = tx

/-- Words written out from the table of R92 and the examples of R133, R134, R136, R142 and R144. -/
def Obligations.TableWordsDecode : Prop :=
  decode [0x01, 0x00, 0x00, 0x00] = .ok (.new 0) ∧
  decode [0x01, 0x00, 0x01, 0x00] = .ok (.new 1) ∧
  decode [0x02, 0x00, 0x00, 0x00] = .ok .destroy ∧
  decode [0x04, 0x01, 0x00, 0x00] = .ok (.rekey .output) ∧
  decode [0x07, 0x01, 0x00, 0x00] = .ok (.sequence .output) ∧
  decode [0x0D, 0x00, 0x00, 0x00] = .ok (.final .input) ∧
  decode [0x12, 0x00, 0x00, 0x00] = .ok (.rdreg (.ofBank .input .seq)) ∧
  decode [0x12, 0x01, 0x07, 0x00] = .ok (.rdreg (.ofBank .output .sid)) ∧
  decode [0x12, 0x00, 0x11, 0x00] = .ok (.rdreg (.ofBlock .fault)) ∧
  decode [0x0A, 0x01, 0x00, 0x00, 0x02, 0x00, 0x00, 0x00, 0xAA, 0xBB] = .ok (.encrypt .output [0xAA, 0xBB])

/-- R96: no transaction with a reserved operation code is a command. -/
def Obligations.ReservedOpcodesAreIllegal : Prop :=
  ∀ (opc : Byte) (rest : List Byte), (opc = 0x00 ∨ opc = 0x0F ∨ 0x13 ≤ opc.toNat) → ∃ e, decode (opc :: rest) = .error e

/-- R97: no transaction whose word has a non-zero reserved bit, names a bank where none is named, or has an argument where
none is used, is a command. The word is given by its fields of R90. -/
def Obligations.MisusedWordFieldsAreIllegal : Prop :=
  ∀ (w : BitVec 32) (rest : List Byte),
    (w.extractLsb' 9 7 ≠ 0 ∨ w.extractLsb' 24 8 ≠ 0 ∨
      (w.getLsbD 8 = true ∧ (w.extractLsb' 0 8 = 0x01#8 ∨ w.extractLsb' 0 8 = 0x02#8 ∨ w.extractLsb' 0 8 = 0x10#8 ∨
        w.extractLsb' 0 8 = 0x11#8)) ∨
      (w.extractLsb' 16 8 ≠ 0 ∧ w.extractLsb' 0 8 ≠ 0x01#8 ∧ w.extractLsb' 0 8 ≠ 0x12#8)) →
    ∃ e, decode (le32 w ++ rest) = .error e

/-! ### The step -/

/-- R75, R90: the block takes the transaction at the head of `CMD`; one that decodes is executed, with that transaction
removed. The second clause, that a step with none there keeps the state, is the model's reading (DEDUCED, log 3) of R367,
"Between commands the block is idle and holds its state", and of R382, "After hardware reset the block does nothing until a
command arrives": the spec speaks of no step without a command. -/
def Obligations.StepRunsDecodedCommand : Prop :=
  (∀ (s : State) (tx : List Byte) (rest : List (List Byte)) (i : Instr), s.cmd = tx :: rest → decode tx = .ok i →
    step s = exec i { s with cmd := rest }) ∧
  (∀ s : State, s.cmd = [] → step s = .next s)

/-- R98, R130: a transaction that is no command raises `F_ILLEGAL_CMD` (0x11) and changes nothing else; a faulted block
refuses it instead, unless its first byte is the code of NEW, DESTROY or RDREG, where the first fault code is kept. That the
first byte alone names the operation of such a transaction is the model's reading (log 9). That RDREG with `s = 0` of a
number above 1F is such a transaction is the model's choice (log 17). -/
def Obligations.IllegalCommandIsAnswered : Prop :=
  ∀ (s : State) (tx : List Byte) (rest : List (List Byte)) (e : Reject), s.cmd = tx :: rest → decode tx = .error e →
    (s.fault = 0 → step s = .next (State.faultedWith { s with cmd := rest } 0x11)) ∧
    (s.fault ≠ 0 → (∀ b tail, tx = b :: tail → b ≠ 0x01 ∧ b ≠ 0x02 ∧ b ≠ 0x12) →
      step s = .next { s with cmd := rest, rsp := s.rsp ++ [[0x02, 0, 0, 0, 0, 0, 0, 0, 0]] }) ∧
    (s.fault ≠ 0 → (∃ b tail, tx = b :: tail ∧ (b = 0x01 ∨ b = 0x02 ∨ b = 0x12)) →
      step s = .next { s with cmd := rest, rsp := s.rsp ++ [[0x11, 0, 0, 0, 0, 0, 0, 0, 0]] })

/-- R61, R75, R100: each command presented is taken whole and answered with exactly one response, whatever it is; a response
whose status is not `ST_OK` carries no result, and the status is a code of R346. -/
def Obligations.EachCommandIsAnsweredOnce : Prop :=
  ∀ (s : State) (tx : List Byte) (rest : List (List Byte)), s.cmd = tx :: rest →
    ∃ (t : State) (r : Response), step s = .next t ∧ t.cmd = rest ∧ t.rsp = s.rsp ++ [r.encode] ∧
      (r.status ≠ 0x00 → r.result = []) ∧
      (r.status = 0x00 ∨ r.status = 0x02 ∨ (0x10 ≤ r.status.toNat ∧ r.status.toNat ≤ 0x19))

/-! ### The guard, and faults -/

/-- R347: every command but NEW, DESTROY and RDREG, whatever its operands. -/
def Obligations.FaultedBlockRefuses : Prop :=
  ∀ (i : Instr) (s : State), i.unguarded = false → s.fault ≠ 0 →
    exec i s = .next { s with rsp := s.rsp ++ [[0x02, 0, 0, 0, 0, 0, 0, 0, 0]] }

/-- R33: without a session every command but NEW, DESTROY and RDREG raises `F_NOT_LIVE` (0x10). -/
def Obligations.WithoutSessionFaults : Prop :=
  ∀ (i : Instr) (s : State), i.unguarded = false → s.fault = 0 → s.live = false →
    exec i s = .next (s.faultedWith 0x10)

/-- R131, R346: a command that uses a key of an un-keyed bank raises `F_NOT_KEYED` (0x13). -/
def Obligations.UnkeyedBankFaults : Prop :=
  ∀ (i : Instr) (sel : BankSel) (s : State), i.needsKeyed = some sel → s.Accepting → (s.bank sel).keyed = false →
    exec i s = .next (s.faultedWith 0x13)

/-- R34: `fault` keeps its first code until a NEW. -/
def Obligations.FirstFaultStaysUntilNew : Prop :=
  ∀ (s t : State), step s = .next t → s.fault ≠ 0 →
    (∀ tx rest cid, s.cmd = tx :: rest → decode tx ≠ .ok (.new cid)) → t.fault = s.fault

/-- R135, R143: a second INIT raises `F_ALREADY_KEYED` (0x14); VERIFY before any FINAL raises `F_NO_TAG` (0x16). -/
def Obligations.SecondInitAndUntaggedVerifyFault : Prop :=
  (∀ (s : State) (sel : BankSel) (now : BitVec 64) (k1 k2 sid : Bytes 32), s.Accepting → (s.bank sel).keyed = true →
    exec (.init sel now k1 k2 sid) s = .next (s.faultedWith 0x14)) ∧
  (∀ (s : State) (sel : BankSel) (tag : Bytes 16), s.Accepting → (s.bank sel).tagValid = false →
    exec (.verify sel tag) s = .next (s.faultedWith 0x16))

/-- R139, R141, R142, R353: with the MAC finished, ENCRYPT, AUTH and FINAL raise `F_MAC_FINAL` (0x15), ENCRYPT before it
looks at the keystream limit. -/
def Obligations.FinishedMacFaults : Prop :=
  ∀ (s : State) (sel : BankSel) (data : List Byte), s.Accepting → (s.bank sel).keyed = true →
    (s.bank sel).macFinal = true →
    exec (.encrypt sel data) s = .next (s.faultedWith 0x15) ∧
    exec (.auth sel data) s = .next (s.faultedWith 0x15) ∧
    exec (.final sel) s = .next (s.faultedWith 0x15)

/-- R137 to R140, R316: keystream past position 2^38 − 64 is refused with `F_KS_LIMIT` (0x18). That the limit is this one
is the spec's own decision (R8; log 7). -/
def Obligations.KeystreamLimitFaults : Prop :=
  ∀ (s : State) (sel : BankSel), s.Accepting → (s.bank sel).keyed = true →
    (2 ^ 38 - 64 < (s.bank sel).sizePos.toNat + 4 → ∀ buf : Bytes 4,
      exec (.encsize sel buf) s = .next (s.faultedWith 0x18) ∧
      exec (.decsize sel buf) s = .next (s.faultedWith 0x18)) ∧
    (∀ data : List Byte, 2 ^ 38 - 64 < (s.bank sel).aeadPos.toNat + data.length →
      exec (.decrypt sel data) s = .next (s.faultedWith 0x18) ∧
      ((s.bank sel).macFinal = false → exec (.encrypt sel data) s = .next (s.faultedWith 0x18)))

/-- R181, R202: a count that leaves 64 bits, and a payload size that leaves 32, raise `F_RANGE` (0x17) with nothing
written. -/
def Obligations.RangeFaults : Prop :=
  (∀ (s : State) (sel : BankSel) (now n : BitVec 64), s.Accepting → (s.bank sel).keyed = true →
    2 ^ 64 ≤ (s.bank sel).processed.toNat + n.toNat →
    exec (.shouldrekey sel now n) s = .next (s.faultedWith 0x17)) ∧
  (∀ (s : State) (now : BitVec 64) (cmd body : List Byte), s.Accepting → s.outBank.keyed = true →
    2 ^ 32 ≤ (varstring cmd).length + 4 + body.length →
    exec (.pack now cmd body) s = .next (s.faultedWith 0x17))

/-- R354, R345: a fault in a micro-operation changes `fault` and nothing else. -/
def Obligations.MicroOperationFaultsArePrecise : Prop :=
  ∀ (i : Instr) (sel : BankSel) (s t : State), i.microOn sel = true → s.fault = 0 → exec i s = .next t → t.fault ≠ 0 →
    t = s.faultedWith t.fault

/-! ### Micro-operations: what each does where it runs -/

/-- R135: INIT of an un-keyed bank. -/
def Obligations.InitLoadsUnkeyedBank : Prop :=
  ∀ (s : State) (sel : BankSel) (now : BitVec 64) (k1 k2 sid : Bytes 32), s.Accepting → (s.bank sel).keyed = false →
    exec (.init sel now k1 k2 sid) s = .next ((s.setBank sel
      { s.bank sel with
        keyed := true, k1 := k1, k2 := k2, sid := sid, seq := 0, sizePos := 0, aeadPos := 0, macData := []
        macFinal := false, lastRekeyTime := now }).respond (okResponse []))

/-- R136, R24: the next sequence number, modulo 2^32, both ciphers restarted; the IV is the number and four zero bytes. -/
def Obligations.SequenceAdvancesBank : Prop :=
  ∀ (s : State) (sel : BankSel), s.Accepting → (s.bank sel).keyed = true →
    ∃ b : Bank, exec (.sequence sel) s = .next ((s.setBank sel b).respond (okResponse [])) ∧
      b = { s.bank sel with seq := b.seq, sizePos := 0, aeadPos := 0, macData := [], macFinal := false } ∧
      b.seq.toNat = ((s.bank sel).seq.toNat + 1) % 2 ^ 32 ∧
      b.iv.val = leBytes 4 (((s.bank sel).seq.toNat + 1) % 2 ^ 32) ++ [0, 0, 0, 0]

/-- R137, R138: ENCSIZE and DECSIZE both answer the four bytes XORed with the next four of the size keystream. -/
def Obligations.SizeCipherXorsNextFourBytes : Prop :=
  ∀ (s : State) (sel : BankSel) (buf : Bytes 4), s.Accepting → (s.bank sel).keyed = true →
    (s.bank sel).sizePos.toNat + 4 ≤ 2 ^ 38 - 64 →
    exec (.encsize sel buf) s = .next ((s.setBank sel
      { s.bank sel with sizePos := (s.bank sel).sizePos + 4 }).respond (okResponse
        (xorBytes buf.val (crypto.ksSize (s.bank sel).k1 (s.bank sel).iv (s.bank sel).sizePos.toNat 4).val))) ∧
    exec (.decsize sel buf) s = .next ((s.setBank sel
      { s.bank sel with sizePos := (s.bank sel).sizePos + 4 }).respond (okResponse
        (xorBytes buf.val (crypto.ksSize (s.bank sel).k1 (s.bank sel).iv (s.bank sel).sizePos.toNat 4).val)))

/-- R139: ENCRYPT answers the ciphertext and the MAC absorbs it. -/
def Obligations.EncryptEnciphersAndAbsorbs : Prop :=
  ∀ (s : State) (sel : BankSel) (data : List Byte), s.Accepting → (s.bank sel).keyed = true →
    (s.bank sel).macFinal = false → (s.bank sel).aeadPos.toNat + data.length ≤ 2 ^ 38 - 64 →
    ∃ ct : List Byte, exec (.encrypt sel data) s = .next ((s.setBank sel
        { s.bank sel with
          aeadPos := BitVec.ofNat 64 ((s.bank sel).aeadPos.toNat + data.length)
          macData := (s.bank sel).macData ++ ct }).respond (okResponse ct)) ∧
      ct = xorBytes data (crypto.ksPay (s.bank sel).k2 (s.bank sel).iv (s.bank sel).aeadPos.toNat data.length).val

/-- R140: DECRYPT answers the deciphered bytes; the MAC absorbs the ciphertext unless it is finished. -/
def Obligations.DecryptDeciphersAndAbsorbs : Prop :=
  ∀ (s : State) (sel : BankSel) (data : List Byte), s.Accepting → (s.bank sel).keyed = true →
    (s.bank sel).aeadPos.toNat + data.length ≤ 2 ^ 38 - 64 →
    exec (.decrypt sel data) s = .next ((s.setBank sel
      { s.bank sel with
        aeadPos := BitVec.ofNat 64 ((s.bank sel).aeadPos.toNat + data.length)
        macData := (s.bank sel).macData ++ (if (s.bank sel).macFinal = true then [] else data) }).respond (okResponse
          (xorBytes data
            (crypto.ksPay (s.bank sel).k2 (s.bank sel).iv (s.bank sel).aeadPos.toNat data.length).val)))

/-- R141: AUTH feeds the MAC and moves no cipher position. -/
def Obligations.AuthAbsorbsData : Prop :=
  ∀ (s : State) (sel : BankSel) (data : List Byte), s.Accepting → (s.bank sel).keyed = true →
    (s.bank sel).macFinal = false →
    exec (.auth sel data) s = .next ((s.setBank sel
      { s.bank sel with macData := (s.bank sel).macData ++ data }).respond (okResponse []))

/-- R142, R310: FINAL stores and answers the tag of what the MAC has absorbed, under the key that the bank's `K2` and IV
give. -/
def Obligations.FinalStoresTag : Prop :=
  ∀ (s : State) (sel : BankSel), s.Accepting → (s.bank sel).keyed = true → (s.bank sel).macFinal = false →
    ∃ tag : Bytes 16, exec (.final sel) s = .next ((s.setBank sel
        { s.bank sel with tag := tag, tagValid := true, macFinal := true }).respond (okResponse tag.val)) ∧
      tag = crypto.poly1305 (crypto.polyKey (s.bank sel).k2 (s.bank sel).iv) (crypto.macInput (s.bank sel).macData)

/-- R143: VERIFY answers 1 where the tags are equal and 0 where they are not, and changes nothing. -/
def Obligations.VerifyComparesTag : Prop :=
  ∀ (s : State) (sel : BankSel) (tag : Bytes 16), s.Accepting → (s.bank sel).tagValid = true →
    ((s.bank sel).tag = tag → exec (.verify sel tag) s = .next (s.respond (okResponse [0x01]))) ∧
    ((s.bank sel).tag ≠ tag → exec (.verify sel tag) s = .next (s.respond (okResponse [0x00])))

/-- R181: SHOULDREKEY counts first, then fires when 10 seconds have passed or 2^30 bytes are counted, restarting both
measures. -/
def Obligations.ShouldrekeyCountsAndAnswers : Prop :=
  ∀ (s : State) (sel : BankSel) (now n : BitVec 64), s.Accepting → (s.bank sel).keyed = true →
    (s.bank sel).processed.toNat + n.toNat < 2 ^ 64 →
    ((s.bank sel).lastRekeyTime.toNat + 10 ≤ now.toNat ∨
        1073741824 ≤ (s.bank sel).processed.toNat + n.toNat →
      exec (.shouldrekey sel now n) s = .next ((s.setBank sel
        { s.bank sel with processed := 0, lastRekeyTime := now }).respond (okResponse [0x01]))) ∧
    (now.toNat < (s.bank sel).lastRekeyTime.toNat + 10 ∧
        (s.bank sel).processed.toNat + n.toNat < 1073741824 →
      exec (.shouldrekey sel now n) s = .next ((s.setBank sel
        { s.bank sel with
          processed := BitVec.ofNat 64 ((s.bank sel).processed.toNat + n.toNat) }).respond (okResponse [0x00])))

/-- R183, R314: each key is replaced by the double hash of `SID` and itself; `SID`, `seq`, the tag and the trigger's
measures stay. -/
def Obligations.RekeyHashesBothKeys : Prop :=
  ∀ (s : State) (sel : BankSel), s.Accepting → (s.bank sel).keyed = true →
    exec (.rekey sel) s = .next ((s.setBank sel
      { s.bank sel with
        k1 := crypto.sha256 (crypto.sha256 ((s.bank sel).sid.val ++ (s.bank sel).k1.val)).val
        k2 := crypto.sha256 (crypto.sha256 ((s.bank sel).sid.val ++ (s.bank sel).k2.val)).val
        sizePos := 0, aeadPos := 0, macData := [], macFinal := false }).respond (okResponse []))

/-- R184: the supplied keys are installed; all else as in REKEY. -/
def Obligations.RekeyxInstallsKeys : Prop :=
  ∀ (s : State) (sel : BankSel) (k1 k2 : Bytes 32), s.Accepting → (s.bank sel).keyed = true →
    exec (.rekeyx sel k1 k2) s = .next ((s.setBank sel
      { s.bank sel with
        k1 := k1, k2 := k2, sizePos := 0, aeadPos := 0, macData := [], macFinal := false }).respond (okResponse []))

/-- R144, R42: RDREG in every state answers the register, least significant byte first, and changes nothing.
What MAC_LEN and TOTAL answer for a length of 2^64 or more the spec does not state: a free value (log 8). -/
def Obligations.RdregAnswersRegister : Prop :=
  ∀ s : State,
    (∀ (sel : BankSel) (r : BankReg) (value : List Byte),
      value = (match r with
        | .seq => leBytes 4 (s.bank sel).seq.toNat
        | .iv => leBytes 4 (s.bank sel).seq.toNat ++ [0, 0, 0, 0]
        | .sflags => [BitVec.ofNat 8 ((if (s.bank sel).keyed then 1 else 0) + (if (s.bank sel).macFinal then 2 else 0)
            + (if (s.bank sel).tagValid then 4 else 0))]
        | .cipherId => [0]
        | .processed => leBytes 8 (s.bank sel).processed.toNat
        | .lastRekey => leBytes 8 (s.bank sel).lastRekeyTime.toNat
        | .tag => (s.bank sel).tag.val
        | .sid => (s.bank sel).sid.val
        | .sizePos => leBytes 8 (s.bank sel).sizePos.toNat
        | .aeadPos => leBytes 8 (s.bank sel).aeadPos.toNat
        | .macLen => leBytes 8 (lengthField64 (s.bank sel).macData.length).toNat) →
      exec (.rdreg (.ofBank sel r)) s = .next (s.respond (okResponse value))) ∧
    (∀ (r : BlockReg) (value : List Byte),
      value = (match r with
        | .bflags => [BitVec.ofNat 8 ((if s.live then 1 else 0) + (if s.hasSize then 2 else 0)
            + (if s.halted then 4 else 0))]
        | .fault => [s.fault]
        | .waiting => leBytes 4 s.waiting.toNat
        | .total => leBytes 8 (lengthField64 s.pending.length).toNat) →
      exec (.rdreg (.ofBlock r)) s = .next (s.respond (okResponse value)))

/-! ### What a command may not touch -/

/-- R145: two blocks that differ only in `K1` and `K2` answer alike to every read, and to every command whose result is not
made with a key. -/
def Obligations.KeysDoNotShowInReads : Prop :=
  ∀ (s : State) (sel : BankSel) (k1 k2 : Bytes 32) (i : Instr),
    (match i with
      | .rdreg _ | .verify _ _ | .shouldrekey _ _ _ | .sequence _ | .rekey _ | .rekeyx _ _ _ | .auth _ _ | .new _
      | .destroy | .init _ _ _ _ _ => True
      | .encsize _ _ | .decsize _ _ | .encrypt _ _ | .decrypt _ _ | .final _ | .pack _ _ _ | .feed _ => False) →
    ∃ t u, exec i s = .next t ∧ exec i (s.setBank sel { s.bank sel with k1 := k1, k2 := k2 }) = .next u ∧
      t.rsp = u.rsp

/-- R20: a micro-operation touches the bank it names and no other, nor the parser, nor `live`. -/
def Obligations.MicroOperationsStayInTheirBank : Prop :=
  ∀ (i : Instr) (sel : BankSel) (s t : State), i.microOn sel = true → exec i s = .next t →
    (∀ other, other ≠ sel → t.bank other = s.bank other) ∧ t.live = s.live ∧ t.pending = s.pending ∧
      t.waiting = s.waiting ∧ t.hasSize = s.hasSize ∧ t.halted = s.halted ∧ t.cmd = s.cmd

/-- R20, R69, R209: PACK touches neither `in` nor the parser; FEED does not touch `out`. -/
def Obligations.FramingStaysInItsDirection : Prop :=
  (∀ (now : BitVec 64) (cmd body : List Byte) (s t : State), exec (.pack now cmd body) s = .next t →
    t.inBank = s.inBank ∧ t.live = s.live ∧ t.pending = s.pending ∧ t.waiting = s.waiting ∧ t.hasSize = s.hasSize ∧
      t.halted = s.halted ∧ t.cmd = s.cmd) ∧
  (∀ (data : List Byte) (s t : State), exec (.feed data) s = .next t →
    t.outBank = s.outBank ∧ t.live = s.live ∧ t.cmd = s.cmd)

/-- R21: `SID` is loaded only by INIT (NEW and DESTROY clear it); `K1` and `K2` change besides only by REKEY and REKEYX, the
one inside PACK included. -/
def Obligations.SecretsChangeOnlyByNamedCommands : Prop :=
  ∀ (i : Instr) (sel : BankSel) (s t : State), exec i s = .next t → (∀ cid, i ≠ .new cid) → i ≠ .destroy →
    (∀ now k1 k2 sid, i ≠ .init sel now k1 k2 sid) →
    (t.bank sel).sid = (s.bank sel).sid ∧ (t.bank sel).keyed = (s.bank sel).keyed ∧
    (i ≠ .rekey sel → (∀ k1 k2, i ≠ .rekeyx sel k1 k2) → (∀ now cmd body, sel = .output → i ≠ .pack now cmd body) →
      (t.bank sel).k1 = (s.bank sel).k1 ∧ (t.bank sel).k2 = (s.bank sel).k2)

/-- R23: `seq` is written only by INIT and SEQUENCE, the ones inside PACK and FEED included (NEW and DESTROY reset it). -/
def Obligations.SequenceNumberChangesOnlyByNamedCommands : Prop :=
  ∀ (i : Instr) (sel : BankSel) (s t : State), exec i s = .next t → (∀ cid, i ≠ .new cid) → i ≠ .destroy →
    (∀ now k1 k2 sid, i ≠ .init sel now k1 k2 sid) → i ≠ .sequence sel →
    (∀ now cmd body, sel = .output → i ≠ .pack now cmd body) → (∀ data, sel = .input → i ≠ .feed data) →
    (t.bank sel).seq = (s.bank sel).seq

/-- R38: only NEW, DESTROY end a halt, and only FEED begins one. -/
def Obligations.HaltLastsUntilNewOrDestroy : Prop :=
  ∀ (i : Instr) (s t : State), exec i s = .next t →
    (s.halted = true → (∀ cid, i ≠ .new cid) → i ≠ .destroy → t.halted = true) ∧
    (s.halted = false → i.isFeed = false → t.halted = false)

/-! ### Laws of the micro-operations -/

/-- R147: data given in two pieces or at once: the same results, one after the other, and the same state. -/
def Obligations.ChunkedDataHasSameEffect : Prop :=
  ∀ (s : State) (sel : BankSel) (a b : List Byte), s.Accepting → (s.bank sel).keyed = true →
    ((s.bank sel).aeadPos.toNat + (a.length + b.length) ≤ 2 ^ 38 - 64 →
      (∃ (t u : State) (x y : List Byte), execAll [.decrypt sel a, .decrypt sel b] s = .next t ∧
        exec (.decrypt sel (a ++ b)) s = .next u ∧ t = { u with rsp := t.rsp } ∧
        t.rsp = s.rsp ++ [(okResponse x).encode, (okResponse y).encode] ∧
        u.rsp = s.rsp ++ [(okResponse (x ++ y)).encode]) ∧
      ((s.bank sel).macFinal = false →
        ∃ (t u : State) (x y : List Byte), execAll [.encrypt sel a, .encrypt sel b] s = .next t ∧
          exec (.encrypt sel (a ++ b)) s = .next u ∧ t = { u with rsp := t.rsp } ∧
          t.rsp = s.rsp ++ [(okResponse x).encode, (okResponse y).encode] ∧
          u.rsp = s.rsp ++ [(okResponse (x ++ y)).encode])) ∧
    ((s.bank sel).macFinal = false →
      ∃ t u : State, execAll [.auth sel a, .auth sel b] s = .next t ∧ exec (.auth sel (a ++ b)) s = .next u ∧
        t = { u with rsp := t.rsp } ∧ t.rsp = s.rsp ++ [(okResponse []).encode, (okResponse []).encode] ∧
        u.rsp = s.rsp ++ [(okResponse []).encode])

/-- R146: a sender that enciphers `p`, and a receiver with the same `K2` and `seq`, both just initialised: whichever way the
receiver feeds its MAC the tags are the same, and DECRYPT before or after FINAL gives `p` back. -/
def Obligations.TagsAgreeAndDecryptInverts : Prop :=
  ∀ (s r : State) (x y : BankSel) (p : List Byte), s.Accepting → r.Accepting → (s.bank x).keyed = true →
    (r.bank y).keyed = true → (s.bank x).k2 = (r.bank y).k2 → (s.bank x).seq = (r.bank y).seq →
    (s.bank x).aeadPos = 0 → (s.bank x).macData = [] → (s.bank x).macFinal = false →
    (r.bank y).aeadPos = 0 → (r.bank y).macData = [] → (r.bank y).macFinal = false → p.length ≤ 2 ^ 38 - 64 →
    ∃ (c tag : List Byte) (t1 t2 t3 t4 : State), tag = (crypto.tag (s.bank x).k2 (s.bank x).iv c).val ∧
      execAll [.encrypt x p, .final x] s = .next t1 ∧
      t1.rsp = s.rsp ++ [(okResponse c).encode, (okResponse tag).encode] ∧
      execAll [.auth y c, .final y] r = .next t2 ∧
      t2.rsp = r.rsp ++ [(okResponse []).encode, (okResponse tag).encode] ∧
      execAll [.decrypt y c, .final y] r = .next t3 ∧
      t3.rsp = r.rsp ++ [(okResponse p).encode, (okResponse tag).encode] ∧
      execAll [.auth y c, .final y, .decrypt y c] r = .next t4 ∧
      t4.rsp = r.rsp ++ [(okResponse []).encode, (okResponse tag).encode, (okResponse p).encode]

/-- R185: banks with equal `SID`, `K1`, `K2` have equal `K1`, `K2` after REKEY on each. -/
def Obligations.RekeyKeepsEqualBanksEqual : Prop :=
  ∀ (s r : State) (x y : BankSel), s.Accepting → r.Accepting → (s.bank x).keyed = true → (r.bank y).keyed = true →
    (s.bank x).sid = (r.bank y).sid → (s.bank x).k1 = (r.bank y).k1 → (s.bank x).k2 = (r.bank y).k2 →
    ∃ t u, exec (.rekey x) s = .next t ∧ exec (.rekey y) r = .next u ∧ t.fault = 0 ∧ u.fault = 0 ∧
      (t.bank x).k1 = (u.bank y).k1 ∧ (t.bank x).k2 = (u.bank y).k2

/-- R77: a command that touches only `in` and the parser and one that touches only `out`, neither raising a fault, can be
swapped: the same final state, and each gets the same response. -/
def Obligations.CommandsOnTheTwoBanksCommute : Prop :=
  ∀ (i j : Instr) (s a b : State), i.inSide = true → j.outSide = true → exec i s = .next a → exec j s = .next b →
    a.fault = 0 → b.fault = 0 →
    ∃ (x y : State) (ri rj : List Byte), exec j a = .next x ∧ exec i b = .next y ∧ x = { y with rsp := x.rsp } ∧
      a.rsp = s.rsp ++ [ri] ∧ b.rsp = s.rsp ++ [rj] ∧ x.rsp = s.rsp ++ [ri, rj] ∧ y.rsp = s.rsp ++ [rj, ri]

/-! ### PACK -/

/-- R209: PACK's frame and final state in closed form, from a frame-clean `out`. The last premise but one is the invariant's
(`Bank.Inv`). -/
def Obligations.PackFrameInClosedForm : Prop :=
  ∀ (s : State) (now : BitVec 64) (cmd body : List Byte) (ps : Nat) (due : Bool) (k1 k2 : Bytes 32) (plain ct : List Byte),
    s.Accepting → s.outBank.keyed = true → s.outBank.FrameClean →
    ps = (csEncode cmd.length).length + cmd.length + 4 + body.length → ps < 2 ^ 32 →
    s.outBank.processed.toNat < 1073741824 →
    due = decide (s.outBank.lastRekeyTime.toNat + 10 ≤ now.toNat ∨
      1073741824 ≤ s.outBank.processed.toNat + (4 + ps + 16)) →
    k1 = (if due then crypto.sha256d (s.outBank.sid.val ++ s.outBank.k1.val) else s.outBank.k1) →
    k2 = (if due then crypto.sha256d (s.outBank.sid.val ++ s.outBank.k2.val) else s.outBank.k2) →
    plain = csEncode cmd.length ++ cmd ++ leBytes 4 body.length ++ body →
    ct = xorBytes plain (crypto.ksPay k2 s.outBank.iv 0 ps).val →
    exec (.pack now cmd body) s = .next (State.respond
      { s with
        outBank :=
          { s.outBank with
            k1 := k1, k2 := k2, seq := s.outBank.seq + 1, sizePos := 0, aeadPos := 0, macData := [], macFinal := false
            tag := crypto.tag k2 s.outBank.iv ct, tagValid := true
            processed := if due then 0 else BitVec.ofNat 64 (s.outBank.processed.toNat + (4 + ps + 16))
            lastRekeyTime := if due then now else s.outBank.lastRekeyTime } }
      ⟨0x00, xorBytes (leBytes 4 ps) (crypto.ksSize k1 s.outBank.iv 0 4).val ++ ct
          ++ (crypto.tag k2 s.outBank.iv ct).val,
        if due then [.rekey] else []⟩)

/-- R211: PACK and its expansion into micro-operations leave the same state, faults included; where PACK raises none, its
frame is the three data results one after the other, and it reports the trigger as an event. -/
def Obligations.PackEqualsItsExpansion : Prop :=
  ∀ (s : State) (now : BitVec 64) (cmd body : List Byte) (due : Bool), s.Accepting → s.outBank.keyed = true →
    payloadSize cmd body < 2 ^ 32 →
    due = decide (s.outBank.lastRekeyTime.toNat + 10 ≤ now.toNat ∨
      1073741824 ≤ s.outBank.processed.toNat + (4 + payloadSize cmd body + 16)) →
    ∃ t u : State, exec (.pack now cmd body) s = .next t ∧
      execAll (expansionTrigger now cmd body :: packRest due cmd body) s = .next u ∧ u = { t with rsp := u.rsp } ∧
      (t.fault = 0 → ∃ size ct tag : List Byte,
        t.rsp = s.rsp ++ [(Response.mk 0x00 (size ++ ct ++ tag) (if due then [.rekey] else [])).encode] ∧
        u.rsp = s.rsp ++ ([(okResponse (if due then [0x01] else [0x00])).encode]
          ++ ((if due then [(okResponse []).encode] else [])
          ++ [(okResponse size).encode, (okResponse ct).encode, (okResponse tag).encode, (okResponse []).encode])))

/-! ### FEED -/

/-- R221: a halted parser drops what it is fed. -/
def Obligations.HaltedFeedDropsData : Prop :=
  ∀ (s : State) (data : List Byte), s.Accepting → s.inBank.keyed = true → s.halted = true →
    exec (.feed data) s = .next (s.respond (okResponse []))

/-- R66: FEED raises `F_RXQ_OVERFLOW` (0x19), appending nothing, exactly where a finite capacity would be passed.
The capacity is a free value (log 6). -/
def Obligations.FeedFaultsExactlyOnOverflow : Prop :=
  ∀ (s : State) (data : List Byte), s.Accepting → s.inBank.keyed = true → s.halted = false →
    (¬ s.RoomFor data.length ↔ exec (.feed data) s = .next (s.faultedWith 0x19))

/-- R223, R244: while fewer than `waiting` bytes are there, FEED only appends. -/
def Obligations.ShortQueueOnlyGrows : Prop :=
  ∀ (s : State) (data : List Byte), s.Accepting → s.inBank.keyed = true → s.halted = false → s.RoomFor data.length →
    s.pending.length + data.length < s.waiting.toNat →
    exec (.feed data) s = .next (State.respond { s with pending := s.pending ++ data } (okResponse []))

/-- R241: what one frame does, on a frame-clean `in` in phase A: a size out of bounds, a size within bounds with the payload
not all there, a bad tag, a payload that does not parse, a payload that does. In the last case fewer than four bytes follow
the frame, so that no further phase runs. Whether over-long compact-sizes parse is a free value (log 5). -/
def Obligations.FrameOutcomes : Prop :=
  ∀ (s : State) (data queue : List Byte) (size : Nat), s.Accepting → s.inBank.keyed = true → s.inBank.FrameClean →
    s.hasSize = false → s.waiting = 4 → s.halted = false → s.RoomFor data.length → queue = s.pending ++ data →
    4 ≤ queue.length → size = s.inBank.decipheredSize (queue.take 4) →
    (size < 6 ∨ 12000000 < size →
      exec (.feed data) s = .next (State.respond
        { s with inBank := { s.inBank with sizePos := 4 }, pending := queue.drop 4, halted := true }
        ⟨0x00, [], [.badSize (BitVec.ofNat 32 size)]⟩)) ∧
    (6 ≤ size → size ≤ 12000000 → queue.length < 4 + size + 16 →
      exec (.feed data) s = .next (State.respond
        { s with
          inBank := { s.inBank with sizePos := 4 }, pending := queue.drop 4, hasSize := true
          waiting := BitVec.ofNat 32 (size + 16) }
        (okResponse []))) ∧
    (6 ≤ size → size ≤ 12000000 → 4 + size + 16 ≤ queue.length → ∀ payload received : List Byte,
      payload = (queue.drop 4).take size → received = (queue.drop (4 + size)).take 16 →
      ((crypto.tag s.inBank.k2 s.inBank.iv payload).val ≠ received →
        exec (.feed data) s = .next (State.respond
          { s with inBank := s.inBank.afterFrame payload, pending := queue.drop (4 + size + 16), halted := true }
          ⟨0x00, [], [.badTag received]⟩)) ∧
      ((crypto.tag s.inBank.k2 s.inBank.iv payload).val = received → ∀ e,
        parseInner Config.strictCs (s.inBank.decipheredPayload payload) = .error e →
        exec (.feed data) s = .next (State.respond
          { s with inBank := s.inBank.afterFrame payload, pending := queue.drop (4 + size + 16), halted := true }
          ⟨0x00, [], [.parse e]⟩)) ∧
      ((crypto.tag s.inBank.k2 s.inBank.iv payload).val = received → queue.length < 4 + size + 16 + 4 → ∀ ms,
        parseInner Config.strictCs (s.inBank.decipheredPayload payload) = .ok ms →
        exec (.feed data) s = .next (State.respond
          { s with inBank := s.inBank.afterFrame payload, pending := queue.drop (4 + size + 16) }
          ⟨0x00, [], ms.map .packet⟩)))

/-- R239, R38: the events of one FEED are packets, then at most one error, last; the parser has halted exactly when there is
one. -/
def Obligations.ErrorEventIsLastAndHalts : Prop :=
  ∀ (s : State) (data : List Byte), s.Accepting → s.inBank.keyed = true → s.halted = false → s.RoomFor data.length →
    ∃ (t : State) (status : BitVec 8) (ms : List Message) (errors : List Event), exec (.feed data) s = .next t ∧
      t.rsp = s.rsp ++ [(Response.mk status [] (ms.map .packet ++ errors)).encode] ∧
      ((errors = [] ∧ t.halted = false) ∨ (∃ e, errors = [e] ∧ e.isError = true ∧ t.halted = true))

/-- R223: after a FEED that raised no fault, the parser has halted or waits for more bytes than the queue holds. -/
def Obligations.FeedEndsHaltedOrWaiting : Prop :=
  ∀ (s t : State) (data : List Byte), s.Accepting → s.inBank.keyed = true → exec (.feed data) s = .next t → t.fault = 0 →
    t.halted = true ∨ t.pending.length < t.waiting.toNat

/-- R242, R345: bytes from the wire alone raise no fault: on a bank that FEED left between frames or between the phases of
one, FEED raises none, and leaves it so or has halted. -/
def Obligations.FeedOnSyncedBankRaisesNoFault : Prop :=
  ∀ (s : State) (data : List Byte), s.Accepting → s.inBank.keyed = true → s.halted = true ∨ s.ParserSynced →
    s.RoomFor data.length →
    ∃ t, exec (.feed data) s = .next t ∧ t.fault = 0 ∧ (t.halted = true ∨ t.ParserSynced)

/-- R238: feeding pieces one after another gives, over all their responses, the events of feeding them at once, and the same
state but for the bytes a halted parser leaves unread. -/
def Obligations.EventsDoNotDependOnTheCut : Prop :=
  ∀ (s : State) (pieces : List (List Byte)), s.Accepting → s.inBank.keyed = true → s.halted = true ∨ s.ParserSynced →
    s.RoomFor pieces.flatten.length → pieces ≠ [] →
    ∃ (t u : State) (es : List (List Event)), execAll (pieces.map .feed) s = .next t ∧
      exec (.feed pieces.flatten) s = .next u ∧ es.length = pieces.length ∧
      t.rsp = s.rsp ++ es.map (fun events => (Response.mk 0x00 [] events).encode) ∧
      u.rsp = s.rsp ++ [(Response.mk 0x00 [] es.flatten).encode] ∧
      t = { u with rsp := t.rsp, pending := t.pending } ∧ (t.halted = false → t.pending = u.pending)

/-- R240: a frame that PACK made is delivered by a receiver whose `in` has the keys the frame was made with and the sender's
sequence number: exactly the packet packed, and the two sequence numbers are equal again. -/
def Obligations.PackedFrameIsDelivered : Prop :=
  ∀ (a b : State) (now : BitVec 64) (cmd body : List Byte) (due : Bool), a.Accepting → a.outBank.keyed = true →
    a.outBank.FrameClean → a.outBank.processed.toNat < 1073741824 →
    6 ≤ payloadSize cmd body → payloadSize cmd body ≤ 12000000 →
    due = decide (a.outBank.lastRekeyTime.toNat + 10 ≤ now.toNat ∨
      1073741824 ≤ a.outBank.processed.toNat + (4 + payloadSize cmd body + 16)) →
    b.Accepting → b.inBank.keyed = true → b.inBank.FrameClean → b.hasSize = false → b.waiting = 4 → b.halted = false →
    b.pending = [] → b.RoomFor (4 + payloadSize cmd body + 16) →
    b.inBank.k1 = (if due then crypto.sha256d (a.outBank.sid.val ++ a.outBank.k1.val) else a.outBank.k1) →
    b.inBank.k2 = (if due then crypto.sha256d (a.outBank.sid.val ++ a.outBank.k2.val) else a.outBank.k2) →
    b.inBank.seq = a.outBank.seq →
    ∃ (frame : List Byte) (a' b' : State), exec (.pack now cmd body) a = .next a' ∧
      a'.rsp = a.rsp ++ [(Response.mk 0x00 frame (if due then [.rekey] else [])).encode] ∧
      exec (.feed frame) b = .next b' ∧ b'.rsp = b.rsp ++ [(Response.mk 0x00 [] [.packet ⟨cmd, body⟩]).encode] ∧
      b'.inBank.seq = a'.outBank.seq ∧ b'.inBank.tag = a'.outBank.tag ∧ b'.inBank.FrameClean ∧
      a'.outBank.FrameClean ∧ b' = { b with inBank := b'.inBank, rsp := b'.rsp }

/-! ### Wire formats -/

/-- R104, R105: every compact-size is read back, whatever follows it and whether or not over-long forms are refused, and
takes the bytes the table gives it. -/
def Obligations.CompactSizeIsReadBack : Prop :=
  ∀ (strict : Bool) (n : Nat) (rest : List Byte), n < 2 ^ 64 →
    csDecode strict (csEncode n ++ rest) = .ok (n, csLen n) ∧ (csEncode n).length = csLen n

/-- R107, R236: the parser reads back any inner messages laid end to end, in order. -/
def Obligations.InnerMessagesAreReadBack : Prop :=
  ∀ (strict : Bool) (ms : List Message), (∀ m ∈ ms, m.cmd.length < 2 ^ 64 ∧ m.body.length < 2 ^ 32) →
    parseInner strict (ms.flatMap fun m => innerMessage m.cmd m.body) = .ok ms

/-- R236, R105: with over-long forms refused, a payload that parses is exactly its messages laid end to end. -/
def Obligations.StrictPayloadIsItsMessages : Prop :=
  ∀ (p : List Byte) (ms : List Message), parseInner true p = .ok ms →
    (ms.flatMap fun m => innerMessage m.cmd m.body) = p

/-! ### Crypto functions of the default instantiation -/

/-- R308, R315 (b): under the all-zero one-time key every message has the all-zero tag. -/
def Obligations.ZeroKeyGivesZeroTag : Prop :=
  ∀ m : List Byte, (poly1305 (Bytes.zero 32) m).val = List.replicate 16 0

/-- R309: the MAC's input is whole 16-byte pieces that begin with the ciphertext, and tells any two ciphertexts apart. -/
def Obligations.MacInputTellsCiphertextsApart : Prop :=
  (∀ ct : List Byte, (macInput ct).length % 16 = 0 ∧ (macInput ct).take ct.length = ct) ∧
  (∀ a b : List Byte, a.length < 2 ^ 64 → b.length < 2 ^ 64 → macInput a = macInput b → a = b)

end
end

