-- ==== Sys2Proof/Laws/Bytes.lean ====
section
/-! SUPPORT. Byte order: what `leBytes` and `rdle` do to each other, and what the operand parsers do to a byte string that
begins with the operand. -/
namespace Sys2Proof.Machine

@[simp] theorem leBytes_length (n v : Nat) : (leBytes n v).length = n := length_leBytes n v

@[simp] theorem length_le32 (v : BitVec 32) : (le32 v).length = 4 := length_leBytes ..

@[simp] theorem length_le64 (v : BitVec 64) : (le64 v).length = 8 := length_leBytes ..

/-- Writing a number in `n` bytes keeps it modulo `256^n`. -/
theorem rdle_leBytes (n v : Nat) : rdle (leBytes n v) = v % 256 ^ n := by
  induction n generalizing v with
  | zero => simp [leBytes, rdle, Nat.mod_one]
  | succ n ih =>
    rw [leBytes, rdle, ih, BitVec.toNat_ofNat, show 256 ^ (n + 1) = 256 * 256 ^ n from pow_succ' ..]
    exact (Nat.mod_mul (a := 256)).symm

theorem rdle_lt (bs : List Byte) : rdle bs < 256 ^ bs.length := by
  induction bs with
  | nil => simp [rdle]
  | cons b bs ih =>
    have := b.isLt
    simp only [rdle, List.length_cons, pow_succ]
    omega

/-- Reading `n` bytes and writing them again gives the same bytes. -/
theorem leBytes_rdle (bs : List Byte) : leBytes bs.length (rdle bs) = bs := by
  induction bs with
  | nil => rfl
  | cons b bs ih =>
    have hb := b.isLt
    have h1 : (b.toNat + 256 * rdle bs) / 256 = rdle bs := by omega
    have h2 : BitVec.ofNat 8 (b.toNat + 256 * rdle bs) = b := by
      apply BitVec.eq_of_toNat_eq; simp only [BitVec.toNat_ofNat]; omega
    simp [leBytes, rdle, h1, h2, ih]

@[simp] theorem rdle_le32 (v : BitVec 32) : rdle (le32 v) = v.toNat := by
  have := v.isLt
  rw [le32, rdle_leBytes, Nat.mod_eq_of_lt (by simpa using this)]

@[simp] theorem rdle_le64 (v : BitVec 64) : rdle (le64 v) = v.toNat := by
  have := v.isLt
  rw [le64, rdle_leBytes, Nat.mod_eq_of_lt (by simpa using this)]

/-- Four bytes are the `le32` of the number they stand for. -/
theorem le32_rdle {bs : List Byte} (h : bs.length = 4) : le32 (BitVec.ofNat 32 (rdle bs)) = bs := by
  have hlt := rdle_lt bs
  rw [h] at hlt
  rw [le32, BitVec.toNat_ofNat, Nat.mod_eq_of_lt (by simpa using hlt), ← h, leBytes_rdle]

/-- Eight bytes are the `le64` of the number they stand for. -/
theorem le64_rdle {bs : List Byte} (h : bs.length = 8) : le64 (BitVec.ofNat 64 (rdle bs)) = bs := by
  have hlt := rdle_lt bs
  rw [h] at hlt
  rw [le64, BitVec.toNat_ofNat, Nat.mod_eq_of_lt (by simpa using hlt), ← h, leBytes_rdle]

theorem lengthField32_of_lt {n : Nat} (h : n < 2 ^ 32) : lengthField32 n = BitVec.ofNat 32 n := if_pos h

theorem lengthField64_of_lt {n : Nat} (h : n < 2 ^ 64) : lengthField64 n = BitVec.ofNat 64 n := if_pos h

end Sys2Proof.Machine

namespace Sys2Proof

open Machine

/-- What `takeBytes` does where enough bytes are there. -/
theorem takeBytes_eq_some {n : Nat} {bs : List Byte} {b : Bytes n} {rest : List Byte} :
    takeBytes n bs = some (b, rest) ↔ bs = b.val ++ rest := by
  unfold takeBytes
  constructor
  · intro h
    split at h
    · simp only [Option.some.injEq, Prod.mk.injEq] at h
      obtain ⟨rfl, rfl⟩ := h
      exact (List.take_append_drop n bs).symm
    · simp at h
  · rintro rfl
    have hb := b.property
    have hle : n ≤ (b.val ++ rest).length := by simp [hb]
    rw [dif_pos hle]
    simp only [Option.some.injEq, Prod.mk.injEq]
    exact ⟨Subtype.ext (by simp [← hb]), by simp [← hb]⟩

@[simp] theorem takeBytes_append {n : Nat} (b : Bytes n) (rest : List Byte) :
    takeBytes n (b.val ++ rest) = some (b, rest) := takeBytes_eq_some.mpr rfl

@[simp] theorem takeBytes_self {n : Nat} (b : Bytes n) : takeBytes n b.val = some (b, []) :=
  takeBytes_eq_some.mpr (by simp)

theorem take32_eq_some {bs : List Byte} {v : BitVec 32} {rest : List Byte} :
    take32 bs = some (v, rest) ↔ bs = le32 v ++ rest := by
  simp only [take32, Option.map_eq_some_iff, Prod.mk.injEq, Prod.exists, takeBytes_eq_some]
  constructor
  · rintro ⟨b, r, rfl, rfl, rfl⟩
    rw [le32_rdle b.property]
  · rintro rfl
    exact ⟨⟨le32 v, length_le32 v⟩, rest, rfl, by simp, rfl⟩

@[simp] theorem take32_append (v : BitVec 32) (rest : List Byte) : take32 (le32 v ++ rest) = some (v, rest) :=
  take32_eq_some.mpr rfl

theorem take64_eq_some {bs : List Byte} {v : BitVec 64} {rest : List Byte} :
    take64 bs = some (v, rest) ↔ bs = le64 v ++ rest := by
  simp only [take64, Option.map_eq_some_iff, Prod.mk.injEq, Prod.exists, takeBytes_eq_some]
  constructor
  · rintro ⟨b, r, rfl, rfl, rfl⟩
    rw [le64_rdle b.property]
  · rintro rfl
    exact ⟨⟨le64 v, length_le64 v⟩, rest, rfl, by simp, rfl⟩

@[simp] theorem take64_append (v : BitVec 64) (rest : List Byte) : take64 (le64 v ++ rest) = some (v, rest) :=
  take64_eq_some.mpr rfl

@[simp] theorem take64_self (v : BitVec 64) : take64 (le64 v) = some (v, []) :=
  take64_eq_some.mpr (by simp)

theorem takeData_eq_some {bs data : List Byte} :
    takeData bs = some data ↔ bs = lengthOperand data ++ data ∧ fits32 data = true := by
  simp only [takeData, Option.bind_eq_some_iff, Prod.exists, take32_eq_some, lengthOperand, fits32, decide_eq_true_eq]
  constructor
  · rintro ⟨v, r, rfl, h⟩
    split at h
    · rename_i hl
      obtain rfl := Option.some.inj h
      exact ⟨by rw [hl]; simp, by rw [hl]; exact v.isLt⟩
    · simp at h
  · rintro ⟨rfl, h⟩
    exact ⟨_, _, rfl, by rw [BitVec.toNat_ofNat, Nat.mod_eq_of_lt h, if_pos rfl]⟩

theorem whenDone_eq_some {rest : List Byte} {i j : Instr} : whenDone rest i = some j ↔ rest = [] ∧ i = j := by
  unfold whenDone
  cases rest <;> simp

@[simp] theorem whenDone_nil (i : Instr) : whenDone [] i = some i := rfl

/-! ### The command word -/

theorem toNat_append_eq {n m : Nat} (x : BitVec n) (y : BitVec m) : (x ++ y).toNat = 2 ^ m * x.toNat + y.toNat := by
  rw [BitVec.toNat_append, Nat.shiftLeft_eq, Nat.mul_comm]
  exact (Nat.two_pow_add_eq_or_of_lt y.isLt _).symm

/-- The command word as a number. -/
theorem toNat_commandWord (opc : BitVec 8) (s : Bool) (arg : BitVec 8) :
    (commandWord opc s arg).toNat = opc.toNat + 2 ^ 8 * s.toNat + 2 ^ 16 * arg.toNat := by
  have h : (commandWord opc s arg).toNat = 2 ^ 8 * (2 ^ 1 * (2 ^ 7 * (2 ^ 8 * (0#8).toNat + arg.toNat) + (0#7).toNat)
      + (BitVec.ofBool s).toNat) + opc.toNat := by
    simp only [← toNat_append_eq]
    rfl
  rw [h, BitVec.toNat_ofBool]
  simp only [BitVec.toNat_ofNat]
  omega

theorem splitWord_commandWord (opc : BitVec 8) (s : Bool) (arg : BitVec 8) :
    splitWord (commandWord opc s arg) = .ok ⟨opc, s, arg⟩ := by
  have hw := toNat_commandWord opc s arg
  have ho := opc.isLt
  have ha := arg.isLt
  have hs : s.toNat ≤ 1 := Bool.toNat_le s
  have h1 : (commandWord opc s arg).extractLsb' 9 7 = 0 := by
    apply BitVec.eq_of_toNat_eq
    simp only [BitVec.extractLsb'_toNat, hw, Nat.shiftRight_eq_div_pow]
    simp
    omega
  have h2 : (commandWord opc s arg).extractLsb' 24 8 = 0 := by
    apply BitVec.eq_of_toNat_eq
    simp only [BitVec.extractLsb'_toNat, hw, Nat.shiftRight_eq_div_pow]
    simp
    omega
  have h3 : (commandWord opc s arg).extractLsb' 0 8 = opc := by
    apply BitVec.eq_of_toNat_eq
    simp only [BitVec.extractLsb'_toNat, hw, Nat.shiftRight_eq_div_pow]
    simp
    omega
  have h4 : (commandWord opc s arg).getLsbD 8 = s := by
    rw [BitVec.getLsbD, hw, Nat.testBit_eq_decide_div_mod_eq]
    cases s <;> simp <;> omega
  have h5 : (commandWord opc s arg).extractLsb' 16 8 = arg := by
    apply BitVec.eq_of_toNat_eq
    simp only [BitVec.extractLsb'_toNat, hw, Nat.shiftRight_eq_div_pow]
    simp
    omega
  rw [splitWord, if_pos ⟨h1, h2⟩, h3, h4, h5]

/-- A word that splits is the command word of its fields. -/
theorem commandWord_of_splitWord {w : BitVec 32} {cw : CommandWord} (h : splitWord w = .ok cw) :
    commandWord cw.opc cw.s cw.arg = w := by
  unfold splitWord at h
  split_ifs at h with hz
  cases h
  have h1 : (w.extractLsb' 9 7).toNat = 0 := congrArg BitVec.toNat hz.1
  have h2 : (w.extractLsb' 24 8).toNat = 0 := congrArg BitVec.toNat hz.2
  have h8 : (w.getLsbD 8).toNat = w.toNat / 2 ^ 8 % 2 := by
    rw [BitVec.getLsbD, Nat.testBit_eq_decide_div_mod_eq]
    rcases Nat.mod_two_eq_zero_or_one (w.toNat / 2 ^ 8) with h | h <;> rw [h] <;> rfl
  have hlt := w.isLt
  apply BitVec.eq_of_toNat_eq
  rw [toNat_commandWord, h8]
  simp only [BitVec.extractLsb'_toNat, Nat.shiftRight_eq_div_pow] at h1 h2 ⊢
  norm_num at h1 h2 ⊢
  omega

end Sys2Proof
end

