-- ==== Sys2Proof/Laws/Crypto.lean ====
section
/-! SUPPORT. The keystream byte by byte (spec/45_crypto_primitives.md R305), and the property of R301 (a) for the
instantiation the machine runs. -/
namespace Sys2Proof.Machine

/-- Byte `j` of the keystream: byte `j mod 64` of block `j div 64` (R305). -/
def streamByte (key : Bytes 32) (iv : Bytes 8) (j : Nat) : Byte := (chachaBlock key (j / 64) iv).getD (j % 64) 0

theorem chachaBlock_eq_map (key : Bytes 32) (iv : Bytes 8) (ctr : Nat) :
    chachaBlock key ctr iv = (List.range 64).map fun i => streamByte key iv (64 * ctr + i) := by
  refine List.ext_getElem (by simp [length_chachaBlock]) fun i h _ => ?_
  rw [length_chachaBlock] at h
  have h1 : (64 * ctr + i) / 64 = ctr := by omega
  have h2 : (64 * ctr + i) % 64 = i := by omega
  rw [List.getElem_map, List.getElem_range, streamByte, h1, h2, List.getD_eq_getElem _ _ (by rw [length_chachaBlock]; exact h)]

theorem chachaBlocks_eq_map (key : Bytes 32) (iv : Bytes 8) (ctr n : Nat) :
    chachaBlocks key iv ctr n = (List.range (64 * n)).map fun i => streamByte key iv (64 * ctr + i) := by
  induction n generalizing ctr with
  | zero => rfl
  | succ n ih =>
    have h : 64 * (n + 1) = 64 + 64 * n := by ring
    rw [chachaBlocks, chachaBlock_eq_map, ih, h, List.range_add, List.map_append, List.map_map]
    refine congrArg _ (List.map_congr_left fun i _ => ?_)
    simp only [Function.comp]
    exact congrArg _ (by ring)

/-- `Stream(k, iv, off, n)` is the bytes `off` to `off + n - 1` (R305). -/
theorem chachaStream_eq_map (key : Bytes 32) (iv : Bytes 8) (off n : Nat) :
    (chachaStream key iv off n).val = (List.range n).map fun i => streamByte key iv (off + i) := by
  have hlen : (chachaStream key iv off n).val.length = n := (chachaStream key iv off n).property
  refine List.ext_getElem (by simp [hlen]) fun i h _ => ?_
  have hd : 64 * (off / 64) + (off % 64 + i) = off + i := by omega
  simp [chachaStream, chachaBlocks_eq_map, hd]

theorem chachaStream_append (key : Bytes 32) (iv : Bytes 8) (off n m : Nat) :
    (chachaStream key iv off n).val ++ (chachaStream key iv (off + n) m).val
      = (chachaStream key iv off (n + m)).val := by
  simp only [chachaStream_eq_map, List.range_add, List.map_append, List.map_map, Function.comp_def, Nat.add_assoc]

/-- R301 (a) for the default instantiation. -/
theorem defaultCrypto_lawful : defaultCrypto.Lawful where
  size_append key iv pos n m := chachaStream_append key iv pos n m
  pay_append key iv pos n m := by
    simpa only [defaultCrypto, Nat.add_assoc] using chachaStream_append key iv (64 + pos) n m

/-- R301 (a) for the instantiation the machine runs. -/
theorem crypto_lawful : crypto.Lawful := defaultCrypto_lawful

end Sys2Proof.Machine
end

