-- ==== Sys2Proof/Laws/State.lean ====
section
/-! SUPPORT. One lemma per field per update of the state, each true by unfolding the update, so that no later proof unfolds
one. -/
namespace Sys2Proof.Machine

/-! ### `State.respond` -/

@[simp] theorem respond_inBank (s : State) (r : Response) : (s.respond r).inBank = s.inBank := rfl
@[simp] theorem respond_outBank (s : State) (r : Response) : (s.respond r).outBank = s.outBank := rfl
@[simp] theorem respond_live (s : State) (r : Response) : (s.respond r).live = s.live := rfl
@[simp] theorem respond_fault (s : State) (r : Response) : (s.respond r).fault = s.fault := rfl
@[simp] theorem respond_pending (s : State) (r : Response) : (s.respond r).pending = s.pending := rfl
@[simp] theorem respond_waiting (s : State) (r : Response) : (s.respond r).waiting = s.waiting := rfl
@[simp] theorem respond_hasSize (s : State) (r : Response) : (s.respond r).hasSize = s.hasSize := rfl
@[simp] theorem respond_halted (s : State) (r : Response) : (s.respond r).halted = s.halted := rfl
@[simp] theorem respond_cmd (s : State) (r : Response) : (s.respond r).cmd = s.cmd := rfl
@[simp] theorem respond_rsp (s : State) (r : Response) : (s.respond r).rsp = s.rsp ++ [r.encode] := rfl

/-! ### `State.raise` -/

@[simp] theorem raise_inBank (s : State) (c : FaultCode) (evs : List Event) : (s.raise c evs).inBank = s.inBank := rfl
@[simp] theorem raise_outBank (s : State) (c : FaultCode) (evs : List Event) :
    (s.raise c evs).outBank = s.outBank := rfl
@[simp] theorem raise_live (s : State) (c : FaultCode) (evs : List Event) : (s.raise c evs).live = s.live := rfl
@[simp] theorem raise_fault (s : State) (c : FaultCode) (evs : List Event) :
    (s.raise c evs).fault = if s.fault = 0 then c.byte else s.fault := rfl
@[simp] theorem raise_pending (s : State) (c : FaultCode) (evs : List Event) :
    (s.raise c evs).pending = s.pending := rfl
@[simp] theorem raise_waiting (s : State) (c : FaultCode) (evs : List Event) :
    (s.raise c evs).waiting = s.waiting := rfl
@[simp] theorem raise_hasSize (s : State) (c : FaultCode) (evs : List Event) :
    (s.raise c evs).hasSize = s.hasSize := rfl
@[simp] theorem raise_halted (s : State) (c : FaultCode) (evs : List Event) : (s.raise c evs).halted = s.halted := rfl
@[simp] theorem raise_cmd (s : State) (c : FaultCode) (evs : List Event) : (s.raise c evs).cmd = s.cmd := rfl
@[simp] theorem raise_rsp (s : State) (c : FaultCode) (evs : List Event) :
    (s.raise c evs).rsp = s.rsp ++ [(faultResponse c evs).encode] := rfl

/-! ### `State.refuse` -/

@[simp] theorem refuse_inBank (s : State) : (s.refuse).inBank = s.inBank := rfl
@[simp] theorem refuse_outBank (s : State) : (s.refuse).outBank = s.outBank := rfl
@[simp] theorem refuse_live (s : State) : (s.refuse).live = s.live := rfl
@[simp] theorem refuse_fault (s : State) : (s.refuse).fault = s.fault := rfl
@[simp] theorem refuse_pending (s : State) : (s.refuse).pending = s.pending := rfl
@[simp] theorem refuse_waiting (s : State) : (s.refuse).waiting = s.waiting := rfl
@[simp] theorem refuse_hasSize (s : State) : (s.refuse).hasSize = s.hasSize := rfl
@[simp] theorem refuse_halted (s : State) : (s.refuse).halted = s.halted := rfl
@[simp] theorem refuse_cmd (s : State) : (s.refuse).cmd = s.cmd := rfl
@[simp] theorem refuse_rsp (s : State) : (s.refuse).rsp = s.rsp ++ [(Response.mk statusFaulted [] []).encode] := rfl

/-! ### `State.setBank` and `State.bank` -/

@[simp] theorem setBank_input_inBank (s : State) (b : Bank) : (s.setBank .input b).inBank = b := rfl
@[simp] theorem setBank_input_outBank (s : State) (b : Bank) : (s.setBank .input b).outBank = s.outBank := rfl
@[simp] theorem setBank_input_live (s : State) (b : Bank) : (s.setBank .input b).live = s.live := rfl
@[simp] theorem setBank_input_fault (s : State) (b : Bank) : (s.setBank .input b).fault = s.fault := rfl
@[simp] theorem setBank_input_pending (s : State) (b : Bank) : (s.setBank .input b).pending = s.pending := rfl
@[simp] theorem setBank_input_waiting (s : State) (b : Bank) : (s.setBank .input b).waiting = s.waiting := rfl
@[simp] theorem setBank_input_hasSize (s : State) (b : Bank) : (s.setBank .input b).hasSize = s.hasSize := rfl
@[simp] theorem setBank_input_halted (s : State) (b : Bank) : (s.setBank .input b).halted = s.halted := rfl
@[simp] theorem setBank_input_cmd (s : State) (b : Bank) : (s.setBank .input b).cmd = s.cmd := rfl
@[simp] theorem setBank_input_rsp (s : State) (b : Bank) : (s.setBank .input b).rsp = s.rsp := rfl
@[simp] theorem setBank_output_inBank (s : State) (b : Bank) : (s.setBank .output b).inBank = s.inBank := rfl
@[simp] theorem setBank_output_outBank (s : State) (b : Bank) : (s.setBank .output b).outBank = b := rfl
@[simp] theorem setBank_output_live (s : State) (b : Bank) : (s.setBank .output b).live = s.live := rfl
@[simp] theorem setBank_output_fault (s : State) (b : Bank) : (s.setBank .output b).fault = s.fault := rfl
@[simp] theorem setBank_output_pending (s : State) (b : Bank) : (s.setBank .output b).pending = s.pending := rfl
@[simp] theorem setBank_output_waiting (s : State) (b : Bank) : (s.setBank .output b).waiting = s.waiting := rfl
@[simp] theorem setBank_output_hasSize (s : State) (b : Bank) : (s.setBank .output b).hasSize = s.hasSize := rfl
@[simp] theorem setBank_output_halted (s : State) (b : Bank) : (s.setBank .output b).halted = s.halted := rfl
@[simp] theorem setBank_output_cmd (s : State) (b : Bank) : (s.setBank .output b).cmd = s.cmd := rfl
@[simp] theorem setBank_output_rsp (s : State) (b : Bank) : (s.setBank .output b).rsp = s.rsp := rfl
@[simp] theorem bank_input (s : State) : s.bank .input = s.inBank := rfl
@[simp] theorem bank_output (s : State) : s.bank .output = s.outBank := rfl
@[simp] theorem setBank_live (s : State) (sel : BankSel) (b : Bank) : (s.setBank sel b).live = s.live :=
  by cases sel <;> rfl
@[simp] theorem setBank_fault (s : State) (sel : BankSel) (b : Bank) : (s.setBank sel b).fault = s.fault :=
  by cases sel <;> rfl
@[simp] theorem setBank_pending (s : State) (sel : BankSel) (b : Bank) : (s.setBank sel b).pending = s.pending :=
  by cases sel <;> rfl
@[simp] theorem setBank_waiting (s : State) (sel : BankSel) (b : Bank) : (s.setBank sel b).waiting = s.waiting :=
  by cases sel <;> rfl
@[simp] theorem setBank_hasSize (s : State) (sel : BankSel) (b : Bank) : (s.setBank sel b).hasSize = s.hasSize :=
  by cases sel <;> rfl
@[simp] theorem setBank_halted (s : State) (sel : BankSel) (b : Bank) : (s.setBank sel b).halted = s.halted :=
  by cases sel <;> rfl
@[simp] theorem setBank_cmd (s : State) (sel : BankSel) (b : Bank) : (s.setBank sel b).cmd = s.cmd :=
  by cases sel <;> rfl
@[simp] theorem setBank_rsp (s : State) (sel : BankSel) (b : Bank) : (s.setBank sel b).rsp = s.rsp :=
  by cases sel <;> rfl
@[simp] theorem bank_setBank_self (s : State) (sel : BankSel) (b : Bank) : (s.setBank sel b).bank sel = b :=
  by cases sel <;> rfl
@[simp] theorem setBank_bank_self (s : State) (sel : BankSel) : s.setBank sel (s.bank sel) = s := by cases sel <;> rfl

theorem bank_setBank_other (s : State) {sel other : BankSel} (b : Bank) (h : other ≠ sel) :
    (s.setBank sel b).bank other = s.bank other := by
  cases sel <;> cases other <;> first | rfl | exact absurd rfl h

@[simp] theorem setBank_setBank (s : State) (sel : BankSel) (b c : Bank) :
    (s.setBank sel b).setBank sel c = s.setBank sel c := by cases sel <;> rfl

@[simp] theorem bank_respond (s : State) (r : Response) (sel : BankSel) : (s.respond r).bank sel = s.bank sel := by
  cases sel <;> rfl

@[simp] theorem bank_raise (s : State) (c : FaultCode) (evs : List Event) (sel : BankSel) :
    (s.raise c evs).bank sel = s.bank sel := by
  cases sel <;> rfl

@[simp] theorem bank_refuse (s : State) (sel : BankSel) : s.refuse.bank sel = s.bank sel := by
  cases sel <;> rfl

/-- The IV is a view of `seq` alone (R24). -/
theorem iv_congr {b c : Bank} (h : b.seq = c.seq) : b.iv = c.iv := by
  simp [Bank.iv, Bank.seqField, h]

/-! ### `Bank.cipherInit` -/

@[simp] theorem cipherInit_keyed (b : Bank) : b.cipherInit.keyed = b.keyed := rfl
@[simp] theorem cipherInit_k1 (b : Bank) : b.cipherInit.k1 = b.k1 := rfl
@[simp] theorem cipherInit_k2 (b : Bank) : b.cipherInit.k2 = b.k2 := rfl
@[simp] theorem cipherInit_sid (b : Bank) : b.cipherInit.sid = b.sid := rfl
@[simp] theorem cipherInit_seq (b : Bank) : b.cipherInit.seq = b.seq := rfl
@[simp] theorem cipherInit_sizePos (b : Bank) : b.cipherInit.sizePos = 0 := rfl
@[simp] theorem cipherInit_aeadPos (b : Bank) : b.cipherInit.aeadPos = 0 := rfl
@[simp] theorem cipherInit_macData (b : Bank) : b.cipherInit.macData = [] := rfl
@[simp] theorem cipherInit_macFinal (b : Bank) : b.cipherInit.macFinal = false := rfl
@[simp] theorem cipherInit_tag (b : Bank) : b.cipherInit.tag = b.tag := rfl
@[simp] theorem cipherInit_tagValid (b : Bank) : b.cipherInit.tagValid = b.tagValid := rfl
@[simp] theorem cipherInit_processed (b : Bank) : b.cipherInit.processed = b.processed := rfl
@[simp] theorem cipherInit_lastRekeyTime (b : Bank) : b.cipherInit.lastRekeyTime = b.lastRekeyTime := rfl
@[simp] theorem cipherInit_iv (b : Bank) : b.cipherInit.iv = b.iv := rfl

theorem cipherInit_frameClean (b : Bank) : b.cipherInit.sizePos = 0 ∧ b.cipherInit.aeadPos = 0 ∧
    b.cipherInit.macData = [] ∧ b.cipherInit.macFinal = false := ⟨rfl, rfl, rfl, rfl⟩

/-! ### `State.resetSession` -/

@[simp] theorem resetSession_inBank (s : State) : s.resetSession.inBank = Bank.reset := rfl
@[simp] theorem resetSession_outBank (s : State) : s.resetSession.outBank = Bank.reset := rfl
@[simp] theorem resetSession_live (s : State) : s.resetSession.live = s.live := rfl
@[simp] theorem resetSession_fault (s : State) : s.resetSession.fault = s.fault := rfl
@[simp] theorem resetSession_pending (s : State) : s.resetSession.pending = [] := rfl
@[simp] theorem resetSession_waiting (s : State) : s.resetSession.waiting = 4 := rfl
@[simp] theorem resetSession_hasSize (s : State) : s.resetSession.hasSize = false := rfl
@[simp] theorem resetSession_halted (s : State) : s.resetSession.halted = false := rfl
@[simp] theorem resetSession_cmd (s : State) : s.resetSession.cmd = s.cmd := rfl
@[simp] theorem resetSession_rsp (s : State) : s.resetSession.rsp = s.rsp := rfl

/-! ### The receive queue -/

@[simp] theorem rxqAppend_inBank (s : State) (d : List Byte) : (s.rxqAppend d).inBank = s.inBank := rfl
@[simp] theorem rxqAppend_outBank (s : State) (d : List Byte) : (s.rxqAppend d).outBank = s.outBank := rfl
@[simp] theorem rxqAppend_live (s : State) (d : List Byte) : (s.rxqAppend d).live = s.live := rfl
@[simp] theorem rxqAppend_fault (s : State) (d : List Byte) : (s.rxqAppend d).fault = s.fault := rfl
@[simp] theorem rxqAppend_pending (s : State) (d : List Byte) : (s.rxqAppend d).pending = s.pending ++ d := rfl
@[simp] theorem rxqAppend_waiting (s : State) (d : List Byte) : (s.rxqAppend d).waiting = s.waiting := rfl
@[simp] theorem rxqAppend_hasSize (s : State) (d : List Byte) : (s.rxqAppend d).hasSize = s.hasSize := rfl
@[simp] theorem rxqAppend_halted (s : State) (d : List Byte) : (s.rxqAppend d).halted = s.halted := rfl
@[simp] theorem rxqAppend_cmd (s : State) (d : List Byte) : (s.rxqAppend d).cmd = s.cmd := rfl
@[simp] theorem rxqAppend_rsp (s : State) (d : List Byte) : (s.rxqAppend d).rsp = s.rsp := rfl
@[simp] theorem rxqDrop_inBank (s : State) (n : Nat) : (s.rxqDrop n).inBank = s.inBank := rfl
@[simp] theorem rxqDrop_outBank (s : State) (n : Nat) : (s.rxqDrop n).outBank = s.outBank := rfl
@[simp] theorem rxqDrop_live (s : State) (n : Nat) : (s.rxqDrop n).live = s.live := rfl
@[simp] theorem rxqDrop_fault (s : State) (n : Nat) : (s.rxqDrop n).fault = s.fault := rfl
@[simp] theorem rxqDrop_pending (s : State) (n : Nat) : (s.rxqDrop n).pending = s.pending.drop n := rfl
@[simp] theorem rxqDrop_waiting (s : State) (n : Nat) : (s.rxqDrop n).waiting = s.waiting := rfl
@[simp] theorem rxqDrop_hasSize (s : State) (n : Nat) : (s.rxqDrop n).hasSize = s.hasSize := rfl
@[simp] theorem rxqDrop_halted (s : State) (n : Nat) : (s.rxqDrop n).halted = s.halted := rfl
@[simp] theorem rxqDrop_cmd (s : State) (n : Nat) : (s.rxqDrop n).cmd = s.cmd := rfl
@[simp] theorem rxqDrop_rsp (s : State) (n : Nat) : (s.rxqDrop n).rsp = s.rsp := rfl
@[simp] theorem total_rxqAppend (s : State) (d : List Byte) : (s.rxqAppend d).total = s.total + d.length := by
  simp [State.total]
@[simp] theorem total_rxqDrop (s : State) (n : Nat) : (s.rxqDrop n).total = s.total - n := by
  simp [State.total]
@[simp] theorem total_setBank (s : State) (sel : BankSel) (b : Bank) : (s.setBank sel b).total = s.total := by
  simp [State.total]
@[simp] theorem total_respond (s : State) (r : Response) : (s.respond r).total = s.total := rfl

/-! ### The command port -/

@[simp] theorem present_inBank (s : State) (tx : List Byte) : (s.present tx).inBank = s.inBank := rfl
@[simp] theorem present_outBank (s : State) (tx : List Byte) : (s.present tx).outBank = s.outBank := rfl
@[simp] theorem present_live (s : State) (tx : List Byte) : (s.present tx).live = s.live := rfl
@[simp] theorem present_fault (s : State) (tx : List Byte) : (s.present tx).fault = s.fault := rfl
@[simp] theorem present_pending (s : State) (tx : List Byte) : (s.present tx).pending = s.pending := rfl
@[simp] theorem present_waiting (s : State) (tx : List Byte) : (s.present tx).waiting = s.waiting := rfl
@[simp] theorem present_hasSize (s : State) (tx : List Byte) : (s.present tx).hasSize = s.hasSize := rfl
@[simp] theorem present_halted (s : State) (tx : List Byte) : (s.present tx).halted = s.halted := rfl
@[simp] theorem present_cmd (s : State) (tx : List Byte) : (s.present tx).cmd = tx :: s.cmd := rfl
@[simp] theorem present_rsp (s : State) (tx : List Byte) : (s.present tx).rsp = s.rsp := rfl

theorem takeCommand_nil {s : State} (h : s.cmd = []) : s.takeCommand = none := by
  simp [State.takeCommand, h]

theorem takeCommand_cons {s : State} {tx : List Byte} {rest : List (List Byte)} (h : s.cmd = tx :: rest) :
    s.takeCommand = some (tx, { s with cmd := rest }) := by
  simp [State.takeCommand, h]

theorem takeCommand_present (s : State) (tx : List Byte) : (s.present tx).takeCommand = some (tx, s) := rfl

end Sys2Proof.Machine
end

