-- ==== Sys2Proof/Laws/Ops.lean ====
section
/-! SUPPORT. For each shared operation, once, everything it can do. The provers cite these instead of unfolding the
operation. -/
namespace Sys2Proof.Machine

/-! ### Byte strings -/

@[simp] theorem length_xorBytes (a b : List Byte) : (xorBytes a b).length = min a.length b.length := by
  simp [xorBytes]

theorem xorBytes_append {a c : List Byte} (b d : List Byte) (h : a.length = c.length) :
    xorBytes (a ++ b) (c ++ d) = xorBytes a c ++ xorBytes b d := by
  simp [xorBytes, List.zipWith_append h]

/-- Exclusive or with the same keystream twice gives the data back. -/
theorem xorBytes_cancel : ∀ (a k : List Byte), a.length ≤ k.length → xorBytes (xorBytes a k) k = a
  | [], _, _ => by simp [xorBytes]
  | _ :: _, [], h => by simp at h
  | x :: a, y :: k, h => by
    have ih := xorBytes_cancel a k (by simpa using h)
    simp only [xorBytes, List.zipWith_cons_cons, List.cons.injEq] at ih ⊢
    exact ⟨by rw [BitVec.xor_assoc, BitVec.xor_self, BitVec.xor_zero], ih⟩

@[simp] theorem length_cryptPayload (data : List Byte) (b : Bank) : (b.cryptPayload data).length = data.length := by
  simp [Bank.cryptPayload, (crypto.ksPay b.k2 b.iv b.aeadPos.toNat data.length).property]

/-! ### The guard -/

theorem guarded_of_accepting {s : State} (h : s.Accepting) (f : State → State) : s.guarded f = f s := by
  simp [State.guarded, h.1, h.2]

theorem guarded_of_faulted {s : State} (h : s.fault ≠ 0) (f : State → State) : s.guarded f = s.refuse := by
  rw [State.guarded, if_pos h]

theorem guarded_of_notLive {s : State} (hf : s.fault = 0) (hl : s.live = false) (f : State → State) :
    s.guarded f = s.raise .notLive [] := by
  simp [State.guarded, hf, hl]

/-- Everything `guarded` can do (R130). -/
theorem guarded_cases (s : State) (f : State → State) :
    (s.fault ≠ 0 ∧ s.guarded f = s.refuse) ∨
    (s.fault = 0 ∧ s.live = false ∧ s.guarded f = s.raise .notLive []) ∨
    (s.Accepting ∧ s.guarded f = f s) := by
  by_cases hf : s.fault = 0
  · cases hl : s.live
    · exact .inr (.inl ⟨hf, rfl, guarded_of_notLive hf hl f⟩)
    · exact .inr (.inr ⟨⟨hf, hl⟩, guarded_of_accepting ⟨hf, hl⟩ f⟩)
  · exact .inl ⟨hf, guarded_of_faulted hf f⟩

/-- Everything `illegalCommand` can do (R98, R130). -/
theorem illegalCommand_cases (s : State) (tx : List Byte) :
    (s.fault ≠ 0 ∧ alwaysAccepted tx = false ∧ s.illegalCommand tx = s.refuse) ∨
    ((s.fault = 0 ∨ alwaysAccepted tx = true) ∧ s.illegalCommand tx = s.raise .illegalCmd []) := by
  unfold State.illegalCommand
  by_cases h : s.fault ≠ 0 ∧ alwaysAccepted tx = false
  · exact .inl ⟨h.1, h.2, if_pos h⟩
  · refine .inr ⟨?_, if_neg h⟩
    by_cases hf : s.fault = 0
    · exact .inl hf
    · exact .inr (by simpa using fun ha => h ⟨hf, ha⟩)

/-! ### Runs -/

@[simp] theorem bind_done {σ α β : Type} (a : α) (s : σ) (f : α → σ → Run σ β) : (Run.done a s).bind f = f a s := rfl

@[simp] theorem bind_raised {σ α β : Type} (c : FaultCode) (s : σ) (f : α → σ → Run σ β) :
    (Run.raised c s : Run σ α).bind f = .raised c s := rfl

theorem bind_eq_done {σ α β : Type} {r : Run σ α} {f : α → σ → Run σ β} {b : β} {t : σ} :
    r.bind f = .done b t ↔ ∃ a s, r = .done a s ∧ f a s = .done b t := by
  cases r <;> simp

theorem bind_eq_raised {σ α β : Type} {r : Run σ α} {f : α → σ → Run σ β} {c : FaultCode} {t : σ} :
    r.bind f = .raised c t ↔ r = .raised c t ∨ ∃ a s, r = .done a s ∧ f a s = .raised c t := by
  cases r <;> simp

/-! ### Micro-operations on one bank -/

theorem needKeyed_of_keyed {b : Bank} (h : b.keyed = true) : b.needKeyed = .done () b := by
  simp [Bank.needKeyed, h]

theorem needKeyed_of_unkeyed {b : Bank} (h : b.keyed = false) : b.needKeyed = .raised .notKeyed b := by
  simp [Bank.needKeyed, h]

theorem needKeyed_eq_done {b b' : Bank} : b.needKeyed = .done () b' ↔ b.keyed = true ∧ b' = b := by
  cases h : b.keyed <;> simp [Bank.needKeyed, h, eq_comm]

theorem needKeyed_eq_raised {b b' : Bank} {c : FaultCode} :
    b.needKeyed = .raised c b' ↔ b.keyed = false ∧ c = .notKeyed ∧ b' = b := by
  cases h : b.keyed <;> simp [Bank.needKeyed, h, eq_comm]

theorem load_of_unkeyed {b : Bank} (h : b.keyed = false) (now : BitVec 64) (k1 k2 sid : Bytes 32) :
    b.load now k1 k2 sid = .done () { b with
      keyed := true, k1 := k1, k2 := k2, sid := sid, seq := 0, sizePos := 0, aeadPos := 0, macData := [],
      macFinal := false, lastRekeyTime := now } := by
  simp [Bank.load, h, Bank.cipherInit]

theorem load_of_keyed {b : Bank} (h : b.keyed = true) (now : BitVec 64) (k1 k2 sid : Bytes 32) :
    b.load now k1 k2 sid = .raised .alreadyKeyed b := by
  simp [Bank.load, h]

theorem sequence_of_keyed {b : Bank} (h : b.keyed = true) :
    b.sequence = .done () { b with
      seq := b.seq + 1, sizePos := 0, aeadPos := 0, macData := [], macFinal := false } := by
  simp [Bank.sequence, needKeyed_of_keyed h, Bank.cipherInit]

theorem rekeyWith_of_keyed {b : Bank} (h : b.keyed = true) (k1 k2 : Bytes 32) :
    b.rekeyWith k1 k2 = .done () { b with
      k1 := k1, k2 := k2, sizePos := 0, aeadPos := 0, macData := [], macFinal := false } := by
  simp [Bank.rekeyWith, needKeyed_of_keyed h, Bank.cipherInit]

theorem rekey_of_keyed {b : Bank} (h : b.keyed = true) :
    b.rekey = .done () { b with
      k1 := nextKey b.sid b.k1, k2 := nextKey b.sid b.k2, sizePos := 0, aeadPos := 0, macData := [],
      macFinal := false } := rekeyWith_of_keyed h _ _

theorem cryptSize_of_keyed {b : Bank} (h : b.keyed = true) (hp : b.sizePos.toNat + 4 ≤ Config.ksLimit)
    (buf : List Byte) :
    b.cryptSize buf = .done (xorBytes buf (crypto.ksSize b.k1 b.iv b.sizePos.toNat 4).val)
      { b with sizePos := b.sizePos + 4 } := by
  have hp' : ¬ (b.sizePos.toNat + Config.sizeLen > Config.ksLimit) := by simp only [Config.sizeLen]; omega
  simp only [Bank.cryptSize, needKeyed_of_keyed h, bind_done, if_neg hp']
  rfl

theorem cryptSize_past_limit {b : Bank} (h : b.keyed = true) (hp : Config.ksLimit < b.sizePos.toNat + 4)
    (buf : List Byte) : b.cryptSize buf = .raised .ksLimit b := by
  have hp' : b.sizePos.toNat + Config.sizeLen > Config.ksLimit := by simpa only [Config.sizeLen]
  simp only [Bank.cryptSize, needKeyed_of_keyed h, bind_done, if_pos hp']

theorem encrypt_of_keyed {b : Bank} (h : b.keyed = true) (hm : b.macFinal = false) {data : List Byte}
    (hp : b.aeadPos.toNat + data.length ≤ Config.ksLimit) :
    b.encrypt data = .done (b.cryptPayload data)
      { b with
        aeadPos := b.aeadPos + BitVec.ofNat 64 data.length
        macData := b.macData ++ b.cryptPayload data } := by
  simp [Bank.encrypt, needKeyed_of_keyed h, hm, Bank.payloadPastLimit, hp]

theorem decrypt_of_keyed {b : Bank} (h : b.keyed = true) {data : List Byte}
    (hp : b.aeadPos.toNat + data.length ≤ Config.ksLimit) :
    b.decrypt data = .done (b.cryptPayload data)
      { b with
        aeadPos := b.aeadPos + BitVec.ofNat 64 data.length
        macData := if b.macFinal then b.macData else b.macData ++ data } := by
  simp [Bank.decrypt, needKeyed_of_keyed h, Bank.payloadPastLimit, hp]

theorem auth_of_keyed {b : Bank} (h : b.keyed = true) (hm : b.macFinal = false) (data : List Byte) :
    b.auth data = .done () { b with macData := b.macData ++ data } := by
  simp [Bank.auth, needKeyed_of_keyed h, hm]

theorem final_of_keyed {b : Bank} (h : b.keyed = true) (hm : b.macFinal = false) :
    b.final = .done b.currentTag.val { b with tag := b.currentTag, tagValid := true, macFinal := true } := by
  simp [Bank.final, needKeyed_of_keyed h, hm]

theorem verify_of_valid {b : Bank} (h : b.tagValid = true) (t : List Byte) :
    b.verify t = .done (decide (b.tag.val = t)) b := by
  simp [Bank.verify, h]

theorem verify_of_invalid {b : Bank} (h : b.tagValid = false) (t : List Byte) :
    b.verify t = .raised .noTag b := by
  simp [Bank.verify, h]

/-- Everything `load` can do (R135). -/
theorem load_cases (b : Bank) (now : BitVec 64) (k1 k2 sid : Bytes 32) :
    (b.keyed = true ∧ b.load now k1 k2 sid = .raised .alreadyKeyed b) ∨
    (b.keyed = false ∧ b.load now k1 k2 sid = .done () { b with
      keyed := true, k1 := k1, k2 := k2, sid := sid, seq := 0, sizePos := 0, aeadPos := 0, macData := [],
      macFinal := false, lastRekeyTime := now }) := by
  rcases (Bool.eq_false_or_eq_true b.keyed).symm with h | h
  · exact .inr ⟨h, load_of_unkeyed h ..⟩
  · exact .inl ⟨h, load_of_keyed h ..⟩

/-- Everything `sequence` can do (R136). -/
theorem sequence_cases (b : Bank) :
    (b.keyed = false ∧ b.sequence = .raised .notKeyed b) ∨
    (b.keyed = true ∧ b.sequence = .done () { b with
      seq := b.seq + 1, sizePos := 0, aeadPos := 0, macData := [], macFinal := false }) := by
  rcases (Bool.eq_false_or_eq_true b.keyed).symm with h | h
  · exact .inl ⟨h, by simp [Bank.sequence, needKeyed_of_unkeyed h]⟩
  · exact .inr ⟨h, sequence_of_keyed h⟩

/-- Everything `rekeyWith` can do (R184). -/
theorem rekeyWith_cases (b : Bank) (k1 k2 : Bytes 32) :
    (b.keyed = false ∧ b.rekeyWith k1 k2 = .raised .notKeyed b) ∨
    (b.keyed = true ∧ b.rekeyWith k1 k2 = .done () { b with
      k1 := k1, k2 := k2, sizePos := 0, aeadPos := 0, macData := [], macFinal := false }) := by
  rcases (Bool.eq_false_or_eq_true b.keyed).symm with h | h
  · exact .inl ⟨h, by simp [Bank.rekeyWith, needKeyed_of_unkeyed h]⟩
  · exact .inr ⟨h, rekeyWith_of_keyed h _ _⟩

/-- Everything `rekey` can do (R183). -/
theorem rekey_cases (b : Bank) :
    (b.keyed = false ∧ b.rekey = .raised .notKeyed b) ∨
    (b.keyed = true ∧ b.rekey = .done () { b with
      k1 := nextKey b.sid b.k1, k2 := nextKey b.sid b.k2, sizePos := 0, aeadPos := 0, macData := [],
      macFinal := false }) := rekeyWith_cases b _ _

/-- Everything `cryptSize` can do (R137, R138). -/
theorem cryptSize_cases (b : Bank) (buf : List Byte) :
    (b.keyed = false ∧ b.cryptSize buf = .raised .notKeyed b) ∨
    (b.keyed = true ∧ Config.ksLimit < b.sizePos.toNat + 4 ∧ b.cryptSize buf = .raised .ksLimit b) ∨
    (b.keyed = true ∧ b.sizePos.toNat + 4 ≤ Config.ksLimit ∧
      b.cryptSize buf = .done (xorBytes buf (crypto.ksSize b.k1 b.iv b.sizePos.toNat 4).val)
        { b with sizePos := b.sizePos + 4 }) := by
  rcases (Bool.eq_false_or_eq_true b.keyed).symm with h | h
  · exact .inl ⟨h, by simp [Bank.cryptSize, needKeyed_of_unkeyed h]⟩
  · by_cases hp : b.sizePos.toNat + 4 ≤ Config.ksLimit
    · exact .inr (.inr ⟨h, hp, cryptSize_of_keyed h hp buf⟩)
    · exact .inr (.inl ⟨h, by omega, cryptSize_past_limit h (by omega) buf⟩)

/-- Everything `encrypt` can do (R139). -/
theorem encrypt_cases (b : Bank) (data : List Byte) :
    (b.keyed = false ∧ b.encrypt data = .raised .notKeyed b) ∨
    (b.keyed = true ∧ b.macFinal = true ∧ b.encrypt data = .raised .macFinal b) ∨
    (b.keyed = true ∧ b.macFinal = false ∧ Config.ksLimit < b.aeadPos.toNat + data.length ∧
      b.encrypt data = .raised .ksLimit b) ∨
    (b.keyed = true ∧ b.macFinal = false ∧ b.aeadPos.toNat + data.length ≤ Config.ksLimit ∧
      b.encrypt data = .done (b.cryptPayload data)
        { b with
          aeadPos := b.aeadPos + BitVec.ofNat 64 data.length
          macData := b.macData ++ b.cryptPayload data }) := by
  rcases (Bool.eq_false_or_eq_true b.keyed).symm with h | h
  · exact .inl ⟨h, by simp [Bank.encrypt, needKeyed_of_unkeyed h]⟩
  · rcases (Bool.eq_false_or_eq_true b.macFinal).symm with hm | hm
    · by_cases hp : b.aeadPos.toNat + data.length ≤ Config.ksLimit
      · exact .inr (.inr (.inr ⟨h, hm, hp, encrypt_of_keyed h hm hp⟩))
      · refine .inr (.inr (.inl ⟨h, hm, by omega, ?_⟩))
        simp [Bank.encrypt, needKeyed_of_keyed h, hm, Bank.payloadPastLimit, Nat.lt_of_not_le hp]
    · exact .inr (.inl ⟨h, hm, by simp [Bank.encrypt, needKeyed_of_keyed h, hm]⟩)

/-- Everything `decrypt` can do (R140). -/
theorem decrypt_cases (b : Bank) (data : List Byte) :
    (b.keyed = false ∧ b.decrypt data = .raised .notKeyed b) ∨
    (b.keyed = true ∧ Config.ksLimit < b.aeadPos.toNat + data.length ∧ b.decrypt data = .raised .ksLimit b) ∨
    (b.keyed = true ∧ b.aeadPos.toNat + data.length ≤ Config.ksLimit ∧
      b.decrypt data = .done (b.cryptPayload data)
        { b with
          aeadPos := b.aeadPos + BitVec.ofNat 64 data.length
          macData := if b.macFinal then b.macData else b.macData ++ data }) := by
  rcases (Bool.eq_false_or_eq_true b.keyed).symm with h | h
  · exact .inl ⟨h, by simp [Bank.decrypt, needKeyed_of_unkeyed h]⟩
  · by_cases hp : b.aeadPos.toNat + data.length ≤ Config.ksLimit
    · exact .inr (.inr ⟨h, hp, decrypt_of_keyed h hp⟩)
    · refine .inr (.inl ⟨h, by omega, ?_⟩)
      simp [Bank.decrypt, needKeyed_of_keyed h, Bank.payloadPastLimit, Nat.lt_of_not_le hp]

/-- Everything `auth` can do (R141). -/
theorem auth_cases (b : Bank) (data : List Byte) :
    (b.keyed = false ∧ b.auth data = .raised .notKeyed b) ∨
    (b.keyed = true ∧ b.macFinal = true ∧ b.auth data = .raised .macFinal b) ∨
    (b.keyed = true ∧ b.macFinal = false ∧ b.auth data = .done () { b with macData := b.macData ++ data }) := by
  rcases (Bool.eq_false_or_eq_true b.keyed).symm with h | h
  · exact .inl ⟨h, by simp [Bank.auth, needKeyed_of_unkeyed h]⟩
  · rcases (Bool.eq_false_or_eq_true b.macFinal).symm with hm | hm
    · exact .inr (.inr ⟨h, hm, auth_of_keyed h hm data⟩)
    · exact .inr (.inl ⟨h, hm, by simp [Bank.auth, needKeyed_of_keyed h, hm]⟩)

/-- Everything `final` can do (R142). -/
theorem final_cases (b : Bank) :
    (b.keyed = false ∧ b.final = .raised .notKeyed b) ∨
    (b.keyed = true ∧ b.macFinal = true ∧ b.final = .raised .macFinal b) ∨
    (b.keyed = true ∧ b.macFinal = false ∧
      b.final = .done b.currentTag.val { b with tag := b.currentTag, tagValid := true, macFinal := true }) := by
  rcases (Bool.eq_false_or_eq_true b.keyed).symm with h | h
  · exact .inl ⟨h, by simp [Bank.final, needKeyed_of_unkeyed h]⟩
  · rcases (Bool.eq_false_or_eq_true b.macFinal).symm with hm | hm
    · exact .inr (.inr ⟨h, hm, final_of_keyed h hm⟩)
    · exact .inr (.inl ⟨h, hm, by simp [Bank.final, needKeyed_of_keyed h, hm]⟩)

/-- Everything `verify` can do (R143). -/
theorem verify_cases (b : Bank) (t : List Byte) :
    (b.tagValid = false ∧ b.verify t = .raised .noTag b) ∨
    (b.tagValid = true ∧ b.verify t = .done (decide (b.tag.val = t)) b) := by
  rcases (Bool.eq_false_or_eq_true b.tagValid).symm with h | h
  · exact .inl ⟨h, verify_of_invalid h t⟩
  · exact .inr ⟨h, verify_of_valid h t⟩

/-- When the trigger fires (R180, R181). -/
theorem rekeyDue_iff {now last : BitVec 64} {p : Nat} :
    rekeyDue now last p = true ↔ last.toNat + 10 ≤ now.toNat ∨ 2 ^ 30 ≤ p := by
  have h : Config.hwm = 2 ^ 30 := by decide
  simp [rekeyDue, Config.rekeySeconds, h]

/-- Everything `shouldRekey` can do (R181). -/
theorem shouldRekey_cases (b : Bank) (now : BitVec 64) (n : Nat) :
    (b.keyed = false ∧ b.shouldRekey now n = .raised .notKeyed b) ∨
    (b.keyed = true ∧ 2 ^ 64 ≤ b.processed.toNat + n ∧ b.shouldRekey now n = .raised .range b) ∨
    (b.keyed = true ∧ b.processed.toNat + n < 2 ^ 64 ∧
      rekeyDue now b.lastRekeyTime (b.processed.toNat + n) = true ∧
      b.shouldRekey now n = .done true { b with processed := 0, lastRekeyTime := now }) ∨
    (b.keyed = true ∧ b.processed.toNat + n < 2 ^ 64 ∧
      rekeyDue now b.lastRekeyTime (b.processed.toNat + n) = false ∧
      b.shouldRekey now n = .done false { b with processed := b.processed + BitVec.ofNat 64 n }) := by
  rcases (Bool.eq_false_or_eq_true b.keyed).symm with h | h
  · exact .inl ⟨h, by simp [Bank.shouldRekey, needKeyed_of_unkeyed h]⟩
  · by_cases hr : 2 ^ 64 ≤ b.processed.toNat + n
    · refine .inr (.inl ⟨h, hr, ?_⟩)
      simp only [Bank.shouldRekey, needKeyed_of_keyed h, bind_done, ge_iff_le, if_pos hr]
    · cases hd : rekeyDue now b.lastRekeyTime (b.processed.toNat + n)
      · refine .inr (.inr (.inr ⟨h, by omega, rfl, ?_⟩))
        simp only [Bank.shouldRekey, needKeyed_of_keyed h, bind_done, ge_iff_le, if_neg hr, hd]
        rfl
      · refine .inr (.inr (.inl ⟨h, by omega, rfl, ?_⟩))
        simp only [Bank.shouldRekey, needKeyed_of_keyed h, bind_done, ge_iff_le, if_neg hr, hd]
        rfl

/-! ### Steps of the block -/

theorem onBank_of_done {α : Type} {s : State} {sel : BankSel} {op : Bank → Run Bank α} {a : α} {b : Bank}
    (h : op (s.bank sel) = .done a b) : s.onBank sel op = .done a (s.setBank sel b) := by
  simp [State.onBank, h]

theorem onBank_of_raised {α : Type} {s : State} {sel : BankSel} {op : Bank → Run Bank α} {c : FaultCode} {b : Bank}
    (h : op (s.bank sel) = .raised c b) : s.onBank sel op = .raised c (s.setBank sel b) := by
  simp [State.onBank, h]

theorem onBank_eq_done {α : Type} {s t : State} {sel : BankSel} {op : Bank → Run Bank α} {a : α} :
    s.onBank sel op = .done a t ↔ ∃ b, op (s.bank sel) = .done a b ∧ t = s.setBank sel b := by
  unfold State.onBank
  cases h : op (s.bank sel) <;> simp [eq_comm]

theorem onBank_eq_raised {α : Type} {s t : State} {sel : BankSel} {op : Bank → Run Bank α} {c : FaultCode} :
    s.onBank sel op = .raised c t ↔ ∃ b, op (s.bank sel) = .raised c b ∧ t = s.setBank sel b := by
  unfold State.onBank
  cases h : op (s.bank sel) <;> simp [eq_comm]

@[simp] theorem answer_done (events : List Event) (r : List Byte) (s : State) :
    answer events (.done r s) = s.respond ⟨statusOk, r, events⟩ := rfl

@[simp] theorem answer_raised (events : List Event) (c : FaultCode) (s : State) :
    answer events (.raised c s) = s.raise c events := rfl

/-- A micro-operation without result that ends, in an accepting block. -/
theorem runUnit_of_done {s : State} (h : s.Accepting) {sel : BankSel} {op : Bank → Run Bank Unit} {b : Bank}
    (hop : op (s.bank sel) = .done () b) : s.runUnit sel op = (s.setBank sel b).respond (okResponse []) := by
  simp [State.runUnit, guarded_of_accepting h, onBank_of_done hop, okResponse]

theorem runUnit_of_raised {s : State} (h : s.Accepting) {sel : BankSel} {op : Bank → Run Bank Unit} {c : FaultCode}
    {b : Bank} (hop : op (s.bank sel) = .raised c b) : s.runUnit sel op = (s.setBank sel b).raise c [] := by
  simp [State.runUnit, guarded_of_accepting h, onBank_of_raised hop]

/-- A micro-operation with a byte-string result that ends, in an accepting block. -/
theorem runBytes_of_done {s : State} (h : s.Accepting) {sel : BankSel} {op : Bank → Run Bank (List Byte)}
    {r : List Byte} {b : Bank} (hop : op (s.bank sel) = .done r b) :
    s.runBytes sel op = (s.setBank sel b).respond (okResponse r) := by
  simp [State.runBytes, guarded_of_accepting h, onBank_of_done hop, okResponse]

theorem runBytes_of_raised {s : State} (h : s.Accepting) {sel : BankSel} {op : Bank → Run Bank (List Byte)}
    {c : FaultCode} {b : Bank} (hop : op (s.bank sel) = .raised c b) :
    s.runBytes sel op = (s.setBank sel b).raise c [] := by
  simp [State.runBytes, guarded_of_accepting h, onBank_of_raised hop]

/-- A micro-operation with a true or false result that ends, in an accepting block. -/
theorem runBool_of_done {s : State} (h : s.Accepting) {sel : BankSel} {op : Bank → Run Bank Bool} {r : Bool} {b : Bank}
    (hop : op (s.bank sel) = .done r b) :
    s.runBool sel op = (s.setBank sel b).respond (okResponse (boolResult r)) := by
  simp [State.runBool, guarded_of_accepting h, onBank_of_done hop, okResponse]

theorem runBool_of_raised {s : State} (h : s.Accepting) {sel : BankSel} {op : Bank → Run Bank Bool} {c : FaultCode}
    {b : Bank} (hop : op (s.bank sel) = .raised c b) : s.runBool sel op = (s.setBank sel b).raise c [] := by
  simp [State.runBool, guarded_of_accepting h, onBank_of_raised hop]

/-- The three ways a guarded micro-operation can go, said once for its three result forms: refused, not live, or run on its
bank, where it answers or raises. -/
theorem runUnit_cases (s : State) (sel : BankSel) (op : Bank → Run Bank Unit) :
    (s.fault ≠ 0 ∧ s.runUnit sel op = s.refuse) ∨
    (s.fault = 0 ∧ s.live = false ∧ s.runUnit sel op = s.raise .notLive []) ∨
    (s.Accepting ∧ ∃ b, op (s.bank sel) = .done () b ∧
      s.runUnit sel op = (s.setBank sel b).respond (okResponse [])) ∨
    (s.Accepting ∧ ∃ c b, op (s.bank sel) = .raised c b ∧ s.runUnit sel op = (s.setBank sel b).raise c []) := by
  rcases guarded_cases s (fun s => answer [] ((s.onBank sel op).bind fun _ s => .done [] s)) with h | h | ⟨h, _⟩
  · exact .inl h
  · exact .inr (.inl h)
  · cases hop : op (s.bank sel) with
    | done a b => exact .inr (.inr (.inl ⟨h, b, rfl, runUnit_of_done h hop⟩))
    | raised c b => exact .inr (.inr (.inr ⟨h, c, b, rfl, runUnit_of_raised h hop⟩))

theorem runBytes_cases (s : State) (sel : BankSel) (op : Bank → Run Bank (List Byte)) :
    (s.fault ≠ 0 ∧ s.runBytes sel op = s.refuse) ∨
    (s.fault = 0 ∧ s.live = false ∧ s.runBytes sel op = s.raise .notLive []) ∨
    (s.Accepting ∧ ∃ r b, op (s.bank sel) = .done r b ∧
      s.runBytes sel op = (s.setBank sel b).respond (okResponse r)) ∨
    (s.Accepting ∧ ∃ c b, op (s.bank sel) = .raised c b ∧ s.runBytes sel op = (s.setBank sel b).raise c []) := by
  rcases guarded_cases s (fun s => answer [] (s.onBank sel op)) with h | h | ⟨h, _⟩
  · exact .inl h
  · exact .inr (.inl h)
  · cases hop : op (s.bank sel) with
    | done a b => exact .inr (.inr (.inl ⟨h, a, b, rfl, runBytes_of_done h hop⟩))
    | raised c b => exact .inr (.inr (.inr ⟨h, c, b, rfl, runBytes_of_raised h hop⟩))

theorem runBool_cases (s : State) (sel : BankSel) (op : Bank → Run Bank Bool) :
    (s.fault ≠ 0 ∧ s.runBool sel op = s.refuse) ∨
    (s.fault = 0 ∧ s.live = false ∧ s.runBool sel op = s.raise .notLive []) ∨
    (s.Accepting ∧ ∃ r b, op (s.bank sel) = .done r b ∧
      s.runBool sel op = (s.setBank sel b).respond (okResponse (boolResult r))) ∨
    (s.Accepting ∧ ∃ c b, op (s.bank sel) = .raised c b ∧ s.runBool sel op = (s.setBank sel b).raise c []) := by
  rcases guarded_cases s (fun s => answer [] ((s.onBank sel op).bind fun t s => .done (boolResult t) s)) with
    h | h | ⟨h, _⟩
  · exact .inl h
  · exact .inr (.inl h)
  · cases hop : op (s.bank sel) with
    | done a b => exact .inr (.inr (.inl ⟨h, a, b, rfl, runBool_of_done h hop⟩))
    | raised c b => exact .inr (.inr (.inr ⟨h, c, b, rfl, runBool_of_raised h hop⟩))

/-! ### The receive queue -/

/-- The overflow test is the test of R66 against `Config.rxqCapacity`. -/
theorem rxqOverflows_iff (total n : Nat) :
    rxqOverflows Config.rxqExtra total n = true ↔ ∃ cap, Config.rxqCapacity = some cap ∧ cap < total + n := by
  unfold rxqOverflows Config.rxqCapacity
  cases Config.rxqExtra with
  | none => simp
  | some e => simp; omega

/-- A queue that holds no more than the least capacity R8 allows has not overflowed. -/
theorem rxqOverflows_of_le {extra : Option Nat} {total n : Nat} (h : total + n ≤ 12000016) :
    rxqOverflows extra total n = false := by
  have : ¬ (total + n > Config.rxqMinCapacity) := by
    simp only [Config.rxqMinCapacity, Config.maxMessage, Config.tagLen]; omega
  simp [rxqOverflows, this]

end Sys2Proof.Machine
end

