-- ==== Sys2Proof/Laws/Commands.lean ====
section
/-! SUPPORT. What every command has in common: the guard, the form of a micro-operation, and what an answer looks like byte
by byte. -/
namespace Sys2Proof.Machine

/-! ### Answers byte by byte -/

@[simp] theorem lengthBytes32_zero : lengthBytes32 0 = [0, 0, 0, 0] := by
  simp [lengthBytes32, lengthField32, le32, leBytes]

/-- A response without result and events. -/
theorem encode_plain (status : BitVec 8) : (Response.mk status [] []).encode = [status, 0, 0, 0, 0, 0, 0, 0, 0] := by
  simp [Response.encode]

/-- The status is the first byte of a response (R100). -/
theorem encode_status (r : Response) : ∃ rest, r.encode = r.status :: rest := ⟨_, rfl⟩

/-- A raise without events in an unfaulted block, byte by byte (R345). -/
theorem raise_eq_faultedWith {s : State} (h : s.fault = 0) (c : FaultCode) : s.raise c [] = s.faultedWith c.byte := by
  simp [State.raise, State.faultedWith, State.respond, faultResponse, encode_plain, h]

/-- A refusal byte by byte (R347). -/
theorem refuse_eq (s : State) : s.refuse = { s with rsp := s.rsp ++ [[0x02, 0, 0, 0, 0, 0, 0, 0, 0]] } := by
  simp [State.refuse, State.respond, encode_plain, statusFaulted]

/-- The codes of R346 are not 0, so that a raise is seen in `fault`. -/
theorem faultCode_byte_ne_zero (c : FaultCode) : c.byte ≠ 0 := by
  cases c <;> decide

theorem faultCode_byte_range (c : FaultCode) : 0x10 ≤ c.byte.toNat ∧ c.byte.toNat ≤ 0x19 := by
  cases c <;> decide

theorem faultCode_byte_injective {c d : FaultCode} (h : c.byte = d.byte) : c = d := by
  revert h; cases c <;> cases d <;> decide

theorem raise_fault_ne_zero (s : State) (c : FaultCode) (events : List Event) : (s.raise c events).fault ≠ 0 := by
  rw [raise_fault]
  split
  · exact faultCode_byte_ne_zero c
  · assumption

/-! ### The form of a command -/

/-- Every command but NEW, DESTROY and RDREG is guarded (R130). -/
theorem exec_guarded {i : Instr} (h : i.unguarded = false) : ∃ f : State → State, ∀ s, exec i s = .next (s.guarded f) := by
  cases i <;> simp only [Instr.unguarded, reduceCtorEq] at h <;> exact ⟨_, fun _ => rfl⟩

/-- Every command answers a next state: no fault and no refusal of the model's own. -/
theorem exec_next (i : Instr) (s : State) : ∃ t, exec i s = .next t := by
  cases i <;> exact ⟨_, rfl⟩

/-! ### A raise in a micro-operation writes nothing (R345, R354) -/

theorem load_raised {b b' : Bank} {now : BitVec 64} {k1 k2 sid : Bytes 32} {c : FaultCode}
    (h : b.load now k1 k2 sid = .raised c b') : b' = b := by
  rcases load_cases b now k1 k2 sid with ⟨_, h'⟩ | ⟨_, h'⟩ <;> rw [h'] at h <;> cases h <;> rfl

theorem sequence_raised {b b' : Bank} {c : FaultCode} (h : b.sequence = .raised c b') : b' = b := by
  rcases sequence_cases b with ⟨_, h'⟩ | ⟨_, h'⟩ <;> rw [h'] at h <;> cases h <;> rfl

theorem rekeyWith_raised {b b' : Bank} {k1 k2 : Bytes 32} {c : FaultCode} (h : b.rekeyWith k1 k2 = .raised c b') :
    b' = b := by
  rcases rekeyWith_cases b k1 k2 with ⟨_, h'⟩ | ⟨_, h'⟩ <;> rw [h'] at h <;> cases h <;> rfl

theorem cryptSize_raised {b b' : Bank} {buf : List Byte} {c : FaultCode} (h : b.cryptSize buf = .raised c b') :
    b' = b := by
  rcases cryptSize_cases b buf with ⟨_, h'⟩ | ⟨_, _, h'⟩ | ⟨_, _, h'⟩ <;> rw [h'] at h <;> cases h <;> rfl

theorem encrypt_raised {b b' : Bank} {data : List Byte} {c : FaultCode} (h : b.encrypt data = .raised c b') :
    b' = b := by
  rcases encrypt_cases b data with ⟨_, h'⟩ | ⟨_, _, h'⟩ | ⟨_, _, _, h'⟩ | ⟨_, _, _, h'⟩ <;> rw [h'] at h <;> cases h <;> rfl

theorem decrypt_raised {b b' : Bank} {data : List Byte} {c : FaultCode} (h : b.decrypt data = .raised c b') :
    b' = b := by
  rcases decrypt_cases b data with ⟨_, h'⟩ | ⟨_, _, h'⟩ | ⟨_, _, h'⟩ <;> rw [h'] at h <;> cases h <;> rfl

theorem auth_raised {b b' : Bank} {data : List Byte} {c : FaultCode} (h : b.auth data = .raised c b') : b' = b := by
  rcases auth_cases b data with ⟨_, h'⟩ | ⟨_, _, h'⟩ | ⟨_, _, h'⟩ <;> rw [h'] at h <;> cases h <;> rfl

theorem final_raised {b b' : Bank} {c : FaultCode} (h : b.final = .raised c b') : b' = b := by
  rcases final_cases b with ⟨_, h'⟩ | ⟨_, _, h'⟩ | ⟨_, _, h'⟩ <;> rw [h'] at h <;> cases h <;> rfl

theorem verify_raised {b b' : Bank} {t : List Byte} {c : FaultCode} (h : b.verify t = .raised c b') : b' = b := by
  rcases verify_cases b t with ⟨_, h'⟩ | ⟨_, h'⟩ <;> rw [h'] at h <;> cases h <;> rfl

theorem shouldRekey_raised {b b' : Bank} {now : BitVec 64} {n : Nat} {c : FaultCode}
    (h : b.shouldRekey now n = .raised c b') : b' = b := by
  rcases shouldRekey_cases b now n with ⟨_, h'⟩ | ⟨_, _, h'⟩ | ⟨_, _, _, h'⟩ | ⟨_, _, _, h'⟩ <;> rw [h'] at h <;>
    cases h <;> rfl

/-- A micro-operation is a run on the bank it names, guarded and answered without events (R130, R132); a raise in it leaves
the bank as it was (R345). -/
theorem exec_micro {i : Instr} {sel : BankSel} (h : i.microOn sel = true) :
    ∃ op : Bank → Run Bank (List Byte), (∀ b c b', op b = .raised c b' → b' = b) ∧
      ∀ s, exec i s = .next (s.guarded fun s => answer [] (s.onBank sel op)) := by
  have unit (op : Bank → Run Bank Unit) (hop : ∀ b c b', op b = .raised c b' → b' = b) :
      ∃ op' : Bank → Run Bank (List Byte), (∀ b c b', op' b = .raised c b' → b' = b) ∧
        ∀ s : State, s.runUnit sel op = s.guarded fun s => answer [] (s.onBank sel op') := by
    refine ⟨fun b => (op b).bind fun _ b => .done [] b, fun b c b' h => ?_, fun s => congrArg s.guarded (funext fun s => ?_)⟩
    · rcases bind_eq_raised.mp h with h | ⟨_, _, _, h⟩
      · exact hop b c b' h
      · cases h
    · simp only [State.onBank]
      cases op (s.bank sel) <;> rfl
  have bool (op : Bank → Run Bank Bool) (hop : ∀ b c b', op b = .raised c b' → b' = b) :
      ∃ op' : Bank → Run Bank (List Byte), (∀ b c b', op' b = .raised c b' → b' = b) ∧
        ∀ s : State, s.runBool sel op = s.guarded fun s => answer [] (s.onBank sel op') := by
    refine ⟨fun b => (op b).bind fun t b => .done (boolResult t) b, fun b c b' h => ?_,
      fun s => congrArg s.guarded (funext fun s => ?_)⟩
    · rcases bind_eq_raised.mp h with h | ⟨_, _, _, h⟩
      · exact hop b c b' h
      · cases h
    · simp only [State.onBank]
      cases op (s.bank sel) <;> rfl
  have lift {f : State → State} (op : ∃ op : Bank → Run Bank (List Byte), (∀ b c b', op b = .raised c b' → b' = b) ∧
      ∀ s : State, f s = s.guarded fun s => answer [] (s.onBank sel op)) :
      ∃ op : Bank → Run Bank (List Byte), (∀ b c b', op b = .raised c b' → b' = b) ∧
        ∀ s : State, (.next (f s) : Host.Outcome State Fault Refusal)
          = .next (s.guarded fun s => answer [] (s.onBank sel op)) := by
    obtain ⟨op, h1, h2⟩ := op
    exact ⟨op, h1, fun s => congrArg _ (h2 s)⟩
  cases i <;> simp only [Instr.microOn, beq_iff_eq, Bool.false_eq_true] at h <;> subst h
  case init => exact lift (unit _ fun _ _ _ => load_raised)
  case rekey => exact lift (unit _ fun _ _ _ => rekeyWith_raised)
  case rekeyx => exact lift (unit _ fun _ _ _ => rekeyWith_raised)
  case shouldrekey => exact lift (bool _ fun _ _ _ => shouldRekey_raised)
  case sequence => exact lift (unit _ fun _ _ _ => sequence_raised)
  case encsize => exact ⟨_, fun _ _ _ => cryptSize_raised, fun _ => rfl⟩
  case decsize => exact ⟨_, fun _ _ _ => cryptSize_raised, fun _ => rfl⟩
  case encrypt => exact ⟨_, fun _ _ _ => encrypt_raised, fun _ => rfl⟩
  case decrypt => exact ⟨_, fun _ _ _ => decrypt_raised, fun _ => rfl⟩
  case auth => exact lift (unit _ fun _ _ _ => auth_raised)
  case final => exact ⟨_, fun _ _ _ => final_raised, fun _ => rfl⟩
  case verify => exact lift (bool _ fun _ _ _ => verify_raised)

/-! ### Commands one after another -/

@[simp] theorem execAll_nil (s : State) : execAll [] s = .next s := rfl

theorem execAll_cons {i : Instr} {is : List Instr} {s t : State} (h : exec i s = .next t) :
    execAll (i :: is) s = execAll is t := by
  simp [execAll, h]

theorem execAll_next (is : List Instr) (s : State) : ∃ t, execAll is s = .next t := by
  induction is generalizing s with
  | nil => exact ⟨s, rfl⟩
  | cons i is ih =>
    obtain ⟨t, ht⟩ := exec_next i s
    rw [execAll_cons ht]
    exact ih t

/-- What an instruction row's word fetches: the step after `withFetchWord` runs it. -/
theorem step_withFetchWord {s : State} {nbits w : Nat} {i : Instr} (h : decodeTableWord nbits w = some i) :
    step (s.withFetchWord nbits w) = exec i s := by
  unfold decodeTableWord at h
  have hc : (s.withFetchWord nbits w).cmd = tableTransaction nbits w :: s.cmd := rfl
  cases hd : decode (tableTransaction nbits w) with
  | error e => simp [hd] at h
  | ok j =>
    simp only [hd, Option.some.injEq] at h
    simp only [step, takeCommand_cons hc, hd, h]
    rfl

end Sys2Proof.Machine
end

