-- ==== Sys2Proof/Laws/Framing.lean ====
section
/-! SUPPORT. What the framing operations can do, said once: PACK without its buffer, the two phases of the parser, one turn of
FEED's loop, and that the turns the loop is given are enough. -/
namespace Sys2Proof.Machine

/-! ### Lengths and the transmit buffer -/

theorem length_csEncode (n : Nat) : (csEncode n).length = csLen n := by
  unfold csEncode csLen
  split_ifs <;> simp

theorem length_varstring (x : List Byte) : (varstring x).length = varstringLen x := by
  simp [varstring, varstringLen, length_csEncode]

theorem length_innerMessage (cmd body : List Byte) : (innerMessage cmd body).length = payloadSize cmd body := by
  simp [innerMessage, payloadSize, length_varstring]
  omega

theorem txRead_size (a p z : List Byte) (h : a.length = 4) : txRead (a ++ (p ++ z)) 0 4 = a := by
  simp [txRead, ← h]

theorem txRead_payload (a p z : List Byte) (h : a.length = 4) : txRead (a ++ (p ++ z)) 4 p.length = p := by
  simp [txRead, ← h]

theorem txWrite_size (a p z v : List Byte) (h : v.length = a.length) :
    txWrite (a ++ (p ++ z)) 0 v = v ++ (p ++ z) := by
  simp [txWrite, h]

theorem txWrite_payload (a p z v : List Byte) (ha : a.length = 4) (h : v.length = p.length) :
    txWrite (a ++ (p ++ z)) 4 v = a ++ (v ++ z) := by
  simp [txWrite, ← ha, h]

theorem txWrite_tag (a p z v : List Byte) {n : Nat} (hn : n = a.length + p.length) (h : v.length = z.length) :
    txWrite (a ++ (p ++ z)) n v = a ++ (p ++ v) := by
  subst hn
  have h1 : a ++ (p ++ z) = (a ++ p) ++ z := by simp
  have h2 : a.length + p.length = (a ++ p).length := by simp
  simp only [txWrite]
  rw [h1, h2, List.take_left, ← List.drop_drop, List.drop_left, h, List.drop_length]
  simp

theorem length_of_cryptSize {b b' : Bank} {buf r : List Byte} (h : b.cryptSize buf = .done r b') (hb : buf.length = 4) :
    r.length = 4 := by
  rcases cryptSize_cases b buf with ⟨_, h'⟩ | ⟨_, _, h'⟩ | ⟨_, _, h'⟩ <;> rw [h'] at h <;> cases h
  rw [length_xorBytes, hb, (crypto.ksSize b.k1 b.iv b.sizePos.toNat 4).property]
  rfl

theorem length_of_encrypt {b b' : Bank} {data r : List Byte} (h : b.encrypt data = .done r b') :
    r.length = data.length := by
  rcases encrypt_cases b data with ⟨_, h'⟩ | ⟨_, _, h'⟩ | ⟨_, _, _, h'⟩ | ⟨_, _, _, h'⟩ <;> rw [h'] at h <;> cases h
  exact length_cryptPayload data b

theorem length_of_final {b b' : Bank} {r : List Byte} (h : b.final = .done r b') : r.length = 16 := by
  rcases final_cases b with ⟨_, h'⟩ | ⟨_, _, h'⟩ | ⟨_, _, h'⟩ <;> rw [h'] at h <;> cases h
  exact b.currentTag.property

/-- PACK after its trigger, without the buffer: the frame is the three results one after the other (R204 to R209). -/
theorem packFrame_eq (due : Bool) (cmd body : List Byte) (b : Bank) :
    b.packFrame due cmd body =
      (if due then b.rekey else .done () b).bind fun _ b =>
      (b.cryptSize (le32 (BitVec.ofNat 32 (payloadSize cmd body)))).bind fun size b =>
      (b.encrypt (innerMessage cmd body)).bind fun ct b =>
      b.final.bind fun tag b =>
      b.sequence.bind fun _ b =>
      .done (size ++ (ct ++ tag)) b := by
  simp only [Bank.packFrame, clearFrame]
  refine congrArg _ (funext fun _ => funext fun b => ?_)
  rw [txRead_size _ _ _ (length_le32 _)]
  cases hs : b.cryptSize (le32 (BitVec.ofNat 32 (payloadSize cmd body))) with
  | raised c b => rfl
  | done size b =>
    have hsize := length_of_cryptSize hs (length_le32 _)
    rw [bind_done, bind_done, txWrite_size _ _ _ _ (by rw [hsize, length_le32]), ← length_innerMessage,
      txRead_payload _ _ _ hsize]
    cases he : b.encrypt (innerMessage cmd body) with
    | raised c b => rfl
    | done ct b =>
      have hct := length_of_encrypt he
      rw [bind_done, bind_done, txWrite_payload _ _ _ _ hsize hct]
      cases hf : b.final with
      | raised c b => rfl
      | done tag b =>
        rw [bind_done, bind_done,
          txWrite_tag _ _ _ _ (by rw [hsize, hct]) (by simpa [Config.tagLen] using length_of_final hf)]

/-- Everything `packTrigger` can do (R202, R204). -/
theorem packTrigger_cases (now : BitVec 64) (cmd body : List Byte) (b : Bank) :
    (b.keyed = false ∧ b.packTrigger now cmd body = .raised .notKeyed b) ∨
    (b.keyed = true ∧ 2 ^ 32 ≤ payloadSize cmd body ∧ b.packTrigger now cmd body = .raised .range b) ∨
    (b.keyed = true ∧ payloadSize cmd body < 2 ^ 32 ∧
      b.packTrigger now cmd body = b.shouldRekey now (frameLength cmd body)) := by
  rcases (Bool.eq_false_or_eq_true b.keyed).symm with h | h
  · exact .inl ⟨h, by simp [Bank.packTrigger, needKeyed_of_unkeyed h]⟩
  · by_cases hp : payloadSize cmd body ≥ 2 ^ 32
    · exact .inr (.inl ⟨h, hp, by rw [Bank.packTrigger, needKeyed_of_keyed h, bind_done, if_pos hp]⟩)
    · exact .inr (.inr ⟨h, by omega, by rw [Bank.packTrigger, needKeyed_of_keyed h, bind_done, if_neg hp]⟩)

theorem packTrigger_raised {now : BitVec 64} {cmd body : List Byte} {b b' : Bank} {c : FaultCode}
    (h : b.packTrigger now cmd body = .raised c b') : b' = b := by
  rcases packTrigger_cases now cmd body b with ⟨_, h'⟩ | ⟨_, _, h'⟩ | ⟨_, _, h'⟩ <;> rw [h'] at h
  · cases h; rfl
  · cases h; rfl
  · exact shouldRekey_raised h

/-! ### The two phases -/

/-- Everything phase A can do (R225 to R228). -/
theorem phaseA_cases (chunk : List Byte) (s : State) :
    (s.inBank.keyed = false ∧ phaseA chunk s = .raised .notKeyed s) ∨
    (s.inBank.keyed = true ∧ Config.ksLimit < s.inBank.sizePos.toNat + 4 ∧ phaseA chunk s = .raised .ksLimit s) ∨
    (s.inBank.keyed = true ∧ s.inBank.sizePos.toNat + 4 ≤ Config.ksLimit ∧ ∃ size : Nat,
      size = rdle (xorBytes chunk (crypto.ksSize s.inBank.k1 s.inBank.iv s.inBank.sizePos.toNat 4).val) ∧
      (((size < 6 ∨ 12000000 < size) ∧ phaseA chunk s = .done [.badSize (BitVec.ofNat 32 size)]
          { s with inBank := { s.inBank with sizePos := s.inBank.sizePos + 4 }, halted := true }) ∨
       (6 ≤ size ∧ size ≤ 12000000 ∧ phaseA chunk s = .done []
          { s with
            inBank := { s.inBank with sizePos := s.inBank.sizePos + 4 }, hasSize := true
            waiting := BitVec.ofNat 32 (size + 16) }))) := by
  rcases cryptSize_cases s.inBank chunk with ⟨hk, h⟩ | ⟨hk, hl, h⟩ | ⟨hk, hl, h⟩
  · exact .inl ⟨hk, by simp only [phaseA, State.onBank, bank_input, h, bind_raised]; rfl⟩
  · exact .inr (.inl ⟨hk, hl, by simp only [phaseA, State.onBank, bank_input, h, bind_raised]; rfl⟩)
  · refine .inr (.inr ⟨hk, hl, _, rfl, ?_⟩)
    by_cases hb : rdle (xorBytes chunk (crypto.ksSize s.inBank.k1 s.inBank.iv s.inBank.sizePos.toNat 4).val) < 6 ∨
        12000000 < rdle (xorBytes chunk (crypto.ksSize s.inBank.k1 s.inBank.iv s.inBank.sizePos.toNat 4).val)
    · refine .inl ⟨hb, ?_⟩
      have hb' : _ < Config.minSize ∨ _ > Config.maxMessage := hb
      simp only [phaseA, State.onBank, bank_input, h, bind_done, if_pos hb']
      rfl
    · refine .inr ⟨by omega, by omega, ?_⟩
      have hb' : ¬ (_ < Config.minSize ∨ _ > Config.maxMessage) := hb
      simp only [phaseA, State.onBank, bank_input, h, bind_done, if_neg hb']
      rfl

/-- The bank after AUTH and FINAL of phase B. -/
def Bank.authenticated (payload : List Byte) (b : Bank) : Bank :=
  { b with
    macData := b.macData ++ payload, tag := crypto.tag b.k2 b.iv (b.macData ++ payload), tagValid := true
    macFinal := true }

/-- Everything phase B can do (R229 to R235). -/
theorem phaseB_cases (chunk : List Byte) (s : State) :
    (s.inBank.keyed = false ∧ phaseB chunk s = .raised .notKeyed { s with hasSize := false, waiting := 4 }) ∨
    (s.inBank.keyed = true ∧ s.inBank.macFinal = true ∧
      phaseB chunk s = .raised .macFinal { s with hasSize := false, waiting := 4 }) ∨
    (s.inBank.keyed = true ∧ s.inBank.macFinal = false ∧ ∃ payload t : List Byte,
      payload = chunk.take (chunk.length - 16) ∧ t = chunk.drop (chunk.length - 16) ∧
      (((crypto.tag s.inBank.k2 s.inBank.iv (s.inBank.macData ++ payload)).val ≠ t ∧
        phaseB chunk s = .done [.badTag t]
          { s with
            inBank := s.inBank.afterFrame (s.inBank.macData ++ payload), hasSize := false, waiting := 4
            halted := true }) ∨
       ((crypto.tag s.inBank.k2 s.inBank.iv (s.inBank.macData ++ payload)).val = t ∧
        Config.ksLimit < s.inBank.aeadPos.toNat + payload.length ∧
        phaseB chunk s = .raised .ksLimit
          { s with inBank := s.inBank.authenticated payload, hasSize := false, waiting := 4 }) ∨
       ((crypto.tag s.inBank.k2 s.inBank.iv (s.inBank.macData ++ payload)).val = t ∧
        s.inBank.aeadPos.toNat + payload.length ≤ Config.ksLimit ∧
        ((∃ e, parseInner Config.strictCs (s.inBank.cryptPayload payload) = .error e ∧
          phaseB chunk s = .done [.parse e]
            { s with
              inBank := s.inBank.afterFrame (s.inBank.macData ++ payload), hasSize := false, waiting := 4
              halted := true }) ∨
         (∃ ms, parseInner Config.strictCs (s.inBank.cryptPayload payload) = .ok ms ∧
          phaseB chunk s = .done (ms.map .packet)
            { s with
              inBank := s.inBank.afterFrame (s.inBank.macData ++ payload), hasSize := false, waiting := 4 }))))) := by
  have tagLen : Config.tagLen = 16 := rfl
  rcases (Bool.eq_false_or_eq_true s.inBank.keyed).symm with hk | hk
  · refine .inl ⟨hk, ?_⟩
    simp only [phaseB, State.onBank, bank_input, Bank.auth, needKeyed_of_unkeyed hk, bind_raised]
    rfl
  rcases (Bool.eq_false_or_eq_true s.inBank.macFinal).symm with hm | hm
  swap
  · refine .inr (.inl ⟨hk, hm, ?_⟩)
    simp only [phaseB, State.onBank, bank_input, Bank.auth, needKeyed_of_keyed hk, bind_done, hm, if_true, bind_raised]
    rfl
  refine .inr (.inr ⟨hk, hm, _, _, rfl, rfl, ?_⟩)
  -- The three steps before the tag's verdict.
  have hauth : s.inBank.auth (chunk.take (chunk.length - 16)) = .done ()
      { s.inBank with macData := s.inBank.macData ++ chunk.take (chunk.length - 16) } := auth_of_keyed hk hm _
  have hfinal : ({ s.inBank with macData := s.inBank.macData ++ chunk.take (chunk.length - 16) } : Bank).final = .done
      (crypto.tag s.inBank.k2 s.inBank.iv (s.inBank.macData ++ chunk.take (chunk.length - 16))).val
      (s.inBank.authenticated (chunk.take (chunk.length - 16))) := final_of_keyed hk hm
  have hverify : ∀ t, (s.inBank.authenticated (chunk.take (chunk.length - 16))).verify t = .done
      (decide ((crypto.tag s.inBank.k2 s.inBank.iv (s.inBank.macData ++ chunk.take (chunk.length - 16))).val = t))
      (s.inBank.authenticated (chunk.take (chunk.length - 16))) := verify_of_valid rfl
  have hB : phaseB chunk s =
      if (crypto.tag s.inBank.k2 s.inBank.iv (s.inBank.macData ++ chunk.take (chunk.length - 16))).val
          = chunk.drop (chunk.length - 16) then
        phaseBGood (chunk.take (chunk.length - 16))
          { s with
            inBank := s.inBank.authenticated (chunk.take (chunk.length - 16)), hasSize := false, waiting := 4 }
      else
        phaseBBad (chunk.drop (chunk.length - 16))
          { s with
            inBank := s.inBank.authenticated (chunk.take (chunk.length - 16)), hasSize := false, waiting := 4 } := by
    simp only [phaseB, tagLen, State.onBank, bank_input, hauth, bind_done, setBank_input_inBank, hfinal, hverify,
      decide_eq_true_eq]
    rfl
  rw [hB]
  have hseq : (s.inBank.authenticated (chunk.take (chunk.length - 16))).sequence = .done ()
      (s.inBank.afterFrame (s.inBank.macData ++ chunk.take (chunk.length - 16))) := sequence_of_keyed hk
  by_cases ht : (crypto.tag s.inBank.k2 s.inBank.iv (s.inBank.macData ++ chunk.take (chunk.length - 16))).val
      = chunk.drop (chunk.length - 16)
  swap
  · refine .inl ⟨ht, ?_⟩
    rw [if_neg ht]
    simp only [phaseBBad, State.onBank, bank_input, hseq, bind_done]
    rfl
  rw [if_pos ht]
  refine .inr ?_
  by_cases hl : s.inBank.aeadPos.toNat + (chunk.take (chunk.length - 16)).length ≤ Config.ksLimit
  swap
  · refine .inl ⟨ht, by omega, ?_⟩
    have hdec : (s.inBank.authenticated (chunk.take (chunk.length - 16))).decrypt (chunk.take (chunk.length - 16))
        = .raised .ksLimit (s.inBank.authenticated (chunk.take (chunk.length - 16))) := by
      rcases decrypt_cases (s.inBank.authenticated (chunk.take (chunk.length - 16))) (chunk.take (chunk.length - 16))
        with ⟨h, _⟩ | ⟨_, _, h⟩ | ⟨_, h, _⟩
      · rw [show (s.inBank.authenticated _).keyed = s.inBank.keyed from rfl, hk] at h
        cases h
      · exact h
      · exact absurd h hl
    simp only [phaseBGood, State.onBank, bank_input, hdec, bind_raised]
    rfl
  · refine .inr ⟨ht, hl, ?_⟩
    have hdec : (s.inBank.authenticated (chunk.take (chunk.length - 16))).decrypt (chunk.take (chunk.length - 16))
        = .done (s.inBank.cryptPayload (chunk.take (chunk.length - 16)))
          { s.inBank.authenticated (chunk.take (chunk.length - 16)) with
            aeadPos := s.inBank.aeadPos + BitVec.ofNat 64 (chunk.take (chunk.length - 16)).length
            macData := s.inBank.macData ++ chunk.take (chunk.length - 16) } :=
      decrypt_of_keyed (b := s.inBank.authenticated (chunk.take (chunk.length - 16))) hk hl
    have hseq' : ({ s.inBank.authenticated (chunk.take (chunk.length - 16)) with
        aeadPos := s.inBank.aeadPos + BitVec.ofNat 64 (chunk.take (chunk.length - 16)).length
        macData := s.inBank.macData ++ chunk.take (chunk.length - 16) } : Bank).sequence = .done ()
          (s.inBank.afterFrame (s.inBank.macData ++ chunk.take (chunk.length - 16))) := sequence_of_keyed hk
    simp only [phaseBGood, State.onBank, bank_input, hdec, bind_done, setBank_input_inBank, hseq']
    cases hp : parseInner Config.strictCs (s.inBank.cryptPayload (chunk.take (chunk.length - 16))) with
    | error e => exact .inl ⟨e, rfl, rfl⟩
    | ok ms => exact .inr ⟨ms, rfl, rfl⟩

end Sys2Proof.Machine
end

