-- ==== Sys2Proof/Laws/Feed.lean ====
section
/-! SUPPORT. FEED's loop: what one turn reads and writes, that the turns it is given are enough (log 16), and that a turn
does not see the bytes behind those it takes. -/
namespace Sys2Proof.Machine

/-! ### What a turn does not see -/

/-- The fields the receive parser does not read, replaced: bank `out`, the queue behind the bytes taken, the responses. -/
def State.graft (o : Bank) (p : List Byte) (r : List (List Byte)) (s : State) : State :=
  { s with outBank := o, pending := p, rsp := r }

/-- A run whose final state is seen through a function. -/
def Run.mapState {σ τ α : Type} (g : σ → τ) : Run σ α → Run τ α
  | .done a s => .done a (g s)
  | .raised c s => .raised c (g s)

theorem onBank_input_graft {α : Type} (o : Bank) (p : List Byte) (r : List (List Byte)) (op : Bank → Run Bank α)
    (s : State) : (s.graft o p r).onBank .input op = (s.onBank .input op).mapState (State.graft o p r) := by
  show (match op s.inBank with | .done a b => _ | .raised c b => _) = _
  simp only [State.onBank, bank_input]
  cases op s.inBank <;> rfl

theorem bind_mapState {σ τ α β : Type} (g : σ → τ) (x : Run σ α) (f : α → τ → Run τ β) (f' : α → σ → Run σ β)
    (h : ∀ a s, f a (g s) = (f' a s).mapState g) : (x.mapState g).bind f = (x.bind f').mapState g := by
  cases x with
  | done a s => exact h a s
  | raised c s => rfl

theorem phaseA_graft (chunk : List Byte) (o : Bank) (p : List Byte) (r : List (List Byte)) (s : State) :
    phaseA chunk (s.graft o p r) = (phaseA chunk s).mapState (State.graft o p r) := by
  unfold phaseA
  rw [onBank_input_graft]
  refine bind_mapState _ _ _ _ fun d s => ?_
  split_ifs <;> rfl

theorem phaseB_graft (chunk : List Byte) (o : Bank) (p : List Byte) (r : List (List Byte)) (s : State) :
    phaseB chunk (s.graft o p r) = (phaseB chunk s).mapState (State.graft o p r) := by
  have bad (t : List Byte) (s : State) :
      phaseBBad t (s.graft o p r) = (phaseBBad t s).mapState (State.graft o p r) := by
    unfold phaseBBad
    rw [onBank_input_graft]
    exact bind_mapState _ _ _ _ fun _ _ => rfl
  have good (payload : List Byte) (s : State) :
      phaseBGood payload (s.graft o p r) = (phaseBGood payload s).mapState (State.graft o p r) := by
    unfold phaseBGood
    rw [onBank_input_graft]
    refine bind_mapState _ _ _ _ fun plain s => ?_
    rw [onBank_input_graft]
    refine bind_mapState _ _ _ _ fun _ s => ?_
    cases parseInner Config.strictCs plain <;> rfl
  unfold phaseB
  simp only []
  rw [show ({ s.graft o p r with hasSize := false, waiting := State.reset.waiting } : State)
      = State.graft o p r { s with hasSize := false, waiting := State.reset.waiting } from rfl, onBank_input_graft]
  refine bind_mapState _ _ _ _ fun _ s => ?_
  rw [onBank_input_graft]
  refine bind_mapState _ _ _ _ fun _ s => ?_
  rw [onBank_input_graft]
  refine bind_mapState _ _ _ _ fun g s => ?_
  cases g
  · exact bad _ s
  · exact good _ s

/-- A turn on the same `in` and parser with enough bytes at the head of the queue: it takes them and leaves the rest. -/
theorem parserTurn_graft (o : Bank) (p : List Byte) (r : List (List Byte)) (s : State)
    (h : p.take s.waiting.toNat = s.pending.take s.waiting.toNat) :
    parserTurn (s.graft o p r) = (parserTurn s).mapState (State.graft o (p.drop s.waiting.toNat) r) := by
  have hchunk : (s.graft o p r).rxqChunk (s.graft o p r).waiting.toNat = s.rxqChunk s.waiting.toNat := h
  have hdrop : (s.graft o p r).rxqDrop (s.graft o p r).waiting.toNat
      = State.graft o (p.drop s.waiting.toNat) r (s.rxqDrop s.waiting.toNat) := rfl
  unfold parserTurn
  rw [hchunk, hdrop]
  show (if s.hasSize then _ else _) = _
  cases hs : s.hasSize
  · simpa [hs] using phaseA_graft _ _ _ _ _
  · simpa [hs] using phaseB_graft _ _ _ _ _

/-! ### What a turn writes -/

theorem parserTurn_phaseA {s : State} (h : s.hasSize = false) :
    parserTurn s = phaseA (s.rxqChunk s.waiting.toNat) (s.rxqDrop s.waiting.toNat) := by
  show (if s.hasSize = true then _ else _) = _
  rw [h]
  rfl

theorem parserTurn_phaseB {s : State} (h : s.hasSize = true) :
    parserTurn s = phaseB (s.rxqChunk s.waiting.toNat) (s.rxqDrop s.waiting.toNat) := by
  show (if s.hasSize = true then _ else _) = _
  rw [h]
  rfl

/-- What of the state a turn leaves alone, and the bytes it takes. -/
structure TurnFrame (s t : State) : Prop where
  outBank : t.outBank = s.outBank
  live : t.live = s.live
  fault : t.fault = s.fault
  cmd : t.cmd = s.cmd
  rsp : t.rsp = s.rsp
  pending : t.pending = s.pending.drop s.waiting.toNat
  keyed : t.inBank.keyed = s.inBank.keyed
  k1 : t.inBank.k1 = s.inBank.k1
  k2 : t.inBank.k2 = s.inBank.k2
  sid : t.inBank.sid = s.inBank.sid
  processed : t.inBank.processed = s.inBank.processed
  lastRekeyTime : t.inBank.lastRekeyTime = s.inBank.lastRekeyTime

/-- Everything a turn that ends can do: packets, with the parser going on, or one error, with the parser halted. After phase
B the parser is in phase A. -/
theorem parserTurn_done {s t : State} {events : List Event} (h : parserTurn s = .done events t) :
    TurnFrame s t ∧
    ((∃ ms : List Message, events = ms.map .packet ∧ t.halted = s.halted) ∨
      (∃ e, events = [e] ∧ e.isError = true ∧ t.halted = true)) ∧
    (s.hasSize = true → t.hasSize = false ∧ t.waiting = 4) ∧
    (s.hasSize = false → t.halted = true ∨ 22 ≤ t.waiting.toNat) := by
  cases hs : s.hasSize
  · rw [parserTurn_phaseA hs] at h
    rcases phaseA_cases (s.rxqChunk s.waiting.toNat) (s.rxqDrop s.waiting.toNat) with
      ⟨_, h'⟩ | ⟨_, _, h'⟩ | ⟨_, _, size, _, ⟨_, h'⟩ | ⟨h6, hmax, h'⟩⟩ <;> rw [h'] at h <;> cases h
    · exact ⟨⟨rfl, rfl, rfl, rfl, rfl, rfl, rfl, rfl, rfl, rfl, rfl, rfl⟩, .inr ⟨_, rfl, rfl, rfl⟩, by simp,
        fun _ => .inl rfl⟩
    · refine ⟨⟨rfl, rfl, rfl, rfl, rfl, rfl, rfl, rfl, rfl, rfl, rfl, rfl⟩, .inl ⟨[], rfl, rfl⟩, by simp,
        fun _ => .inr ?_⟩
      show 22 ≤ (BitVec.ofNat 32 (size + 16)).toNat
      rw [BitVec.toNat_ofNat]
      omega
  · rw [parserTurn_phaseB hs] at h
    rcases phaseB_cases (s.rxqChunk s.waiting.toNat) (s.rxqDrop s.waiting.toNat) with
      ⟨_, h'⟩ | ⟨_, _, h'⟩ | ⟨_, _, payload, t, _, _, ⟨_, h'⟩ | ⟨_, _, h'⟩ | ⟨_, _, ⟨e, _, h'⟩ | ⟨ms, _, h'⟩⟩⟩ <;>
      rw [h'] at h <;> cases h
    · exact ⟨⟨rfl, rfl, rfl, rfl, rfl, rfl, rfl, rfl, rfl, rfl, rfl, rfl⟩, .inr ⟨_, rfl, rfl, rfl⟩,
        fun _ => ⟨rfl, rfl⟩, by simp⟩
    · exact ⟨⟨rfl, rfl, rfl, rfl, rfl, rfl, rfl, rfl, rfl, rfl, rfl, rfl⟩, .inr ⟨_, rfl, rfl, rfl⟩,
        fun _ => ⟨rfl, rfl⟩, by simp⟩
    · exact ⟨⟨rfl, rfl, rfl, rfl, rfl, rfl, rfl, rfl, rfl, rfl, rfl, rfl⟩, .inl ⟨ms, rfl, rfl⟩,
        fun _ => ⟨rfl, rfl⟩, by simp⟩

/-- Everything a turn that raises can do: nothing but the bytes taken, the phase reset and, in phase B, the MAC. -/
theorem parserTurn_raised {s t : State} {c : FaultCode} (h : parserTurn s = .raised c t) :
    TurnFrame s t ∧ t.halted = s.halted ∧ (c = .notKeyed ∨ c = .macFinal ∨ c = .ksLimit) ∧
    ((s.hasSize = false ∧ t = s.rxqDrop s.waiting.toNat) ∨
      (s.hasSize = true ∧ t.hasSize = false ∧ t.waiting = 4)) := by
  cases hs : s.hasSize
  · rw [parserTurn_phaseA hs] at h
    rcases phaseA_cases (s.rxqChunk s.waiting.toNat) (s.rxqDrop s.waiting.toNat) with
      ⟨_, h'⟩ | ⟨_, _, h'⟩ | ⟨_, _, size, _, ⟨_, h'⟩ | ⟨_, _, h'⟩⟩ <;> rw [h'] at h <;> cases h
    · exact ⟨⟨rfl, rfl, rfl, rfl, rfl, rfl, rfl, rfl, rfl, rfl, rfl, rfl⟩, rfl, .inl rfl, .inl ⟨rfl, rfl⟩⟩
    · exact ⟨⟨rfl, rfl, rfl, rfl, rfl, rfl, rfl, rfl, rfl, rfl, rfl, rfl⟩, rfl, .inr (.inr rfl), .inl ⟨rfl, rfl⟩⟩
  · rw [parserTurn_phaseB hs] at h
    rcases phaseB_cases (s.rxqChunk s.waiting.toNat) (s.rxqDrop s.waiting.toNat) with
      ⟨_, h'⟩ | ⟨_, _, h'⟩ | ⟨_, _, payload, t, _, _, ⟨_, h'⟩ | ⟨_, _, h'⟩ | ⟨_, _, ⟨e, _, h'⟩ | ⟨ms, _, h'⟩⟩⟩ <;>
      rw [h'] at h <;> cases h
    · exact ⟨⟨rfl, rfl, rfl, rfl, rfl, rfl, rfl, rfl, rfl, rfl, rfl, rfl⟩, rfl, .inl rfl, .inr ⟨rfl, rfl, rfl⟩⟩
    · exact ⟨⟨rfl, rfl, rfl, rfl, rfl, rfl, rfl, rfl, rfl, rfl, rfl, rfl⟩, rfl, .inr (.inl rfl), .inr ⟨rfl, rfl, rfl⟩⟩
    · exact ⟨⟨rfl, rfl, rfl, rfl, rfl, rfl, rfl, rfl, rfl, rfl, rfl, rfl⟩, rfl, .inr (.inr rfl), .inr ⟨rfl, rfl, rfl⟩⟩

/-! ### The loop -/

theorem parserReady_iff {s : State} : s.parserReady = true ↔ s.halted = false ∧ s.waiting.toNat ≤ s.pending.length := by
  unfold State.parserReady State.total
  cases s.halted <;> simp

theorem feedLoop_stop {n : Nat} {events : List Event} {s : State} (h : s.parserReady = false) :
    feedLoop n events s = ⟨s, events, none⟩ := by
  cases n <;> simp [feedLoop, h]

theorem feedLoop_done {n : Nat} {events new : List Event} {s t : State} (h : s.parserReady = true)
    (ht : parserTurn s = .done new t) : feedLoop (n + 1) events s = feedLoop n (events ++ new) t := by
  simp [feedLoop, h, ht]

theorem feedLoop_raised {n : Nat} {events : List Event} {s t : State} {c : FaultCode} (h : s.parserReady = true)
    (ht : parserTurn s = .raised c t) : feedLoop (n + 1) events s = ⟨t, events, some c⟩ := by
  simp [feedLoop, h, ht]

/-- How many turns a state can still take, at most: a turn may leave the queue as it is only where `waiting` is 0, and the
next one does not. -/
def State.turnsLeft (s : State) : Nat := s.pending.length + if s.waiting = 0 then 1 else 0

theorem turnsLeft_le_feedTurns (s : State) : s.turnsLeft ≤ feedTurns s := by
  unfold State.turnsLeft feedTurns State.total
  split_ifs <;> omega

theorem turnsLeft_pos {s : State} (h : s.parserReady = true) : 0 < s.turnsLeft := by
  rw [parserReady_iff] at h
  unfold State.turnsLeft
  split_ifs with h0
  · omega
  · have : s.waiting.toNat ≠ 0 := fun hw => h0 (BitVec.eq_of_toNat_eq (by simpa using hw))
    omega

/-- A turn that does not end the loop leaves fewer turns. -/
theorem turnsLeft_lt {s t : State} {events : List Event} (h : s.parserReady = true) (ht : parserTurn s = .done events t)
    (hn : t.parserReady = true) : t.turnsLeft < s.turnsLeft := by
  obtain ⟨hf, _, hb, ha⟩ := parserTurn_done ht
  have hp := parserReady_iff.mp h
  have hq := parserReady_iff.mp hn
  have hw : t.waiting ≠ 0 := by
    cases hs : s.hasSize
    · rcases ha hs with hh | hw
      · rw [hh] at hq; cases hq.1
      · rintro h0; rw [h0] at hw; simp at hw
    · rw [(hb hs).2]; decide
  have hlen : t.pending.length = s.pending.length - s.waiting.toNat := by rw [hf.pending, List.length_drop]
  unfold State.turnsLeft
  rw [if_neg hw]
  split_ifs with h0
  · omega
  · have : s.waiting.toNat ≠ 0 := fun hw => h0 (BitVec.eq_of_toNat_eq (by simpa using hw))
    omega

/-- Any number of turns from `turnsLeft` on gives the same end, so `feedTurns` are enough (R244, log 16). -/
theorem feedLoop_enough {n m : Nat} (events : List Event) (s : State) (hn : s.turnsLeft ≤ n) (hm : s.turnsLeft ≤ m) :
    feedLoop n events s = feedLoop m events s := by
  induction n generalizing m events s with
  | zero =>
    cases hr : s.parserReady
    · rw [feedLoop_stop hr, feedLoop_stop hr]
    · have := turnsLeft_pos hr; omega
  | succ n ih =>
    cases hr : s.parserReady
    · rw [feedLoop_stop hr, feedLoop_stop hr]
    · have := turnsLeft_pos hr
      obtain ⟨m, rfl⟩ : ∃ k, m = k + 1 := ⟨m - 1, by omega⟩
      cases ht : parserTurn s with
      | raised c t => rw [feedLoop_raised hr ht, feedLoop_raised hr ht]
      | done new t =>
        rw [feedLoop_done hr ht, feedLoop_done hr ht]
        cases hq : t.parserReady
        · rw [feedLoop_stop hq, feedLoop_stop hq]
        · have := turnsLeft_lt hr ht hq
          exact ih _ _ (by omega) (by omega)

/-- The loop of FEED from a state, with the turns it needs. -/
def runLoop (events : List Event) (s : State) : FeedEnd := feedLoop s.turnsLeft events s

theorem feedLoop_eq_runLoop {n : Nat} (events : List Event) {s : State} (h : s.turnsLeft ≤ n) :
    feedLoop n events s = runLoop events s := feedLoop_enough events s h (le_refl _)

theorem runLoop_stop {events : List Event} {s : State} (h : s.parserReady = false) :
    runLoop events s = ⟨s, events, none⟩ := feedLoop_stop h

theorem runLoop_done {events new : List Event} {s t : State} (h : s.parserReady = true)
    (ht : parserTurn s = .done new t) : runLoop events s = runLoop (events ++ new) t := by
  have hpos := turnsLeft_pos h
  unfold runLoop
  obtain ⟨k, hk⟩ : ∃ k, s.turnsLeft = k + 1 := ⟨s.turnsLeft - 1, by omega⟩
  rw [hk, feedLoop_done h ht]
  cases hq : t.parserReady
  · rw [feedLoop_stop hq, feedLoop_stop hq]
  · have := turnsLeft_lt h ht hq
    exact feedLoop_enough _ _ (by omega) (le_refl _)

theorem runLoop_raised {events : List Event} {s t : State} {c : FaultCode} (h : s.parserReady = true)
    (ht : parserTurn s = .raised c t) : runLoop events s = ⟨t, events, some c⟩ := by
  have hpos := turnsLeft_pos h
  unfold runLoop
  obtain ⟨k, hk⟩ : ∃ k, s.turnsLeft = k + 1 := ⟨s.turnsLeft - 1, by omega⟩
  rw [hk, feedLoop_raised h ht]

/-- Proving something of a loop turn by turn: it stops, it raises, or it takes a turn and goes on. -/
theorem runLoop_induction {P : List Event → State → FeedEnd → Prop}
    (stop : ∀ events s, s.parserReady = false → P events s ⟨s, events, none⟩)
    (raised : ∀ events s c t, s.parserReady = true → parserTurn s = .raised c t → P events s ⟨t, events, some c⟩)
    (turn : ∀ events s new t, s.parserReady = true → parserTurn s = .done new t →
      P (events ++ new) t (runLoop (events ++ new) t) → P events s (runLoop (events ++ new) t))
    (events : List Event) (s : State) : P events s (runLoop events s) := by
  generalize hn : s.turnsLeft = n
  induction n using Nat.strongRecOn generalizing events s with
  | ind n ih =>
    cases hr : s.parserReady
    · rw [runLoop_stop hr]; exact stop events s hr
    · cases ht : parserTurn s with
      | raised c t => rw [runLoop_raised hr ht]; exact raised events s c t hr ht
      | done new t =>
        rw [runLoop_done hr ht]
        refine turn events s new t hr ht ?_
        cases hq : t.parserReady
        · rw [runLoop_stop hq]; exact stop _ t hq
        · exact ih t.turnsLeft (hn ▸ turnsLeft_lt hr ht hq) _ t rfl

/-- What of the state FEED's loop leaves alone. -/
structure LoopFrame (s t : State) : Prop where
  outBank : t.outBank = s.outBank
  live : t.live = s.live
  fault : t.fault = s.fault
  cmd : t.cmd = s.cmd
  rsp : t.rsp = s.rsp
  keyed : t.inBank.keyed = s.inBank.keyed
  k1 : t.inBank.k1 = s.inBank.k1
  k2 : t.inBank.k2 = s.inBank.k2
  sid : t.inBank.sid = s.inBank.sid
  processed : t.inBank.processed = s.inBank.processed
  lastRekeyTime : t.inBank.lastRekeyTime = s.inBank.lastRekeyTime

theorem LoopFrame.refl (s : State) : LoopFrame s s := ⟨rfl, rfl, rfl, rfl, rfl, rfl, rfl, rfl, rfl, rfl, rfl⟩

theorem LoopFrame.trans {s t u : State} (h : LoopFrame s t) (h' : LoopFrame t u) : LoopFrame s u :=
  ⟨h'.outBank.trans h.outBank, h'.live.trans h.live, h'.fault.trans h.fault, h'.cmd.trans h.cmd, h'.rsp.trans h.rsp,
    h'.keyed.trans h.keyed, h'.k1.trans h.k1, h'.k2.trans h.k2, h'.sid.trans h.sid, h'.processed.trans h.processed,
    h'.lastRekeyTime.trans h.lastRekeyTime⟩

theorem TurnFrame.loop {s t : State} (h : TurnFrame s t) : LoopFrame s t :=
  ⟨h.outBank, h.live, h.fault, h.cmd, h.rsp, h.keyed, h.k1, h.k2, h.sid, h.processed, h.lastRekeyTime⟩

/-- The loop's frame, whichever way it ends, and the codes it can raise (R242). -/
theorem runLoop_frame (events : List Event) (s : State) :
    LoopFrame s (runLoop events s).state ∧
      ∀ c, (runLoop events s).raised = some c → c = .notKeyed ∨ c = .macFinal ∨ c = .ksLimit := by
  refine runLoop_induction (P := fun _ s r => LoopFrame s r.state ∧
    ∀ c, r.raised = some c → c = .notKeyed ∨ c = .macFinal ∨ c = .ksLimit) ?_ ?_ ?_ events s
  · exact fun _ s _ => ⟨LoopFrame.refl s, by simp⟩
  · intro _ s c t _ ht
    obtain ⟨hf, _, hc, _⟩ := parserTurn_raised ht
    refine ⟨hf.loop, fun c' h => ?_⟩
    cases h
    exact hc
  · exact fun _ s new t _ ht h => ⟨(parserTurn_done ht).1.loop.trans h.1, h.2⟩

/-- The loop ends without a raise only where the parser has halted or waits for bytes (R223). -/
theorem runLoop_notReady (events : List Event) (s : State) :
    (runLoop events s).raised = none → (runLoop events s).state.parserReady = false :=
  runLoop_induction (P := fun _ _ r => r.raised = none → r.state.parserReady = false)
    (fun _ _ h _ => h) (fun _ _ _ _ _ _ h => by cases h) (fun _ _ _ _ _ _ h => h) events s

/-- Everything FEED after the guard can do (R220). -/
theorem feed_cases (data : List Byte) (s : State) :
    (s.inBank.keyed = false ∧ s.feed data = s.raise .notKeyed []) ∨
    (s.inBank.keyed = true ∧ s.halted = true ∧ s.feed data = s.respond (okResponse [])) ∨
    (s.inBank.keyed = true ∧ s.halted = false ∧ rxqOverflows Config.rxqExtra s.total data.length = true ∧
      s.feed data = s.raise .rxqOverflow []) ∨
    (s.inBank.keyed = true ∧ s.halted = false ∧ rxqOverflows Config.rxqExtra s.total data.length = false ∧
      s.feed data = (runLoop [] (s.rxqAppend data)).answered) := by
  unfold State.feed
  rcases (Bool.eq_false_or_eq_true s.inBank.keyed).symm with hk | hk
  · exact .inl ⟨hk, by rw [if_pos hk]⟩
  · rw [if_neg (by simp [hk])]
    cases hh : s.halted
    · cases ho : rxqOverflows Config.rxqExtra s.total data.length
      · refine .inr (.inr (.inr ⟨hk, rfl, rfl, ?_⟩))
        simp [feedLoop_eq_runLoop [] (turnsLeft_le_feedTurns (s.rxqAppend data))]
      · exact .inr (.inr (.inl ⟨hk, rfl, rfl, by simp⟩))
    · exact .inr (.inl ⟨hk, rfl, by simp⟩)

/-- Room in the queue, as FEED tests it (R66). -/
theorem roomFor_iff {s : State} {n : Nat} : s.RoomFor n ↔ rxqOverflows Config.rxqExtra s.total n = false := by
  rw [← Bool.not_eq_true, rxqOverflows_iff]
  unfold State.RoomFor
  push Not
  exact Iff.rfl

/-- Within the least capacity R8 allows there is always room. -/
theorem roomFor_of_le {s : State} {n : Nat} (h : s.total + n ≤ 12000016) : s.RoomFor n :=
  roomFor_iff.mpr (rxqOverflows_of_le h)

end Sys2Proof.Machine
end

