-- ==== Sys2Proof/Laws/PerInstr.lean ====
section
/-! SUPPORT. Statements made per instruction. `TableRow`: the command word selects the instruction's own row of
spec/30_encoding.md R92, and the operands have the length of the row's format (R91). -/
namespace Sys2Proof.Laws

open Sys2Proof.Machine

/-- `match`, `mask` and the number of operand bytes of a row (R91, R92). -/
structure Row where
  value : BitVec 32
  mask : BitVec 32
  operandBytes : Nat

/-- A command with word `w` and operands of `n` bytes fits a row. -/
def Row.Fits (r : Row) (w : BitVec 32) (n : Nat) : Prop := w &&& r.mask = r.value ∧ n = r.operandBytes

/-- The rows of R92, by instruction. -/
def rowOf : Instr → Row
  | .new _ => ⟨0x00000001, 0xFF00FFFF, 0⟩
  | .destroy => ⟨0x00000002, 0xFFFFFFFF, 0⟩
  | .init _ _ _ _ _ => ⟨0x00000003, 0xFFFFFEFF, 104⟩
  | .rekey _ => ⟨0x00000004, 0xFFFFFEFF, 0⟩
  | .rekeyx _ _ _ => ⟨0x00000005, 0xFFFFFEFF, 64⟩
  | .shouldrekey _ _ _ => ⟨0x00000006, 0xFFFFFEFF, 16⟩
  | .sequence _ => ⟨0x00000007, 0xFFFFFEFF, 0⟩
  | .encsize _ _ => ⟨0x00000008, 0xFFFFFEFF, 4⟩
  | .decsize _ _ => ⟨0x00000009, 0xFFFFFEFF, 4⟩
  | .encrypt _ data => ⟨0x0000000A, 0xFFFFFEFF, 4 + data.length⟩
  | .decrypt _ data => ⟨0x0000000B, 0xFFFFFEFF, 4 + data.length⟩
  | .auth _ data => ⟨0x0000000C, 0xFFFFFEFF, 4 + data.length⟩
  | .final _ => ⟨0x0000000D, 0xFFFFFEFF, 0⟩
  | .verify _ _ => ⟨0x0000000E, 0xFFFFFEFF, 16⟩
  | .pack _ cmd body => ⟨0x00000010, 0xFFFFFFFF, 16 + cmd.length + body.length⟩
  | .feed data => ⟨0x00000011, 0xFFFFFFFF, 4 + data.length⟩
  | .rdreg _ => ⟨0x00000012, 0xFF00FEFF, 0⟩

/-- The command word and the operands fit the instruction's row. -/
def TableRow.Statement (i : Instr) : Prop := (rowOf i).Fits i.word i.operands.length

theorem TableRow.new (cid : BitVec 8) : TableRow.Statement (.new cid) := by
  exact ⟨(by decide : ∀ c, commandWord 0x01 false c &&& 0xFF00FFFF = 0x00000001) cid, rfl⟩

theorem TableRow.destroy : TableRow.Statement (.destroy) := by
  exact ⟨(by decide : commandWord 0x02 false 0 &&& 0xFFFFFFFF = 0x00000002), rfl⟩

theorem TableRow.init (sel : BankSel) (now : BitVec 64) (k1 : Bytes 32) (k2 : Bytes 32) (sid : Bytes 32) :
    TableRow.Statement (.init sel now k1 k2 sid) := by
  exact ⟨(by decide : ∀ s, commandWord 0x03 s 0 &&& 0xFFFFFEFF = 0x00000003) (bitOfBank sel),
    by simp [Instr.operands, rowOf, k1.property, k2.property, sid.property]⟩

theorem TableRow.rekey (sel : BankSel) : TableRow.Statement (.rekey sel) := by
  exact ⟨(by decide : ∀ s, commandWord 0x04 s 0 &&& 0xFFFFFEFF = 0x00000004) (bitOfBank sel), rfl⟩

theorem TableRow.rekeyx (sel : BankSel) (k1 : Bytes 32) (k2 : Bytes 32) : TableRow.Statement (.rekeyx sel k1 k2) := by
  exact ⟨(by decide : ∀ s, commandWord 0x05 s 0 &&& 0xFFFFFEFF = 0x00000005) (bitOfBank sel),
    by simp [Instr.operands, rowOf, k1.property, k2.property]⟩

theorem TableRow.shouldrekey (sel : BankSel) (now : BitVec 64) (n : BitVec 64) :
    TableRow.Statement (.shouldrekey sel now n) := by
  exact ⟨(by decide : ∀ s, commandWord 0x06 s 0 &&& 0xFFFFFEFF = 0x00000006) (bitOfBank sel),
    by simp [Instr.operands, rowOf]⟩

theorem TableRow.sequence (sel : BankSel) : TableRow.Statement (.sequence sel) := by
  exact ⟨(by decide : ∀ s, commandWord 0x07 s 0 &&& 0xFFFFFEFF = 0x00000007) (bitOfBank sel), rfl⟩

theorem TableRow.encsize (sel : BankSel) (buf : Bytes 4) : TableRow.Statement (.encsize sel buf) := by
  exact ⟨(by decide : ∀ s, commandWord 0x08 s 0 &&& 0xFFFFFEFF = 0x00000008) (bitOfBank sel), buf.property⟩

theorem TableRow.decsize (sel : BankSel) (buf : Bytes 4) : TableRow.Statement (.decsize sel buf) := by
  exact ⟨(by decide : ∀ s, commandWord 0x09 s 0 &&& 0xFFFFFEFF = 0x00000009) (bitOfBank sel), buf.property⟩

theorem TableRow.encrypt (sel : BankSel) (data : List Byte) : TableRow.Statement (.encrypt sel data) := by
  exact ⟨(by decide : ∀ s, commandWord 0x0A s 0 &&& 0xFFFFFEFF = 0x0000000A) (bitOfBank sel),
    by simp [Instr.operands, rowOf, lengthOperand]⟩

theorem TableRow.decrypt (sel : BankSel) (data : List Byte) : TableRow.Statement (.decrypt sel data) := by
  exact ⟨(by decide : ∀ s, commandWord 0x0B s 0 &&& 0xFFFFFEFF = 0x0000000B) (bitOfBank sel),
    by simp [Instr.operands, rowOf, lengthOperand]⟩

theorem TableRow.auth (sel : BankSel) (data : List Byte) : TableRow.Statement (.auth sel data) := by
  exact ⟨(by decide : ∀ s, commandWord 0x0C s 0 &&& 0xFFFFFEFF = 0x0000000C) (bitOfBank sel),
    by simp [Instr.operands, rowOf, lengthOperand]⟩

theorem TableRow.final (sel : BankSel) : TableRow.Statement (.final sel) := by
  exact ⟨(by decide : ∀ s, commandWord 0x0D s 0 &&& 0xFFFFFEFF = 0x0000000D) (bitOfBank sel), rfl⟩

theorem TableRow.verify (sel : BankSel) (tag : Bytes 16) : TableRow.Statement (.verify sel tag) := by
  exact ⟨(by decide : ∀ s, commandWord 0x0E s 0 &&& 0xFFFFFEFF = 0x0000000E) (bitOfBank sel), tag.property⟩

theorem TableRow.pack (now : BitVec 64) (cmd : List Byte) (body : List Byte) :
    TableRow.Statement (.pack now cmd body) := by
  refine ⟨(by decide : commandWord 0x10 false 0 &&& 0xFFFFFFFF = 0x00000010), ?_⟩
  simp [Instr.operands, rowOf, lengthOperand]
  omega

theorem TableRow.feed (data : List Byte) : TableRow.Statement (.feed data) := by
  exact ⟨(by decide : commandWord 0x11 false 0 &&& 0xFFFFFFFF = 0x00000011), by simp [Instr.operands, rowOf, lengthOperand]⟩

theorem TableRow.rdreg (reg : Reg) : TableRow.Statement (.rdreg reg) := by
  rcases reg with ⟨sel, r⟩ | r
  · exact ⟨(by decide : ∀ s c, commandWord 0x12 s c &&& 0xFF00FEFF = 0x00000012) (bitOfBank sel) r.number, rfl⟩
  · exact ⟨(by decide : ∀ c, commandWord 0x12 false c &&& 0xFF00FEFF = 0x00000012) r.number, rfl⟩

end Sys2Proof.Laws
end

