-- ==== Sys2Proof/Tests/Slice0.lean ====
section
/-! SUPPORT. The model's own tests: words of the encoding, one-step tests against the vectors of spec/95_test_vectors.md and
the examples of the rules, and for every statement with hypotheses a witness that they can be met together. Expected
results are the spec's; where a comment says so they were computed with the spec's own reference script
(spec/96_reference_script.md). -/
namespace Sys2Proof.Tests

open Sys2Proof.Machine

set_option maxRecDepth 100000

/-! ### Helpers -/

/-- A byte string of `n` bytes written as one hexadecimal number. -/
def hex (n v : Nat) : Bytes n := ⟨beBytes n v, length_beBytes n v⟩

/-- The example keys of spec/40_stream_ops.md. -/
def exampleK1 : Bytes 32 := hex 32 0x000102030405060708090a0b0c0d0e0f101112131415161718191a1b1c1d1e1f
/-- The example keys of spec/40_stream_ops.md. -/
def exampleK2 : Bytes 32 := hex 32 0x202122232425262728292a2b2c2d2e2f303132333435363738393a3b3c3d3e3f
/-- The example keys of spec/40_stream_ops.md. -/
def exampleSid : Bytes 32 := hex 32 0x404142434445464748494a4b4c4d4e4f505152535455565758595a5b5c5d5e5f

/-- A bank after INIT at `now = 1000` with the example keys. -/
def keyedBank : Bank :=
  { Bank.reset with keyed := true, k1 := exampleK1, k2 := exampleK2, sid := exampleSid, lastRekeyTime := 1000 }

/-- A block after NEW and INIT of both banks. -/
def fresh : State := { State.reset with live := true, inBank := keyedBank, outBank := keyedBank }

/-- A block after NEW alone. -/
def unkeyed : State := { State.reset with live := true }

/-- A faulted block. -/
def faulted : State := { fresh with fault := 0x13 }

/-- `fresh` with bank `out` changed. -/
def withOut (f : Bank → Bank) : State := { fresh with outBank := f keyedBank }

/-- A block with one transaction presented. -/
def presented (s : State) (tx : List Byte) : State := { s with cmd := [tx] }

/-- The last response after a command. -/
def answerOf (i : Instr) (s : State) : List Byte :=
  match exec i s with
  | .next t => t.rsp.getLastD []
  | .fault _ | .refused _ => []

/-- A field of the next state. -/
def after {α : Type} (i : Instr) (s : State) (field : State → α) (default : α) : α :=
  match exec i s with
  | .next t => field t
  | .fault _ | .refused _ => default

/-! ### Well-formedness: a term each check refuses -/

/-- 2^32 bytes have no 32-bit length. -/
@[irreducible] def tooLong : List Byte := List.replicate (2 ^ 32) 0

theorem test_fits32_refuses : fits32 tooLong = false := by
  rw [fits32, tooLong, List.length_replicate]; rfl

theorem test_illFormed_encrypt (sel : BankSel) : (Instr.encrypt sel tooLong).wellFormed = false := by
  simp only [Instr.wellFormed, test_fits32_refuses]

theorem test_illFormed_decrypt (sel : BankSel) : (Instr.decrypt sel tooLong).wellFormed = false := by
  simp only [Instr.wellFormed, test_fits32_refuses]

theorem test_illFormed_auth (sel : BankSel) : (Instr.auth sel tooLong).wellFormed = false := by
  simp only [Instr.wellFormed, test_fits32_refuses]

theorem test_illFormed_feed : (Instr.feed tooLong).wellFormed = false := by
  simp only [Instr.wellFormed, test_fits32_refuses]

theorem test_illFormed_pack_name (now : BitVec 64) : (Instr.pack now tooLong []).wellFormed = false := by
  simp only [Instr.wellFormed, test_fits32_refuses, Bool.false_and]

theorem test_illFormed_pack_body (now : BitVec 64) : (Instr.pack now [] tooLong).wellFormed = false := by
  simp only [Instr.wellFormed, test_fits32_refuses, Bool.and_false]

/-! ### Decoding: one word of every constructor, from the bit table of R90 and the rows of R92 (V38) -/

theorem test_decode_new : decode [0x01, 0, 0x02, 0] = .ok (.new 2) := by rfl
theorem test_decode_destroy : decode [0x02, 0, 0, 0] = .ok .destroy := by rfl
theorem test_decode_init :
    decode ([0x03, 0x01, 0, 0, 0xe8, 0x03, 0, 0, 0, 0, 0, 0] ++ exampleK1.val ++ exampleK2.val ++ exampleSid.val)
      = .ok (.init .output 1000 exampleK1 exampleK2 exampleSid) := by rfl
theorem test_decode_rekey : decode [0x04, 0, 0, 0] = .ok (.rekey .input) := by rfl
theorem test_decode_rekeyx :
    decode ([0x05, 0x01, 0, 0] ++ exampleK2.val ++ exampleK1.val) = .ok (.rekeyx .output exampleK2 exampleK1) := by rfl
theorem test_decode_shouldrekey :
    decode [0x06, 0x01, 0, 0, 0xf1, 0x03, 0, 0, 0, 0, 0, 0, 0x25, 0, 0, 0, 0, 0, 0, 0x80]
      = .ok (.shouldrekey .output 1009 0x8000000000000025) := by rfl
theorem test_decode_sequence : decode [0x07, 0x01, 0, 0] = .ok (.sequence .output) := by rfl
theorem test_decode_encsize :
    decode [0x08, 0x01, 0, 0, 0x11, 0x22, 0x33, 0x44] = .ok (.encsize .output (hex 4 0x11223344)) := by rfl
theorem test_decode_decsize :
    decode [0x09, 0, 0, 0, 0x28, 0xfd, 0x2b, 0x7d] = .ok (.decsize .input (hex 4 0x28fd2b7d)) := by rfl
theorem test_decode_encrypt :
    decode [0x0a, 0x01, 0, 0, 0x02, 0, 0, 0, 0xaa, 0xbb] = .ok (.encrypt .output [0xaa, 0xbb]) := by rfl
theorem test_decode_decrypt : decode [0x0b, 0, 0, 0, 0x01, 0, 0, 0, 0xcc] = .ok (.decrypt .input [0xcc]) := by rfl
theorem test_decode_auth : decode [0x0c, 0, 0, 0, 0, 0, 0, 0] = .ok (.auth .input []) := by rfl
theorem test_decode_final : decode [0x0d, 0x01, 0, 0] = .ok (.final .output) := by rfl
theorem test_decode_verify :
    decode ([0x0e, 0, 0, 0] ++ beBytes 16 0x202cec40388d27ff25c6e5e140f6c29f)
      = .ok (.verify .input (hex 16 0x202cec40388d27ff25c6e5e140f6c29f)) := by rfl
/-- V25. -/
theorem test_decode_pack :
    decode (beBytes 32 0x10000000e8030000000000000400000008000000_70696e67_0100000000000000)
      = .ok (.pack 1000 [0x70, 0x69, 0x6e, 0x67] [1, 0, 0, 0, 0, 0, 0, 0]) := by rfl
theorem test_decode_feed : decode [0x11, 0, 0, 0, 0x02, 0, 0, 0, 0x28, 0xfd] = .ok (.feed [0x28, 0xfd]) := by rfl
theorem test_decode_rdreg_bank : decode [0x12, 0x01, 0x0a, 0] = .ok (.rdreg (.ofBank .output .macLen)) := by rfl
theorem test_decode_rdreg_block : decode [0x12, 0, 0x13, 0] = .ok (.rdreg (.ofBlock .total)) := by rfl

/-- R98: a short transaction, a long one, a reserved register, a block-level register with `s = 1`. -/
theorem test_decode_refuses :
    decode [0x01, 0, 0] = .error .shortWord ∧ decode [0x0d, 0, 0, 0, 0] = .error .wrongLength ∧
    decode [0x0a, 0, 0, 0, 0x02, 0, 0, 0, 0xaa] = .error .wrongLength ∧
    decode [0x12, 0, 0x0b, 0] = .error .reservedRegister ∧ decode [0x12, 0, 0x14, 0] = .error .reservedRegister ∧
    decode [0x12, 0x01, 0x10, 0] = .error .reservedRegister := by decide

/-- The ends of R42's reserved ranges (`0B` and `14` are above); and the ends of what R42 does not list, where the refusal
with `s = 0` is the model's choice (log 17). -/
theorem test_decode_refuses_registers :
    decode [0x12, 0, 0x0f, 0] = .error .reservedRegister ∧ decode [0x12, 0, 0x1f, 0] = .error .reservedRegister ∧
    decode [0x12, 0, 0x20, 0] = .error .reservedRegister ∧ decode [0x12, 0, 0xff, 0] = .error .reservedRegister := by
  decide

/-! ### Check values of the primitives (R315) -/

theorem test_chacha_block :
    (chachaBlock (Bytes.zero 32) 0 (Bytes.zero 8)).take 32
      = beBytes 32 0x76b8e0ada0f13d90405d6ae55386bd28bdd219b8a08ded1aa836efcc8b770dc7 := by decide
theorem test_poly1305 :
    (poly1305 (hex 32 0x85d6be7857556d337f4452fe42d506a80103808afb0db2fd4abff6af4149f51b)
      (beBytes 34 0x43727970746f6772617068696320466f72756d2052657365617263682047726f7570)).val
      = beBytes 16 0xa8061dc1305136c6c22b8baf0c0127a9 := by decide
theorem test_sha256_abc :
    (sha256 [0x61, 0x62, 0x63]).val
      = beBytes 32 0xba7816bf8f01cfea414140de5dae2223b00361a396177a9cb410ff61f20015ad := by decide

/-- The primes below 312: the first 64 (a composite below 312 has a divisor below 18). -/
def firstPrimes : List Nat :=
  (List.range 312).filter fun n => 2 ≤ n && (List.range 18).all fun d => d < 2 || d == n || n % d != 0

/-- Whether `w` is the first 32 bits of the fractional part of the `e`-th root of `p`: the root is below 20. -/
def isRootFraction (e p : Nat) (w : Word32) : Bool :=
  (List.range 20).any fun a =>
    a ^ e ≤ p && p < (a + 1) ^ e && (a * 2 ^ 32 + w.toNat) ^ e ≤ p * 2 ^ (32 * e) &&
      p * 2 ^ (32 * e) < (a * 2 ^ 32 + w.toNat + 1) ^ e

/-- R312: `H` from the square roots, `K` from the cube roots, of the first primes. -/
theorem test_sha_constants :
    firstPrimes.length = 64 ∧ shaConstants.length = 64 ∧
    (List.zipWith (isRootFraction 2) firstPrimes shaInit.words) = List.replicate 8 true ∧
    (List.zipWith (isRootFraction 3) firstPrimes shaConstants) = List.replicate 64 true := by decide

/-! ### Commands, against the vectors -/

/-- V6. -/
theorem test_encsize : answerOf (.encsize .output (hex 4 0x11000000)) fresh
    = [0, 4, 0, 0, 0, 0x28, 0xfd, 0x2b, 0x7d, 0, 0, 0, 0] := by decide
/-- V6: the second use takes keystream bytes 4 to 7. -/
theorem test_encsize_again :
    answerOf (.encsize .output (hex 4 0x11000000)) (withOut fun b => { b with sizePos := 4 })
      = [0, 4, 0, 0, 0, 0xc8, 0xc5, 0x19, 0x6a, 0, 0, 0, 0] := by decide
/-- R138. -/
theorem test_decsize : answerOf (.decsize .input (hex 4 0x28fd2b7d)) fresh
    = [0, 4, 0, 0, 0, 0x11, 0, 0, 0, 0, 0, 0, 0] := by decide
/-- V7. -/
theorem test_encrypt :
    answerOf (.encrypt .output (beBytes 17 0x0470696e67080000000100000000000000)) fresh
      = [0, 17, 0, 0, 0] ++ beBytes 17 0x841336b27480d71d9a29f9e1e5894e1dc6 ++ [0, 0, 0, 0] := by decide
/-- V10: the finished MAC is left alone. -/
theorem test_decrypt_after_final :
    let s := { fresh with inBank := { keyedBank with macFinal := true, macData := [7] } }
    answerOf (.decrypt .input (beBytes 5 0x841336b274)) s = [0, 5, 0, 0, 0] ++ beBytes 5 0x0470696e67 ++ [0, 0, 0, 0] ∧
      after (.decrypt .input (beBytes 5 0x841336b274)) s (·.inBank.macData) [] = [7] := by decide
/-- V8. -/
theorem test_auth :
    after (.auth .input [0x29, 0xf9]) { fresh with inBank := { keyedBank with macData := [0x84] } } (·.inBank.macData) []
      = [0x84, 0x29, 0xf9] := by decide
/-- V13. -/
theorem test_final_empty : answerOf (.final .output) fresh
    = [0, 16, 0, 0, 0] ++ beBytes 16 0x28e692e774485eb5a8268f2b98ad4aec ++ [0, 0, 0, 0] := by decide
/-- V7. -/
theorem test_final :
    answerOf (.final .output)
        (withOut fun b => { b with macData := beBytes 17 0x841336b27480d71d9a29f9e1e5894e1dc6 })
      = [0, 16, 0, 0, 0] ++ beBytes 16 0x202cec40388d27ff25c6e5e140f6c29f ++ [0, 0, 0, 0] := by decide
/-- V9, V42: a difference in the first bit or in the last byte. -/
theorem test_verify :
    let s := withOut fun b => { b with tagValid := true, tag := hex 16 0x202cec40388d27ff25c6e5e140f6c29f }
    answerOf (.verify .output (hex 16 0x202cec40388d27ff25c6e5e140f6c29f)) s = [0, 1, 0, 0, 0, 1, 0, 0, 0, 0] ∧
    answerOf (.verify .output (hex 16 0xa02cec40388d27ff25c6e5e140f6c29f)) s = [0, 1, 0, 0, 0, 0, 0, 0, 0, 0] ∧
    answerOf (.verify .output (hex 16 0x202cec40388d27ff25c6e5e140f6c29e)) s = [0, 1, 0, 0, 0, 0, 0, 0, 0, 0] := by
  decide
/-- R23: the wrap is silent, and the ciphers restart. -/
theorem test_sequence_wraps :
    after (.sequence .output) (withOut fun b => { b with seq := 0xFFFFFFFF, sizePos := 4 })
      (fun t => (t.outBank.seq, t.outBank.sizePos, t.fault)) (1, 1, 1) = (0, 0, 0) := by decide
/-- V17. -/
theorem test_shouldrekey_time :
    answerOf (.shouldrekey .output 1009 37) fresh = [0, 1, 0, 0, 0, 0, 0, 0, 0, 0] ∧
    answerOf (.shouldrekey .output 1010 0) fresh = [0, 1, 0, 0, 0, 1, 0, 0, 0, 0] := by decide
/-- V18: the exact high-water mark; the measures restart. -/
theorem test_shouldrekey_volume :
    after (.shouldrekey .output 1001 1) (withOut fun b => { b with processed := 1073741823 })
      (fun t => (t.outBank.processed, t.outBank.lastRekeyTime)) (1, 1) = (0, 1001) := by decide
/-- R183's example. -/
theorem test_rekey_k1 :
    after (.rekey .output) fresh (·.outBank.k1.val) []
      = beBytes 32 0xb8c1c2975cc7f65aaf85d8b540c2a3a3c0d6f45c3549d012c0d7852779cc9eac := by decide
/-- R184: the keys are not swapped, `seq` stays. -/
theorem test_rekeyx :
    after (.rekeyx .input exampleK2 exampleSid) { fresh with inBank := { keyedBank with seq := 5, aeadPos := 9 } }
      (fun t => (t.inBank.k1.val, t.inBank.k2.val, t.inBank.seq, t.inBank.aeadPos)) ([], [], 0, 1)
      = (exampleK2.val, exampleSid.val, 5, 0) := by decide
/-- R135's example. -/
theorem test_init :
    after (.init .output 1000 exampleK1 exampleK2 exampleSid) unkeyed
      (fun t => (t.outBank, t.inBank.keyed)) (Bank.reset, true) = (keyedBank, false) := by decide
/-- R133's examples. -/
theorem test_new :
    after (.new 0) faulted (fun t => (t.live, t.fault, t.outBank.keyed)) (false, 1, true) = (true, 0, false) ∧
    after (.new 1) fresh (fun t => (t.live, t.fault, t.outBank.keyed)) (true, 1, true) = (false, 0x12, false) := by decide
/-- R134: the fault stays. -/
theorem test_destroy :
    after .destroy faulted (fun t => (t.live, t.fault, t.inBank.k1.val)) (true, 1, []) =
      (false, 0x13, List.replicate 32 0) := by decide
/-- R42: the flag bytes. -/
theorem test_rdreg_flags :
    answerOf (.rdreg (.ofBank .output .sflags)) (withOut fun b => { b with tagValid := true })
      = [0, 1, 0, 0, 0, 0x05, 0, 0, 0, 0] ∧
    answerOf (.rdreg (.ofBlock .bflags)) { fresh with halted := true } = [0, 1, 0, 0, 0, 0x05, 0, 0, 0, 0] := by decide
/-- R24's example; RDREG runs in a faulted block. -/
theorem test_rdreg_iv :
    answerOf (.rdreg (.ofBank .input .iv)) { faulted with inBank := { keyedBank with seq := 0x01020304 } }
      = [0, 8, 0, 0, 0, 4, 3, 2, 1, 0, 0, 0, 0, 0, 0, 0, 0] := by decide
/-- The frame `F0` of spec/95_test_vectors.md. -/
def frameF0 : List Byte :=
  beBytes 37 0x28fd2b7d841336b27480d71d9a29f9e1e5894e1dc6202cec40388d27ff25c6e5e140f6c29f
/-- V25. -/
theorem test_pack :
    answerOf (.pack 1000 [0x70, 0x69, 0x6e, 0x67] [1, 0, 0, 0, 0, 0, 0, 0]) fresh
      = [0, 37, 0, 0, 0] ++ frameF0 ++ [0, 0, 0, 0] := by decide
/-- V23: the trigger's event, and the first bytes under the new keys. -/
theorem test_pack_rekeys :
    let r := answerOf (.pack 1000 [0x70, 0x69, 0x6e, 0x67] [1, 0, 0, 0, 0, 0, 0, 0])
      (withOut fun b => { b with processed := 1073741824 - 37 })
    r.take 13 = [0, 37, 0, 0, 0, 0x89, 0xf2, 0x0e, 0x49, 0xc7, 0x91, 0xde, 0x01] ∧ r.drop 42 = [1, 0, 0, 0, 1] := by decide
/-- R245. -/
theorem test_feed :
    answerOf (.feed frameF0) fresh = [0, 0, 0, 0, 0, 1, 0, 0, 0] ++
      [2, 4, 0, 0, 0, 0x70, 0x69, 0x6e, 0x67, 8, 0, 0, 0, 1, 0, 0, 0, 0, 0, 0, 0] := by rfl
/-- V5. -/
theorem test_feed_badSize :
    answerOf (.feed [0x3c, 0xfd, 0x2b, 0x7d]) fresh = [0, 0, 0, 0, 0, 1, 0, 0, 0, 3, 1, 5, 0, 0, 0] ∧
      after (.feed [0x3c, 0xfd, 0x2b, 0x7d]) fresh (fun t => (t.halted, t.waiting, t.inBank.sizePos)) (false, 0, 0) =
        (true, 4, 4) := by decide

/-! ### Wire formats (V36, V37, V31) -/

theorem test_csEncode :
    csEncode 252 = [0xfc] ∧ csEncode 253 = [0xfd, 0xfd, 0] ∧ csEncode 65535 = [0xfd, 0xff, 0xff] ∧
    csEncode 65536 = [0xfe, 0, 0, 1, 0] ∧ csEncode 4294967295 = [0xfe, 0xff, 0xff, 0xff, 0xff] ∧
    csEncode 4294967296 = [0xff, 0, 0, 0, 0, 1, 0, 0, 0] := by decide
theorem test_csDecode_strict :
    csDecode true [0xfd, 0xfd, 0] = .ok (253, 3) ∧ csDecode true [0xfd, 0xfc, 0] = .error .csNoncanon ∧
    csDecode true [0xfe, 0xff, 0xff, 0, 0] = .error .csNoncanon ∧
    csDecode true [0xff, 0xff, 0xff, 0xff, 0xff, 0, 0, 0, 0] = .error .csNoncanon ∧
    csDecode true [0xfd, 1] = .error .csTrunc ∧ csDecode true [] = .error .csTrunc := by decide
theorem test_csDecode_lax :
    csDecode false [0xfd, 0xfc, 0] = .ok (252, 3) ∧ csDecode false [0xfe, 0, 0, 1] = .error .csTrunc := by decide
theorem test_parse_errors :
    parseInner true [0, 0, 0, 0, 0, 0xfd] = .error .csTrunc ∧
    parseInner true [0xfd, 0x04, 0, 0x70, 0x69, 0x6e, 0x67, 0, 0, 0, 0] = .error .csNoncanon ∧
    parseInner false [0xfd, 0x04, 0, 0x70, 0x69, 0x6e, 0x67, 0, 0, 0, 0] = .ok [⟨[0x70, 0x69, 0x6e, 0x67], []⟩] ∧
    parseInner true [9, 0x70, 0x69, 0x6e, 0x67, 0x78] = .error .cmdTrunc ∧
    parseInner true [4, 0x70, 0x69, 0x6e, 0x67, 0, 0, 0] = .error .lenTrunc ∧
    parseInner true [4, 0x70, 0x69, 0x6e, 0x67, 9, 0, 0, 0, 0] = .error .bodyTrunc := by decide

/-! ### Witnesses: for each statement with hypotheses, states and operands that meet them together, at the boundary values
of its clauses -/

theorem fresh_accepting : fresh.Accepting := ⟨rfl, rfl⟩

theorem fresh_frameClean : fresh.inBank.FrameClean ∧ fresh.outBank.FrameClean :=
  ⟨⟨rfl, rfl, rfl, rfl⟩, ⟨rfl, rfl, rfl, rfl⟩⟩

theorem fresh_roomFor {n : Nat} (h : n ≤ 12000016) : fresh.RoomFor n :=
  roomFor_of_le (by simpa [fresh, State.total, State.reset] using h)

theorem keyedBank_inv : keyedBank.Inv where
  unkeyed h := by cases h
  sizePos_le := by decide
  aeadPos_le := by decide
  final_tag h := by cases h
  processed_lt := by decide

theorem witness_NewStartsOrRefusesSession : (1 : BitVec 8) ≠ 0 ∧ (0xFF : BitVec 8) ≠ 0 := by decide

/-- A block with both banks keyed, to which a SEQUENCE is presented. -/
theorem witness_StepKeepsInvariant :
    (presented fresh [0x07, 0, 0, 0]).Inv ∧ ∃ t, step (presented fresh [0x07, 0, 0, 0]) = .next t := by
  refine ⟨⟨keyedBank_inv, keyedBank_inv, .inl rfl, nofun, fun _ => rfl, nofun, nofun, fun _ _ => ?_⟩, _, rfl⟩
  decide

theorem witness_DecodeOfEncodeIsSame :
    (Instr.encrypt .output [0xaa, 0xbb]).wellFormed = true ∧ (Instr.pack 0 [] [0]).wellFormed = true := by decide

theorem witness_EncodeOfDecodeIsSame : decode [0x0c, 0, 0, 0, 0, 0, 0, 0] = .ok (.auth .input []) := by rfl

theorem witness_ReservedOpcodesAreIllegal :
    (0x00 : Byte) = 0x00 ∧ (0x0F : Byte) = 0x0F ∧ 0x13 ≤ (0x13 : Byte).toNat ∧ 0x13 ≤ (0xFF : Byte).toNat := by decide

/-- Bits 9, 15, 24 and 31; the bank bit in each of the four; an argument in DESTROY and in FINAL. -/
theorem witness_MisusedWordFieldsAreIllegal :
    (0x00000201 : BitVec 32).extractLsb' 9 7 ≠ 0 ∧ (0x00008001 : BitVec 32).extractLsb' 9 7 ≠ 0 ∧
    (0x01000001 : BitVec 32).extractLsb' 24 8 ≠ 0 ∧ (0x80000001 : BitVec 32).extractLsb' 24 8 ≠ 0 ∧
    ((0x00000101 : BitVec 32).getLsbD 8 = true ∧ (0x00000101 : BitVec 32).extractLsb' 0 8 = 0x01#8) ∧
    ((0x00000102 : BitVec 32).getLsbD 8 = true ∧ (0x00000102 : BitVec 32).extractLsb' 0 8 = 0x02#8) ∧
    ((0x00000110 : BitVec 32).getLsbD 8 = true ∧ (0x00000110 : BitVec 32).extractLsb' 0 8 = 0x10#8) ∧
    ((0x00000111 : BitVec 32).getLsbD 8 = true ∧ (0x00000111 : BitVec 32).extractLsb' 0 8 = 0x11#8) ∧
    ((0x00010002 : BitVec 32).extractLsb' 16 8 ≠ 0 ∧ (0x00010002 : BitVec 32).extractLsb' 0 8 ≠ 0x01#8 ∧
      (0x00010002 : BitVec 32).extractLsb' 0 8 ≠ 0x12#8) ∧
    ((0x00FF000D : BitVec 32).extractLsb' 16 8 ≠ 0 ∧ (0x00FF000D : BitVec 32).extractLsb' 0 8 ≠ 0x01#8 ∧
      (0x00FF000D : BitVec 32).extractLsb' 0 8 ≠ 0x12#8) := by decide

theorem witness_StepRunsDecodedCommand :
    (presented fresh [0x0d, 0, 0, 0]).cmd = [0x0d, 0, 0, 0] :: [] ∧ decode [0x0d, 0, 0, 0] = .ok (.final .input) ∧
    fresh.cmd = [] := ⟨rfl, rfl, rfl⟩

/-- An empty transaction and a reserved code; in a faulted block also NEW with a bank bit. -/
theorem witness_IllegalCommandIsAnswered :
    (presented fresh []).cmd = [] :: [] ∧ decode [] = .error .shortWord ∧ fresh.fault = 0 ∧
    (presented faulted [0x0F, 0, 0, 0]).fault ≠ 0 ∧ decode [0x0F, 0, 0, 0] = .error .reservedOpcode ∧
    (∀ (b : Byte) (tail : List Byte), [0x0F, 0, 0, 0] = b :: tail → b ≠ 0x01 ∧ b ≠ 0x02 ∧ b ≠ 0x12) ∧
    decode [0x01, 0x01, 0, 0] = .error .bankNotNamed ∧
    (∃ (b : Byte) (tail : List Byte), [0x01, 0x01, 0, 0] = b :: tail ∧ (b = 0x01 ∨ b = 0x02 ∨ b = 0x12)) := by
  refine ⟨rfl, rfl, rfl, by decide, rfl, ?_, rfl, _, _, rfl, .inl rfl⟩
  rintro b tail h
  cases h
  decide

theorem witness_EachCommandIsAnsweredOnce : (presented faulted [0xFF]).cmd = [0xFF] :: [] := rfl

theorem witness_FaultedBlockRefuses :
    (Instr.pack 0 [] []).unguarded = false ∧ (Instr.final .input).unguarded = false ∧ faulted.fault ≠ 0 := by decide

theorem witness_WithoutSessionFaults :
    (Instr.feed []).unguarded = false ∧ State.reset.fault = 0 ∧ State.reset.live = false := by decide

theorem witness_UnkeyedBankFaults :
    (Instr.rekey .input).needsKeyed = some .input ∧ (Instr.pack 0 [] []).needsKeyed = some .output ∧
    (Instr.feed []).needsKeyed = some .input ∧ unkeyed.Accepting ∧ (unkeyed.bank .input).keyed = false ∧
    (unkeyed.bank .output).keyed = false := ⟨rfl, rfl, rfl, ⟨rfl, rfl⟩, rfl, rfl⟩

theorem witness_FirstFaultStaysUntilNew :
    (∃ t, step (presented faulted [0x02, 0, 0, 0]) = .next t) ∧ (presented faulted [0x02, 0, 0, 0]).fault ≠ 0 ∧
    ∀ tx rest cid, (presented faulted [0x02, 0, 0, 0]).cmd = tx :: rest → decode tx ≠ .ok (.new cid) := by
  refine ⟨⟨_, rfl⟩, by decide, ?_⟩
  rintro tx rest cid h
  cases h
  rw [test_decode_destroy]
  nofun

theorem witness_SecondInitAndUntaggedVerifyFault :
    fresh.Accepting ∧ (fresh.bank .input).keyed = true ∧ (fresh.bank .output).tagValid = false := ⟨⟨rfl, rfl⟩, rfl, rfl⟩

theorem witness_FinishedMacFaults :
    (withOut fun b => { b with macFinal := true }).Accepting ∧
    ((withOut fun b => { b with macFinal := true }).bank .output).keyed = true ∧
    ((withOut fun b => { b with macFinal := true }).bank .output).macFinal = true := ⟨⟨rfl, rfl⟩, rfl, rfl⟩

/-- A block whose `out` has used the keystreams to `n` bytes below `KS_LIMIT`. -/
def nearLimit (n : Nat) : State :=
  withOut fun b => { b with sizePos := BitVec.ofNat 64 (2 ^ 38 - 64 - n), aeadPos := BitVec.ofNat 64 (2 ^ 38 - 64 - n) }

/-- Three bytes below the limit four pass it; at the limit one does. -/
theorem witness_KeystreamLimitFaults :
    (nearLimit 3).Accepting ∧ ((nearLimit 3).bank .output).keyed = true ∧
    2 ^ 38 - 64 < ((nearLimit 3).bank .output).sizePos.toNat + 4 ∧
    2 ^ 38 - 64 < ((nearLimit 0).bank .output).aeadPos.toNat + [(0 : Byte)].length ∧
    ((nearLimit 0).bank .output).macFinal = false := ⟨⟨rfl, rfl⟩, rfl, by decide, by decide, rfl⟩

/-- `processed + n` at 2^64. -/
theorem witness_RangeFaults_count :
    (withOut fun b => { b with processed := 5 }).Accepting ∧
    ((withOut fun b => { b with processed := 5 }).bank .output).keyed = true ∧
    2 ^ 64 ≤ ((withOut fun b => { b with processed := 5 }).bank .output).processed.toNat
      + (0xFFFFFFFFFFFFFFFB : BitVec 64).toNat := ⟨⟨rfl, rfl⟩, rfl, by decide⟩

/-- A payload size of 2^32: an empty name takes 1 byte, the body length 4. -/
theorem witness_RangeFaults_payload :
    fresh.Accepting ∧ fresh.outBank.keyed = true ∧
    ∃ body : List Byte, body.length = 2 ^ 32 - 5 ∧ 2 ^ 32 ≤ (varstring []).length + 4 + body.length := by
  refine ⟨fresh_accepting, rfl, List.replicate (2 ^ 32 - 5) 0, List.length_replicate, ?_⟩
  rw [List.length_replicate]
  decide

theorem witness_MicroOperationFaultsArePrecise :
    (Instr.final .input).microOn .input = true ∧ unkeyed.fault = 0 ∧
    ∃ t, exec (.final .input) unkeyed = .next t ∧ t.fault ≠ 0 := ⟨rfl, rfl, _, rfl, by decide⟩

theorem witness_InitLoadsUnkeyedBank : unkeyed.Accepting ∧ (unkeyed.bank .output).keyed = false := ⟨⟨rfl, rfl⟩, rfl⟩

theorem witness_keyedBank :
    fresh.Accepting ∧ (fresh.bank .input).keyed = true ∧ (fresh.bank .output).keyed = true ∧
    (fresh.bank .output).macFinal = false := ⟨⟨rfl, rfl⟩, rfl, rfl, rfl⟩

/-- SEQUENCE, REKEY and REKEYX ask for no more than a keyed bank; here at the wrap. -/
theorem witness_SequenceAdvancesBank :
    (withOut fun b => { b with seq := 0xFFFFFFFF }).Accepting ∧
    ((withOut fun b => { b with seq := 0xFFFFFFFF }).bank .output).keyed = true := ⟨⟨rfl, rfl⟩, rfl⟩

theorem witness_RekeyHashesBothKeys : fresh.Accepting ∧ (fresh.bank .output).keyed = true := ⟨⟨rfl, rfl⟩, rfl⟩

theorem witness_RekeyxInstallsKeys : fresh.Accepting ∧ (fresh.bank .input).keyed = true := ⟨⟨rfl, rfl⟩, rfl⟩

/-- Exactly four bytes are left. -/
theorem witness_SizeCipherXorsNextFourBytes :
    (nearLimit 4).Accepting ∧ ((nearLimit 4).bank .output).keyed = true ∧
    ((nearLimit 4).bank .output).sizePos.toNat + 4 ≤ 2 ^ 38 - 64 := ⟨⟨rfl, rfl⟩, rfl, by decide⟩

/-- Exactly as many bytes are left as ENCRYPT asks for; and the first frame's payload. -/
theorem witness_EncryptEnciphersAndAbsorbs :
    (nearLimit 2).Accepting ∧ ((nearLimit 2).bank .output).keyed = true ∧
    ((nearLimit 2).bank .output).macFinal = false ∧
    ((nearLimit 2).bank .output).aeadPos.toNat + [(1 : Byte), 2].length ≤ 2 ^ 38 - 64 := ⟨⟨rfl, rfl⟩, rfl, rfl, by decide⟩

/-- With the MAC finished and with it open. -/
theorem witness_DecryptDeciphersAndAbsorbs :
    let s := withOut fun b => { b with macFinal := true, tagValid := true }
    s.Accepting ∧ (s.bank .output).keyed = true ∧ (s.bank .output).aeadPos.toNat + [(1 : Byte)].length ≤ 2 ^ 38 - 64 ∧
    ((nearLimit 1).bank .output).aeadPos.toNat + [(1 : Byte)].length ≤ 2 ^ 38 - 64 :=
  ⟨⟨rfl, rfl⟩, rfl, by decide, by decide⟩

theorem witness_AuthAbsorbsData :
    fresh.Accepting ∧ (fresh.bank .input).keyed = true ∧ (fresh.bank .input).macFinal = false := ⟨⟨rfl, rfl⟩, rfl, rfl⟩

theorem witness_FinalStoresTag :
    fresh.Accepting ∧ (fresh.bank .output).keyed = true ∧ (fresh.bank .output).macFinal = false := ⟨⟨rfl, rfl⟩, rfl, rfl⟩

/-- The stored tag, and one that differs in its last bit. -/
theorem witness_VerifyComparesTag :
    let s := withOut fun b => { b with tagValid := true, tag := hex 16 0x202cec40388d27ff25c6e5e140f6c29f }
    s.Accepting ∧ (s.bank .output).tagValid = true ∧ (s.bank .output).tag = hex 16 0x202cec40388d27ff25c6e5e140f6c29f ∧
    (s.bank .output).tag ≠ hex 16 0x202cec40388d27ff25c6e5e140f6c29e := ⟨⟨rfl, rfl⟩, rfl, rfl, by decide⟩

/-- Ten seconds exactly, nine; 2^30 bytes exactly, 2^30 − 1; the largest sum that 64 bits hold. -/
theorem witness_ShouldrekeyCountsAndAnswers :
    fresh.Accepting ∧ (fresh.bank .output).keyed = true ∧
    (fresh.bank .output).processed.toNat + (0xFFFFFFFFFFFFFFFF : BitVec 64).toNat < 2 ^ 64 ∧
    (fresh.bank .output).lastRekeyTime.toNat + 10 ≤ (1010 : BitVec 64).toNat ∧
    1073741824 ≤ (fresh.bank .output).processed.toNat + (1073741824 : BitVec 64).toNat ∧
    ((1009 : BitVec 64).toNat < (fresh.bank .output).lastRekeyTime.toNat + 10 ∧
      (fresh.bank .output).processed.toNat + (1073741823 : BitVec 64).toNat < 1073741824) :=
  ⟨⟨rfl, rfl⟩, rfl, by decide, by decide, by decide, by decide, by decide⟩

/-- Each value RDREG may answer is one a state has: here the widths of the registers of R42. -/
theorem witness_RdregAnswersRegister :
    (bankRegTable.map fun r => (regBytes fresh (.ofBank .output r)).length) = [4, 8, 1, 1, 8, 8, 16, 32, 8, 8, 8] ∧
    (blockRegTable.map fun r => (regBytes fresh (.ofBlock r)).length) = [1, 1, 4, 8] := by decide

/-- Two blocks with different keys, and a command of the list. -/
theorem witness_KeysDoNotShowInReads :
    fresh.setBank .output { fresh.bank .output with k1 := exampleK2, k2 := exampleK1 } ≠ fresh := by decide

theorem witness_MicroOperationsStayInTheirBank :
    (Instr.sequence .output).microOn .output = true ∧ (∃ t, exec (.sequence .output) fresh = .next t) ∧
    BankSel.input ≠ .output := ⟨rfl, ⟨_, rfl⟩, by decide⟩

theorem witness_FramingStaysInItsDirection :
    (∃ t, exec (.pack 1000 [0x78] []) fresh = .next t) ∧ ∃ t, exec (.feed frameF0) fresh = .next t :=
  ⟨⟨_, rfl⟩, ⟨_, rfl⟩⟩

/-- REKEY of the other bank. -/
theorem witness_SecretsChangeOnlyByNamedCommands :
    (∃ t, exec (.rekey .input) fresh = .next t) ∧ (∀ cid, Instr.rekey .input ≠ .new cid) ∧
    Instr.rekey .input ≠ .destroy ∧ (∀ now k1 k2 sid, Instr.rekey .input ≠ .init .output now k1 k2 sid) ∧
    Instr.rekey .input ≠ .rekey .output ∧ (∀ k1 k2, Instr.rekey .input ≠ .rekeyx .output k1 k2) ∧
    (∀ now cmd body, BankSel.output = .output → Instr.rekey .input ≠ .pack now cmd body) :=
  ⟨⟨_, rfl⟩, nofun, nofun, nofun, nofun, nofun, nofun⟩

/-- PACK, for bank `in`. -/
theorem witness_SequenceNumberChangesOnlyByNamedCommands :
    (∃ t, exec (.pack 0 [] []) fresh = .next t) ∧ (∀ cid, Instr.pack 0 [] [] ≠ .new cid) ∧
    Instr.pack 0 [] [] ≠ .destroy ∧ (∀ now k1 k2 sid, Instr.pack 0 [] [] ≠ .init .input now k1 k2 sid) ∧
    Instr.pack 0 [] [] ≠ .sequence .input ∧
    (∀ now cmd body, BankSel.input = .output → Instr.pack 0 [] [] ≠ .pack now cmd body) ∧
    (∀ data, BankSel.input = .input → Instr.pack 0 [] [] ≠ .feed data) :=
  ⟨⟨_, rfl⟩, nofun, nofun, nofun, nofun, nofun, nofun⟩

theorem witness_HaltLastsUntilNewOrDestroy :
    (∃ t, exec (.feed [1]) { fresh with halted := true } = .next t) ∧
    ({ fresh with halted := true } : State).halted = true ∧
    (∀ cid, Instr.feed [1] ≠ .new cid) ∧ Instr.feed [1] ≠ .destroy ∧ fresh.halted = false ∧
    (Instr.final .input).isFeed = false := ⟨⟨_, rfl⟩, rfl, nofun, nofun, rfl, rfl⟩

/-- The two pieces end exactly at the limit. -/
theorem witness_ChunkedDataHasSameEffect :
    (nearLimit 3).Accepting ∧ ((nearLimit 3).bank .output).keyed = true ∧
    ((nearLimit 3).bank .output).aeadPos.toNat + ([(1 : Byte), 2].length + [(3 : Byte)].length) ≤ 2 ^ 38 - 64 ∧
    ((nearLimit 3).bank .output).macFinal = false := ⟨⟨rfl, rfl⟩, rfl, by decide, rfl⟩

/-- The two banks of one block, and a payload of two bytes. -/
theorem witness_TagsAgreeAndDecryptInverts :
    fresh.Accepting ∧ (fresh.bank .output).keyed = true ∧ (fresh.bank .input).keyed = true ∧
    (fresh.bank .output).k2 = (fresh.bank .input).k2 ∧ (fresh.bank .output).seq = (fresh.bank .input).seq ∧
    (fresh.bank .output).aeadPos = 0 ∧ (fresh.bank .output).macData = [] ∧ (fresh.bank .output).macFinal = false ∧
    (fresh.bank .input).aeadPos = 0 ∧ (fresh.bank .input).macData = [] ∧ (fresh.bank .input).macFinal = false ∧
    [(1 : Byte), 2].length ≤ 2 ^ 38 - 64 :=
  ⟨⟨rfl, rfl⟩, rfl, rfl, rfl, rfl, rfl, rfl, rfl, rfl, rfl, rfl, by decide⟩

theorem witness_RekeyKeepsEqualBanksEqual :
    fresh.Accepting ∧ (fresh.bank .output).keyed = true ∧ (fresh.bank .input).keyed = true ∧
    (fresh.bank .output).sid = (fresh.bank .input).sid ∧ (fresh.bank .output).k1 = (fresh.bank .input).k1 ∧
    (fresh.bank .output).k2 = (fresh.bank .input).k2 := ⟨⟨rfl, rfl⟩, rfl, rfl, rfl, rfl, rfl⟩

/-- FEED of a good frame beside PACK, and a micro-operation on each bank. -/
theorem witness_CommandsOnTheTwoBanksCommute :
    (Instr.feed [0x3f]).inSide = true ∧ (Instr.pack 1000 [0x78] []).outSide = true ∧
    (∃ a b, exec (.feed [0x3f]) fresh = .next a ∧ exec (.pack 1000 [0x78] []) fresh = .next b ∧ a.fault = 0 ∧ b.fault = 0) ∧
    (Instr.sequence .input).inSide = true ∧ (Instr.final .output).outSide = true ∧
    (∃ a b, exec (.sequence .input) fresh = .next a ∧ exec (.final .output) fresh = .next b ∧ a.fault = 0 ∧ b.fault = 0) :=
  ⟨rfl, rfl, ⟨_, _, rfl, rfl, by decide, by decide⟩, rfl, rfl, ⟨_, _, rfl, rfl, by decide, by decide⟩⟩

/-- A block whose next 31-byte frame reaches the high-water mark. -/
def nearHwm : State := withOut fun b => { b with processed := 1073741824 - 31 }

/-- The trigger not due, and due by volume at the exact mark. -/
theorem witness_PackFrameInClosedForm :
    fresh.Accepting ∧ fresh.outBank.keyed = true ∧ fresh.outBank.FrameClean ∧
    11 = (csEncode [(0x78 : Byte)].length).length + [(0x78 : Byte)].length + 4 + [(1 : Byte), 2, 3, 4, 5].length ∧
    11 < 2 ^ 32 ∧ fresh.outBank.processed.toNat < 1073741824 ∧
    false = decide (fresh.outBank.lastRekeyTime.toNat + 10 ≤ (1009 : BitVec 64).toNat ∨
      1073741824 ≤ fresh.outBank.processed.toNat + (4 + 11 + 16)) ∧
    true = decide (nearHwm.outBank.lastRekeyTime.toNat + 10 ≤ (1009 : BitVec 64).toNat ∨
      1073741824 ≤ nearHwm.outBank.processed.toNat + (4 + 11 + 16)) :=
  ⟨fresh_accepting, rfl, fresh_frameClean.2, by decide, by decide, by decide, by decide, by decide⟩

/-- A block whose `out` has a finished MAC. -/
def unclean : State := withOut fun b => { b with macFinal := true, tagValid := true }

/-- A bank that is not frame-clean, so that PACK faults in the middle, and one that is. -/
theorem witness_PackEqualsItsExpansion :
    (unclean.Accepting ∧ unclean.outBank.keyed = true ∧ payloadSize [0x78] [] < 2 ^ 32 ∧
      after (.pack 1000 [0x78] []) unclean (·.fault) 0 = 0x15) ∧
    fresh.Accepting ∧ fresh.outBank.keyed = true ∧ after (.pack 1000 [0x78] []) fresh (·.fault) 1 = 0 :=
  ⟨⟨⟨rfl, rfl⟩, rfl, by decide, by decide⟩, ⟨rfl, rfl⟩, rfl, by decide⟩

theorem witness_HaltedFeedDropsData :
    ({ fresh with halted := true } : State).Accepting ∧ ({ fresh with halted := true } : State).inBank.keyed = true ∧
    ({ fresh with halted := true } : State).halted = true := ⟨⟨rfl, rfl⟩, rfl, rfl⟩

/-- Room there always is for up to the least capacity; whether more bytes overflow depends on the capacity left free. -/
theorem witness_FeedFaultsExactlyOnOverflow :
    fresh.Accepting ∧ fresh.inBank.keyed = true ∧ fresh.halted = false ∧ fresh.RoomFor 12000016 ∧
    ∀ cap, Config.rxqCapacity = some cap → ¬ fresh.RoomFor (cap + 1) := by
  refine ⟨fresh_accepting, rfl, rfl, fresh_roomFor (Nat.le_refl _), fun cap h hr => ?_⟩
  have := hr cap h
  omega

/-- Three bytes where four are waited for. -/
theorem witness_ShortQueueOnlyGrows :
    fresh.Accepting ∧ fresh.inBank.keyed = true ∧ fresh.halted = false ∧ fresh.RoomFor [(1 : Byte), 2, 3].length ∧
    fresh.pending.length + [(1 : Byte), 2, 3].length < fresh.waiting.toNat :=
  ⟨fresh_accepting, rfl, rfl, fresh_roomFor (by decide), by decide⟩

/-- What every clause of `FrameOutcomes` asks of the state. -/
theorem witness_FrameOutcomes_state :
    fresh.Accepting ∧ fresh.inBank.keyed = true ∧ fresh.inBank.FrameClean ∧ fresh.hasSize = false ∧ fresh.waiting = 4 ∧
    fresh.halted = false ∧ ∀ n, n ≤ 12000016 → fresh.RoomFor n :=
  ⟨fresh_accepting, rfl, fresh_frameClean.1, rfl, rfl, rfl, fun _ h => fresh_roomFor h⟩

/-- V28: sizes 5 and 12,000,001, out of bounds; 6 and 12,000,000, within. -/
theorem witness_FrameOutcomes_sizes :
    fresh.inBank.decipheredSize [0x3c, 0xfd, 0x2b, 0x7d] = 5 ∧
    fresh.inBank.decipheredSize [0x38, 0xe6, 0x9c, 0x7d] = 12000001 ∧
    fresh.inBank.decipheredSize [0x3f, 0xfd, 0x2b, 0x7d] = 6 ∧
    fresh.inBank.decipheredSize [0x39, 0xe6, 0x9c, 0x7d] = 12000000 := by decide

/-- V32: a whole 26-byte frame whose tag is good and whose payload parses, whatever `STRICT_CS`. -/
theorem witness_FrameOutcomes_good :
    let queue := beBytes 26 0x3ffd2b7d811b5fdc1388db05bf8119cafba4945a11b068f9142b
    4 + 6 + 16 ≤ queue.length ∧ queue.length < 4 + 6 + 16 + 4 ∧
    fresh.inBank.decipheredSize (queue.take 4) = 6 ∧
    (crypto.tag fresh.inBank.k2 fresh.inBank.iv ((queue.drop 4).take 6)).val = (queue.drop (4 + 6)).take 16 ∧
    parseInner Config.strictCs (fresh.inBank.decipheredPayload ((queue.drop 4).take 6)) = .ok [⟨[0x78], []⟩] :=
  ⟨by decide, by decide, by decide, by decide, by rfl⟩

/-- V31: a good tag over a payload whose name runs past its end; and the same frame with the last bit of the tag
changed. -/
theorem witness_FrameOutcomes_bad :
    let queue := beBytes 26 0x3ffd2b7d891336b274f09e7746d4885294d1f1b5db9b6cf1298b
    4 + 6 + 16 ≤ queue.length ∧ fresh.inBank.decipheredSize (queue.take 4) = 6 ∧
    (crypto.tag fresh.inBank.k2 fresh.inBank.iv ((queue.drop 4).take 6)).val = (queue.drop (4 + 6)).take 16 ∧
    parseInner Config.strictCs (fresh.inBank.decipheredPayload ((queue.drop 4).take 6)) = .error .cmdTrunc ∧
    (crypto.tag fresh.inBank.k2 fresh.inBank.iv ((queue.drop 4).take 6)).val
      ≠ ((beBytes 26 0x3ffd2b7d891336b274f09e7746d4885294d1f1b5db9b6cf1298a).drop (4 + 6)).take 16 :=
  ⟨by decide, by decide, by decide, by rfl, by decide⟩

theorem witness_ErrorEventIsLastAndHalts :
    fresh.Accepting ∧ fresh.inBank.keyed = true ∧ fresh.halted = false ∧ fresh.RoomFor frameF0.length :=
  ⟨fresh_accepting, rfl, rfl, fresh_roomFor (by decide)⟩

theorem witness_FeedEndsHaltedOrWaiting :
    fresh.Accepting ∧ fresh.inBank.keyed = true ∧
    ∃ t, exec (.feed [0x3c, 0xfd, 0x2b, 0x7d]) fresh = .next t ∧ t.fault = 0 :=
  ⟨fresh_accepting, rfl, _, rfl, by decide⟩

/-- A block that waits for the largest payload. -/
def inPhaseB : State :=
  { fresh with inBank := { keyedBank with sizePos := 4 }, hasSize := true, waiting := 12000016 }

/-- In phase A; and in phase B, waiting for the largest payload. -/
theorem witness_FeedOnSyncedBankRaisesNoFault :
    fresh.Accepting ∧ fresh.inBank.keyed = true ∧ fresh.ParserSynced ∧ fresh.RoomFor 12000016 ∧
    inPhaseB.Accepting ∧ inPhaseB.inBank.keyed = true ∧ inPhaseB.ParserSynced ∧ inPhaseB.RoomFor 12000016 :=
  ⟨fresh_accepting, rfl, .inl ⟨rfl, rfl, fresh_frameClean.1⟩, fresh_roomFor (Nat.le_refl _),
    ⟨rfl, rfl⟩, rfl, .inr ⟨rfl, by decide, by decide, rfl, rfl, rfl, rfl⟩, roomFor_of_le (by decide)⟩

/-- A frame cut into three pieces, one of them empty. -/
theorem witness_EventsDoNotDependOnTheCut :
    fresh.Accepting ∧ fresh.inBank.keyed = true ∧ (fresh.halted = true ∨ fresh.ParserSynced) ∧
    fresh.RoomFor [frameF0.take 3, [], frameF0.drop 3].flatten.length ∧ [frameF0.take 3, [], frameF0.drop 3] ≠ [] :=
  ⟨fresh_accepting, rfl, .inr (.inl ⟨rfl, rfl, fresh_frameClean.1⟩), fresh_roomFor (by decide), by decide⟩

/-- The smallest payload, 6 bytes, without a re-key. -/
theorem witness_PackedFrameIsDelivered :
    fresh.Accepting ∧ fresh.outBank.keyed = true ∧ fresh.outBank.FrameClean ∧
    fresh.outBank.processed.toNat < 1073741824 ∧ payloadSize [0x78] [] = 6 ∧
    false = decide (fresh.outBank.lastRekeyTime.toNat + 10 ≤ (1000 : BitVec 64).toNat ∨
      1073741824 ≤ fresh.outBank.processed.toNat + (4 + payloadSize [0x78] [] + 16)) ∧
    fresh.inBank.keyed = true ∧ fresh.inBank.FrameClean ∧ fresh.hasSize = false ∧ fresh.waiting = 4 ∧
    fresh.halted = false ∧ fresh.pending = [] ∧ fresh.RoomFor (4 + payloadSize [0x78] [] + 16) ∧
    fresh.inBank.k1 = fresh.outBank.k1 ∧ fresh.inBank.k2 = fresh.outBank.k2 ∧ fresh.inBank.seq = fresh.outBank.seq :=
  ⟨fresh_accepting, rfl, fresh_frameClean.2, by decide, by decide, by decide, rfl, fresh_frameClean.1, rfl, rfl, rfl, rfl,
    fresh_roomFor (by decide), rfl, rfl, rfl⟩

/-- A receiver that has re-keyed `in` once. -/
def stepped : State :=
  { fresh with
    inBank :=
      { keyedBank with
        k1 := crypto.sha256d (exampleSid.val ++ exampleK1.val), k2 := crypto.sha256d (exampleSid.val ++ exampleK2.val) } }

/-- With the re-key, the receiver having taken the same step: the largest frame for which every `RXQ_CAPACITY` of R8 has room
(the least one, 12,000,016, has none for a frame of 12,000,020 bytes fed at once). -/
theorem witness_PackedFrameIsDelivered_rekeyed :
    ∃ body : List Byte, payloadSize [0x78] body = 11999996 ∧
      true = decide (fresh.outBank.lastRekeyTime.toNat + 10 ≤ (1010 : BitVec 64).toNat ∨
        1073741824 ≤ fresh.outBank.processed.toNat + (4 + payloadSize [0x78] body + 16)) ∧
      stepped.Accepting ∧ stepped.inBank.keyed = true ∧ stepped.inBank.FrameClean ∧
      stepped.inBank.k1 = crypto.sha256d (fresh.outBank.sid.val ++ fresh.outBank.k1.val) ∧
      stepped.inBank.k2 = crypto.sha256d (fresh.outBank.sid.val ++ fresh.outBank.k2.val) ∧
      stepped.inBank.seq = fresh.outBank.seq ∧ stepped.RoomFor (4 + payloadSize [0x78] body + 16) := by
  have h : payloadSize [0x78] (List.replicate 11999990 0) = 11999996 := by
    rw [payloadSize, List.length_replicate]
    decide
  refine ⟨List.replicate 11999990 0, h, ?_, ⟨rfl, rfl⟩, rfl, ⟨rfl, rfl, rfl, rfl⟩, rfl, rfl, rfl, ?_⟩
  · rw [eq_comm, decide_eq_true_eq]
    exact .inl (by decide)
  · rw [h]
    exact roomFor_of_le (by decide)

/-- The ends of the four forms. -/
theorem witness_CompactSizeIsReadBack : 0 < 2 ^ 64 ∧ 252 < 2 ^ 64 ∧ 65535 < 2 ^ 64 ∧ 4294967295 < 2 ^ 64 := by decide

/-- An empty message, then one with a name and a body. -/
theorem witness_InnerMessagesAreReadBack :
    ∀ m ∈ [Message.mk [] [], Message.mk [0x78] [1]], m.cmd.length < 2 ^ 64 ∧ m.body.length < 2 ^ 32 := by decide

theorem witness_StrictPayloadIsItsMessages :
    parseInner true [1, 0x78, 0, 0, 0, 0, 0, 1, 0, 0, 0, 0x99] = .ok [⟨[0x78], []⟩, ⟨[], [0x99]⟩] := by decide

theorem witness_MacInputTellsCiphertextsApart :
    [(1 : Byte)].length < 2 ^ 64 ∧ macInput [1] = macInput [1] ∧ macInput [1] ≠ macInput [1, 0] := by decide

end Sys2Proof.Tests
end

section
/-! What a run leaves behind, and what each command can do to the block: the state a run ends in, what an answer leaves
alone, the run each micro-operation is on its bank, and everything a command can do (`Effect`), said once. -/

namespace Sys2Proof.Machine

/-! ### The state and the outcome of a run -/

/-- The state a run ends in, raised or not (spec/60_exceptions.md R345). -/
def Run.state {σ α : Type} : Run σ α → σ
  | .done _ s => s
  | .raised _ s => s

/-- What a run answers, without the state. -/
def Run.outcome {σ α : Type} : Run σ α → Except FaultCode α
  | .done a _ => .ok a
  | .raised c _ => .error c

@[simp] theorem state_done {σ α : Type} (a : α) (s : σ) : (Run.done a s).state = s := rfl

@[simp] theorem state_raised {σ α : Type} (c : FaultCode) (s : σ) : (Run.raised c s : Run σ α).state = s := rfl

@[simp] theorem outcome_done {σ α : Type} (a : α) (s : σ) : (Run.done a s).outcome = .ok a := rfl

@[simp] theorem outcome_raised {σ α : Type} (c : FaultCode) (s : σ) :
    (Run.raised c s : Run σ α).outcome = .error c := rfl

/-- What the first part of a run establishes and the rest keeps holds at its end. -/
theorem bind_state_of {σ α β : Type} (P : σ → Prop) {r : Run σ α} {f : α → σ → Run σ β} (hr : P r.state)
    (hf : ∀ a s, P s → P (f a s).state) : P (r.bind f).state := by
  cases r with
  | done a s => exact hf a s hr
  | raised c s => exact hr

@[simp] theorem bind_result_state {σ α β : Type} (r : Run σ α) (g : α → β) :
    (r.bind fun a s => .done (g a) s).state = r.state := by
  cases r <;> rfl

theorem bind_result_outcome {σ τ α β : Type} {r : Run σ α} {r' : Run τ α} (g : α → β) (h : r.outcome = r'.outcome) :
    (r.bind fun a s => .done (g a) s).outcome = (r'.bind fun a s => .done (g a) s).outcome := by
  cases r <;> cases r' <;> cases h <;> rfl

@[simp] theorem onBank_state {α : Type} (s : State) (sel : BankSel) (op : Bank → Run Bank α) :
    (s.onBank sel op).state = s.setBank sel (op (s.bank sel)).state := by
  unfold State.onBank
  cases op (s.bank sel) <;> rfl

@[simp] theorem onBank_outcome {α : Type} (s : State) (sel : BankSel) (op : Bank → Run Bank α) :
    (s.onBank sel op).outcome = (op (s.bank sel)).outcome := by
  unfold State.onBank
  cases op (s.bank sel) <;> rfl

/-- The result of a run on a bank may be laid out on the bank's run as well as on the block's. -/
theorem onBank_bind_result {α β : Type} (s : State) (sel : BankSel) (op : Bank → Run Bank α) (g : α → β) :
    (s.onBank sel op).bind (fun a s => .done (g a) s) = s.onBank sel fun b => (op b).bind fun a b => .done (g a) b := by
  simp only [State.onBank]
  cases op (s.bank sel) <;> rfl

/-! ### What an answer leaves alone -/

/-- What of the state an answer, a raise or a refusal leaves alone: all but `rsp` and, where it is 0, `fault`. -/
structure AnswerFrame (s t : State) : Prop where
  bank : ∀ sel, t.bank sel = s.bank sel
  live : t.live = s.live
  pending : t.pending = s.pending
  waiting : t.waiting = s.waiting
  hasSize : t.hasSize = s.hasSize
  halted : t.halted = s.halted
  cmd : t.cmd = s.cmd
  fault : t.fault = s.fault ∨ (s.fault = 0 ∧ ∃ c : FaultCode, t.fault = c.byte)

theorem respond_frame (s : State) (r : Response) : AnswerFrame s (s.respond r) :=
  ⟨fun sel => bank_respond s r sel, rfl, rfl, rfl, rfl, rfl, rfl, .inl rfl⟩

theorem refuse_frame (s : State) : AnswerFrame s s.refuse := respond_frame s _

theorem raise_frame (s : State) (c : FaultCode) (events : List Event) : AnswerFrame s (s.raise c events) where
  bank sel := bank_raise s c events sel
  live := rfl
  pending := rfl
  waiting := rfl
  hasSize := rfl
  halted := rfl
  cmd := rfl
  fault := by
    rw [raise_fault]
    split
    · next h => exact .inr ⟨h, c, rfl⟩
    · exact .inl rfl

theorem answer_frame (events : List Event) (r : Run State (List Byte)) : AnswerFrame r.state (answer events r) := by
  cases r with
  | done a s => exact respond_frame s _
  | raised c s => exact raise_frame s c events

theorem illegalCommand_frame (s : State) (tx : List Byte) : AnswerFrame s (s.illegalCommand tx) := by
  rcases illegalCommand_cases s tx with ⟨_, _, h⟩ | ⟨_, h⟩ <;> rw [h]
  · exact refuse_frame s
  · exact raise_frame s _ _

/-- `fault` keeps its first code (spec/10_state.md R34). -/
theorem AnswerFrame.fault_of_ne_zero {s t : State} (h : AnswerFrame s t) (hs : s.fault ≠ 0) : t.fault = s.fault := by
  rcases h.fault with h | ⟨h, _⟩
  · exact h
  · exact absurd h hs

theorem AnswerFrame.fault_eq_zero {s t : State} (h : AnswerFrame s t) (ht : t.fault = 0) : s.fault = 0 := by
  rcases h.fault with h | ⟨h, _⟩
  · exact h ▸ ht
  · exact h

theorem legalFault_byte (c : FaultCode) : LegalFault c.byte := .inr (faultCode_byte_range c)

theorem AnswerFrame.legalFault {s t : State} (h : AnswerFrame s t) (hs : LegalFault s.fault) : LegalFault t.fault := by
  rcases h.fault with h | ⟨_, c, h⟩ <;> rw [h]
  · exact hs
  · exact legalFault_byte c

/-- A guarded operation answers without touching the block, or runs in an accepting one (R130). -/
theorem guarded_frame (s : State) (f : State → State) :
    AnswerFrame s (s.guarded f) ∨ (s.Accepting ∧ s.guarded f = f s) := by
  rcases guarded_cases s f with ⟨_, h⟩ | ⟨_, _, h⟩ | h
  · exact .inl (h ▸ refuse_frame s)
  · exact .inl (h ▸ raise_frame s _ _)
  · exact .inr h

end Sys2Proof.Machine

namespace Sys2Proof

open Machine

/-- The run a micro-operation is on the bank it names, with the bytes it answers; `exec_bankRun` ties it to `exec`. Of any
other command it is a run that does nothing. -/
def Instr.bankRun : Instr → Bank → Run Bank (List Byte)
  | .init _ now k1 k2 sid, b => (b.load now k1 k2 sid).bind fun _ b => .done [] b
  | .rekey _, b => b.rekey.bind fun _ b => .done [] b
  | .rekeyx _ k1 k2, b => (b.rekeyWith k1 k2).bind fun _ b => .done [] b
  | .shouldrekey _ now n, b => (b.shouldRekey now n.toNat).bind fun due b => .done (boolResult due) b
  | .sequence _, b => b.sequence.bind fun _ b => .done [] b
  | .encsize _ buf, b | .decsize _ buf, b => b.cryptSize buf.val
  | .encrypt _ data, b => b.encrypt data
  | .decrypt _ data, b => b.decrypt data
  | .auth _ data, b => (b.auth data).bind fun _ b => .done [] b
  | .final _, b => b.final
  | .verify _ tag, b => (b.verify tag.val).bind fun good b => .done (boolResult good) b
  | .new _, b | .destroy, b | .pack _ _ _, b | .feed _, b | .rdreg _, b => .done [] b

end Sys2Proof

namespace Sys2Proof.Machine

/-! ### Everything a command can do -/

theorem runUnit_eq (s : State) (sel : BankSel) (op : Bank → Run Bank Unit) :
    s.runUnit sel op = s.guarded fun s => answer [] (s.onBank sel fun b => (op b).bind fun _ b => .done [] b) :=
  congrArg s.guarded (funext fun s => congrArg (answer []) (onBank_bind_result s sel op fun _ => []))

theorem runBool_eq (s : State) (sel : BankSel) (op : Bank → Run Bank Bool) :
    s.runBool sel op =
      s.guarded fun s => answer [] (s.onBank sel fun b => (op b).bind fun a b => .done (boolResult a) b) :=
  congrArg s.guarded (funext fun s => congrArg (answer []) (onBank_bind_result s sel op boolResult))

/-- A micro-operation is its run on the bank it names, guarded, and answered without events (R130, R132). -/
theorem exec_bankRun {i : Instr} {sel : BankSel} (h : i.microOn sel = true) (s : State) :
    exec i s = .next (s.guarded fun s => answer [] (s.onBank sel i.bankRun)) := by
  cases i <;> simp only [Instr.microOn, beq_iff_eq, Bool.false_eq_true] at h <;> subst h
  case init => exact congrArg _ (runUnit_eq s _ _)
  case rekey => exact congrArg _ (runUnit_eq s _ _)
  case rekeyx => exact congrArg _ (runUnit_eq s _ _)
  case shouldrekey => exact congrArg _ (runBool_eq s _ _)
  case sequence => exact congrArg _ (runUnit_eq s _ _)
  case encsize => rfl
  case decsize => rfl
  case encrypt => rfl
  case decrypt => rfl
  case auth => exact congrArg _ (runUnit_eq s _ _)
  case final => rfl
  case verify => exact congrArg _ (runBool_eq s _ _)

/-- PACK's steps on bank `out`, the trigger and then the frame (spec/42_pack.md R200); `execPack_frame` ties it to
`execPack`. -/
def Bank.packRun (now : BitVec 64) (cmd body : List Byte) (b : Bank) : Run Bank (List Byte) :=
  (b.packTrigger now cmd body).bind fun due b => b.packFrame due cmd body

/-- PACK answers without touching the block, or leaves `out` as its steps left it. -/
theorem execPack_frame {s t : State} {now : BitVec 64} {cmd body : List Byte} (h : execPack now cmd body s = .next t) :
    AnswerFrame s t ∨
      (s.Accepting ∧ AnswerFrame (s.setBank .output (s.outBank.packRun now cmd body).state) t) := by
  rw [execPack, Host.Outcome.next.injEq] at h
  subst h
  rcases guarded_frame s _ with h | ⟨ha, h⟩
  · exact .inl h
  refine .inr ⟨ha, ?_⟩
  rw [h, Bank.packRun]
  cases ht : s.outBank.packTrigger now cmd body with
  | raised c b =>
    rw [onBank_of_raised (sel := .output) ht]
    exact raise_frame _ _ _
  | done due b =>
    rw [onBank_of_done (sel := .output) ht]
    simpa using answer_frame (packEvents due) ((s.setBank .output b).onBank .output (Bank.packFrame due cmd body))

/-- The block with its session cleared, as NEW and DESTROY leave it, and their answer given (R133, R134). -/
def State.cleared (s : State) (live : Bool) (fault : BitVec 8) (r : Response) : State :=
  State.respond { s.resetSession with live := live, fault := fault } r

@[simp] theorem cleared_rsp (s : State) (live : Bool) (fault : BitVec 8) (r : Response) :
    (s.cleared live fault r).rsp = s.rsp ++ [r.encode] := rfl

theorem exec_new_zero (s : State) : exec (.new 0) s = .next (s.cleared true 0 (okResponse [])) := rfl

theorem exec_new_ne_zero {cid : BitVec 8} (h : cid ≠ 0) (s : State) :
    exec (.new cid) s = .next (s.cleared false FaultCode.badCipher.byte (faultResponse .badCipher [])) :=
  congrArg _ (if_neg h)

theorem exec_destroy (s : State) : exec .destroy s = .next (s.cleared false s.fault (okResponse [])) := rfl

/-- Everything a command can do to the block. -/
inductive Effect (s : State) : Instr → State → Prop
  /-- NEW clears the session and opens one, or records a fault (R133). -/
  | new (cid : BitVec 8) (live : Bool) (fault : BitVec 8) (r : Response) (h : LegalFault fault) :
    Effect s (.new cid) (s.cleared live fault r)
  /-- DESTROY clears the session (R134). -/
  | destroy (r : Response) : Effect s .destroy (s.cleared false s.fault r)
  /-- The command is refused, faults before it runs, or only reads. -/
  | answered (i : Instr) (t : State) (h : AnswerFrame s t) : Effect s i t
  /-- A micro-operation runs on its bank. -/
  | ran (i : Instr) (sel : BankSel) (t : State) (hi : i.microOn sel = true) (ha : s.Accepting)
    (h : AnswerFrame (s.setBank sel (i.bankRun (s.bank sel)).state) t) : Effect s i t
  /-- PACK runs on bank `out`. -/
  | packed (now : BitVec 64) (cmd body : List Byte) (t : State) (ha : s.Accepting)
    (h : AnswerFrame (s.setBank .output (s.outBank.packRun now cmd body).state) t) : Effect s (.pack now cmd body) t
  /-- FEED appends to the queue and runs the parser. -/
  | fed (data : List Byte) (ha : s.Accepting) (hk : s.inBank.keyed = true) (hh : s.halted = false) :
    Effect s (.feed data) (runLoop [] (s.rxqAppend data)).answered

theorem effect_of_micro {i : Instr} {sel : BankSel} (hi : i.microOn sel = true) {s t : State}
    (h : exec i s = .next t) : Effect s i t := by
  rw [exec_bankRun hi, Host.Outcome.next.injEq] at h
  subst h
  rcases guarded_frame s _ with h | ⟨ha, h⟩
  · exact .answered i _ h
  · refine .ran i sel _ hi ha ?_
    rw [h, ← onBank_state]
    exact answer_frame [] _

theorem effect_of_new {cid : BitVec 8} {s t : State} (h : exec (.new cid) s = .next t) : Effect s (.new cid) t := by
  by_cases hc : cid = 0
  · subst hc
    rw [exec_new_zero, Host.Outcome.next.injEq] at h
    exact h ▸ .new 0 true 0 _ (.inl rfl)
  · rw [exec_new_ne_zero hc, Host.Outcome.next.injEq] at h
    exact h ▸ .new cid false _ _ (legalFault_byte .badCipher)

theorem effect_of_feed {data : List Byte} {s t : State} (h : exec (.feed data) s = .next t) :
    Effect s (.feed data) t := by
  rw [show exec (.feed data) s = execFeed data s from rfl, execFeed, Host.Outcome.next.injEq] at h
  subst h
  rcases guarded_frame s (State.feed data) with h | ⟨ha, h⟩
  · exact .answered _ _ h
  rw [h]
  rcases feed_cases data s with ⟨_, h⟩ | ⟨_, _, h⟩ | ⟨_, _, _, h⟩ | ⟨hk, hh, _, h⟩ <;> rw [h]
  · exact .answered _ _ (raise_frame s _ _)
  · exact .answered _ _ (respond_frame s _)
  · exact .answered _ _ (raise_frame s _ _)
  · exact .fed data ha hk hh

/-- What `exec` answers is one of the effects. -/
theorem exec_effect {i : Instr} {s t : State} (h : exec i s = .next t) : Effect s i t := by
  cases i with
  | new cid => exact effect_of_new h
  | destroy => cases h; exact .destroy _
  | pack now cmd body =>
    rcases execPack_frame h with h | ⟨ha, h⟩
    · exact .answered _ _ h
    · exact .packed now cmd body t ha h
  | feed data => exact effect_of_feed h
  | rdreg reg => cases h; exact .answered _ _ (respond_frame s _)
  | init sel | rekey sel | rekeyx sel | shouldrekey sel | sequence sel | encsize sel | decsize sel | encrypt sel
  | decrypt sel | auth sel | final sel | verify sel => exact effect_of_micro (sel := sel) (by simp [Instr.microOn]) h

/-- Everything a step can do: nothing presented, a command executed, or an illegal one answered (R75, R98). -/
theorem step_cases {s t : State} (h : step s = .next t) :
    (s.cmd = [] ∧ t = s) ∨
    (∃ tx rest, s.cmd = tx :: rest ∧
      ((∃ i, decode tx = .ok i ∧ Effect { s with cmd := rest } i t) ∨ AnswerFrame { s with cmd := rest } t)) := by
  cases hc : s.cmd with
  | nil =>
    rw [step, takeCommand_nil hc] at h
    cases h
    exact .inl ⟨rfl, rfl⟩
  | cons tx rest =>
    refine .inr ⟨tx, rest, rfl, ?_⟩
    simp only [step, takeCommand_cons hc] at h
    cases hd : decode tx with
    | ok i =>
      rw [hd] at h
      exact .inl ⟨i, rfl, exec_effect h⟩
    | error e =>
      rw [hd] at h
      cases h
      exact .inr (illegalCommand_frame _ tx)

end Sys2Proof.Machine
end

section
/-! What each operation on a bank keeps: the invariant, the session's secrets, the keys, the sequence number. -/

namespace Sys2Proof.Machine

/-! ### The bank's invariant -/

theorem hwm_eq : Config.hwm = 2 ^ 30 := by decide

theorem ksLimit_eq : Config.ksLimit = 2 ^ 38 - 64 := rfl

theorem bankReset_inv : Bank.reset.Inv where
  unkeyed _ := rfl
  sizePos_le := Nat.zero_le _
  aeadPos_le := Nat.zero_le _
  final_tag h := by cases h
  processed_lt := by decide

theorem load_inv {b : Bank} (h : b.Inv) (now : BitVec 64) (k1 k2 sid : Config.Key) :
    (b.load now k1 k2 sid).state.Inv := by
  rcases load_cases b now k1 k2 sid with ⟨_, e⟩ | ⟨_, e⟩ <;> rw [e]
  · exact h
  · exact ⟨by simp, Nat.zero_le _, Nat.zero_le _, by simp, h.processed_lt⟩

theorem sequence_inv {b : Bank} (h : b.Inv) : b.sequence.state.Inv := by
  rcases sequence_cases b with ⟨_, e⟩ | ⟨hk, e⟩ <;> rw [e]
  · exact h
  · exact ⟨by simp [hk], Nat.zero_le _, Nat.zero_le _, by simp, h.processed_lt⟩

theorem rekeyWith_inv {b : Bank} (h : b.Inv) (k1 k2 : Config.Key) : (b.rekeyWith k1 k2).state.Inv := by
  rcases rekeyWith_cases b k1 k2 with ⟨_, e⟩ | ⟨hk, e⟩ <;> rw [e]
  · exact h
  · exact ⟨by simp [hk], Nat.zero_le _, Nat.zero_le _, by simp, h.processed_lt⟩

theorem rekey_inv {b : Bank} (h : b.Inv) : b.rekey.state.Inv := rekeyWith_inv h _ _

theorem cryptSize_inv {b : Bank} (h : b.Inv) (buf : List Byte) : (b.cryptSize buf).state.Inv := by
  rcases cryptSize_cases b buf with ⟨_, e⟩ | ⟨_, _, e⟩ | ⟨hk, hp, e⟩ <;> rw [e]
  · exact h
  · exact h
  · refine ⟨by simp [hk], ?_, h.aeadPos_le, h.final_tag, h.processed_lt⟩
    rw [ksLimit_eq] at hp ⊢
    simp only [state_done]
    bv_omega

/-- A payload position that is moved within the limit stays within it. -/
theorem aeadPos_add_le {p : BitVec 64} {n : Nat} (h : p.toNat + n ≤ Config.ksLimit) :
    (p + BitVec.ofNat 64 n).toNat ≤ Config.ksLimit := by
  rw [BitVec.toNat_add, BitVec.toNat_ofNat]
  rw [ksLimit_eq] at h ⊢
  omega

theorem encrypt_inv {b : Bank} (h : b.Inv) (data : List Byte) : (b.encrypt data).state.Inv := by
  rcases encrypt_cases b data with ⟨_, e⟩ | ⟨_, _, e⟩ | ⟨_, _, _, e⟩ | ⟨hk, _, hp, e⟩ <;> rw [e]
  · exact h
  · exact h
  · exact h
  · exact ⟨by simp [hk], h.sizePos_le, aeadPos_add_le hp, h.final_tag, h.processed_lt⟩

theorem decrypt_inv {b : Bank} (h : b.Inv) (data : List Byte) : (b.decrypt data).state.Inv := by
  rcases decrypt_cases b data with ⟨_, e⟩ | ⟨_, _, e⟩ | ⟨hk, hp, e⟩ <;> rw [e]
  · exact h
  · exact h
  · exact ⟨by simp [hk], h.sizePos_le, aeadPos_add_le hp, h.final_tag, h.processed_lt⟩

theorem auth_inv {b : Bank} (h : b.Inv) (data : List Byte) : (b.auth data).state.Inv := by
  rcases auth_cases b data with ⟨_, e⟩ | ⟨_, _, e⟩ | ⟨hk, _, e⟩ <;> rw [e]
  · exact h
  · exact h
  · exact ⟨by simp [hk], h.sizePos_le, h.aeadPos_le, h.final_tag, h.processed_lt⟩

theorem final_inv {b : Bank} (h : b.Inv) : b.final.state.Inv := by
  rcases final_cases b with ⟨_, e⟩ | ⟨_, _, e⟩ | ⟨hk, _, e⟩ <;> rw [e]
  · exact h
  · exact h
  · exact ⟨by simp [hk], h.sizePos_le, h.aeadPos_le, fun _ => rfl, h.processed_lt⟩

/-- VERIFY changes nothing (R143). -/
@[simp] theorem verify_state (b : Bank) (t : List Byte) : (b.verify t).state = b := by
  rcases verify_cases b t with ⟨_, e⟩ | ⟨_, e⟩ <;> rw [e] <;> rfl

theorem shouldRekey_inv {b : Bank} (h : b.Inv) (now : BitVec 64) (n : Nat) : (b.shouldRekey now n).state.Inv := by
  rcases shouldRekey_cases b now n with ⟨_, e⟩ | ⟨_, _, e⟩ | ⟨hk, _, _, e⟩ | ⟨hk, _, hd, e⟩ <;> rw [e]
  · exact h
  · exact h
  · exact ⟨by simp [hk], h.sizePos_le, h.aeadPos_le, h.final_tag, bankReset_inv.processed_lt⟩
  · refine ⟨by simp [hk], h.sizePos_le, h.aeadPos_le, h.final_tag, ?_⟩
    -- The count stays below `HWM` because the trigger did not fire.
    have hdue := rekeyDue_iff.not.mp (by rw [hd]; decide)
    simp only [state_done, BitVec.toNat_add, BitVec.toNat_ofNat, hwm_eq]
    omega

theorem bankRun_inv (i : Instr) {b : Bank} (h : b.Inv) : (i.bankRun b).state.Inv := by
  cases i with
  | init _ now k1 k2 sid => simpa [Instr.bankRun] using load_inv h now k1 k2 sid
  | rekey => simpa [Instr.bankRun] using rekey_inv h
  | rekeyx _ k1 k2 => simpa [Instr.bankRun] using rekeyWith_inv h k1 k2
  | shouldrekey _ now n => simpa [Instr.bankRun] using shouldRekey_inv h now n.toNat
  | sequence => simpa [Instr.bankRun] using sequence_inv h
  | encsize _ buf => exact cryptSize_inv h buf.val
  | decsize _ buf => exact cryptSize_inv h buf.val
  | encrypt _ data => exact encrypt_inv h data
  | decrypt _ data => exact decrypt_inv h data
  | auth _ data => simpa [Instr.bankRun] using auth_inv h data
  | final => exact final_inv h
  | verify => simpa [Instr.bankRun] using h
  | new | destroy | pack | feed | rdreg => exact h

/-! ### PACK's steps in order -/

/-- What each micro-operation of PACK keeps, PACK keeps (R200, R204 to R209). -/
theorem packRun_state_of (P : Bank → Prop) {now : BitVec 64} {cmd body : List Byte} {b : Bank} (h : P b)
    (hdue : ∀ b n, P b → P (b.shouldRekey now n).state) (hrekey : ∀ b, P b → P b.rekey.state)
    (hsize : ∀ b buf, P b → P (b.cryptSize buf).state) (henc : ∀ b data, P b → P (b.encrypt data).state)
    (hfinal : ∀ b, P b → P b.final.state) (hseq : ∀ b, P b → P b.sequence.state) :
    P (b.packRun now cmd body).state := by
  refine bind_state_of P ?_ fun due b hb => ?_
  · rcases packTrigger_cases now cmd body b with ⟨_, e⟩ | ⟨_, _, e⟩ | ⟨_, _, e⟩ <;> rw [e]
    · exact h
    · exact h
    · exact hdue b _ h
  rw [packFrame_eq]
  refine bind_state_of P ?_ fun _ b hb => ?_
  · cases due
    · exact hb
    · exact hrekey b hb
  exact bind_state_of P (hsize b _ hb) fun _ b hb =>
    bind_state_of P (henc b _ hb) fun _ b hb =>
    bind_state_of P (hfinal b hb) fun _ b hb =>
    bind_state_of P (hseq b hb) fun _ _ hb => hb

theorem packRun_inv {b : Bank} (h : b.Inv) (now : BitVec 64) (cmd body : List Byte) :
    (b.packRun now cmd body).state.Inv :=
  packRun_state_of Bank.Inv h (fun _ n h => shouldRekey_inv h now n) (fun _ => rekey_inv)
    (fun _ buf h => cryptSize_inv h buf) (fun _ data h => encrypt_inv h data) (fun _ => final_inv)
    (fun _ => sequence_inv)

/-! ### The session, the keys and the sequence number -/

/-- The secrets of one session are the same: `SID`, and that they are loaded (R21, R22). -/
structure Bank.SameSession (b c : Bank) : Prop where
  sid : c.sid = b.sid
  keyed : c.keyed = b.keyed

/-- `K1` and `K2` are the same. -/
structure Bank.SameKeys (b c : Bank) : Prop where
  k1 : c.k1 = b.k1
  k2 : c.k2 = b.k2

/-- An operation on data only: the session, its keys and the sequence number are the same. -/
structure Bank.DataFrame (b c : Bank) : Prop where
  session : b.SameSession c
  keys : b.SameKeys c
  seq : c.seq = b.seq

theorem Bank.SameSession.refl (b : Bank) : b.SameSession b := ⟨rfl, rfl⟩

theorem Bank.SameSession.trans {b c d : Bank} (h : b.SameSession c) (h' : c.SameSession d) : b.SameSession d :=
  ⟨h'.sid.trans h.sid, h'.keyed.trans h.keyed⟩

theorem Bank.SameKeys.refl (b : Bank) : b.SameKeys b := ⟨rfl, rfl⟩

theorem Bank.DataFrame.refl (b : Bank) : b.DataFrame b := ⟨.refl b, .refl b, rfl⟩

theorem cryptSize_frame (b : Bank) (buf : List Byte) : b.DataFrame (b.cryptSize buf).state := by
  rcases cryptSize_cases b buf with ⟨_, e⟩ | ⟨_, _, e⟩ | ⟨_, _, e⟩ <;> rw [e] <;> exact ⟨⟨rfl, rfl⟩, ⟨rfl, rfl⟩, rfl⟩

theorem encrypt_frame (b : Bank) (data : List Byte) : b.DataFrame (b.encrypt data).state := by
  rcases encrypt_cases b data with ⟨_, e⟩ | ⟨_, _, e⟩ | ⟨_, _, _, e⟩ | ⟨_, _, _, e⟩ <;> rw [e] <;>
    exact ⟨⟨rfl, rfl⟩, ⟨rfl, rfl⟩, rfl⟩

theorem decrypt_frame (b : Bank) (data : List Byte) : b.DataFrame (b.decrypt data).state := by
  rcases decrypt_cases b data with ⟨_, e⟩ | ⟨_, _, e⟩ | ⟨_, _, e⟩ <;> rw [e] <;> exact ⟨⟨rfl, rfl⟩, ⟨rfl, rfl⟩, rfl⟩

theorem auth_frame (b : Bank) (data : List Byte) : b.DataFrame (b.auth data).state := by
  rcases auth_cases b data with ⟨_, e⟩ | ⟨_, _, e⟩ | ⟨_, _, e⟩ <;> rw [e] <;> exact ⟨⟨rfl, rfl⟩, ⟨rfl, rfl⟩, rfl⟩

theorem final_frame (b : Bank) : b.DataFrame b.final.state := by
  rcases final_cases b with ⟨_, e⟩ | ⟨_, _, e⟩ | ⟨_, _, e⟩ <;> rw [e] <;> exact ⟨⟨rfl, rfl⟩, ⟨rfl, rfl⟩, rfl⟩

theorem shouldRekey_frame (b : Bank) (now : BitVec 64) (n : Nat) : b.DataFrame (b.shouldRekey now n).state := by
  rcases shouldRekey_cases b now n with ⟨_, e⟩ | ⟨_, _, e⟩ | ⟨_, _, _, e⟩ | ⟨_, _, _, e⟩ <;> rw [e] <;>
    exact ⟨⟨rfl, rfl⟩, ⟨rfl, rfl⟩, rfl⟩

theorem verify_frame (b : Bank) (t : List Byte) : b.DataFrame (b.verify t).state := by
  rw [verify_state]
  exact .refl b

theorem sequence_frame (b : Bank) : b.SameSession b.sequence.state ∧ b.SameKeys b.sequence.state := by
  rcases sequence_cases b with ⟨_, e⟩ | ⟨_, e⟩ <;> rw [e] <;> exact ⟨⟨rfl, rfl⟩, ⟨rfl, rfl⟩⟩

theorem rekeyWith_frame (b : Bank) (k1 k2 : Config.Key) :
    b.SameSession (b.rekeyWith k1 k2).state ∧ (b.rekeyWith k1 k2).state.seq = b.seq := by
  rcases rekeyWith_cases b k1 k2 with ⟨_, e⟩ | ⟨_, e⟩ <;> rw [e] <;> exact ⟨⟨rfl, rfl⟩, rfl⟩

/-- What a micro-operation on bank `sel` other than INIT keeps: the session; the keys too unless it re-keys; `seq` unless
it is SEQUENCE. -/
theorem bankRun_frame {i : Instr} {sel : BankSel} (hsel : i.microOn sel = true) (b : Bank)
    (hinit : ∀ now k1 k2 sid, i ≠ .init sel now k1 k2 sid) :
    b.SameSession (i.bankRun b).state ∧
    (i ≠ .rekey sel → (∀ k1 k2, i ≠ .rekeyx sel k1 k2) → b.SameKeys (i.bankRun b).state) ∧
    (i ≠ .sequence sel → (i.bankRun b).state.seq = b.seq) := by
  have data {c : Bank} (h : b.DataFrame c) : b.SameSession c ∧
      (i ≠ .rekey sel → (∀ k1 k2, i ≠ .rekeyx sel k1 k2) → b.SameKeys c) ∧ (i ≠ .sequence sel → c.seq = b.seq) :=
    ⟨h.session, fun _ _ => h.keys, fun _ => h.seq⟩
  cases i <;> simp only [Instr.microOn, beq_iff_eq, Bool.false_eq_true] at hsel <;> subst hsel <;>
    simp only [Instr.bankRun, bind_result_state]
  case init now k1 k2 sid => exact absurd rfl (hinit now k1 k2 sid)
  case rekey =>
    obtain ⟨hs, hq⟩ := rekeyWith_frame b (nextKey b.sid b.k1) (nextKey b.sid b.k2)
    exact ⟨hs, fun h => absurd rfl h, fun _ => hq⟩
  case rekeyx k1 k2 =>
    obtain ⟨hs, hq⟩ := rekeyWith_frame b k1 k2
    exact ⟨hs, fun _ h => absurd rfl (h k1 k2), fun _ => hq⟩
  case sequence =>
    obtain ⟨hs, hk⟩ := sequence_frame b
    exact ⟨hs, fun _ _ => hk, fun h => absurd rfl h⟩
  case shouldrekey now n => exact data (shouldRekey_frame b now n.toNat)
  case encsize buf => exact data (cryptSize_frame b buf.val)
  case decsize buf => exact data (cryptSize_frame b buf.val)
  case encrypt bytes => exact data (encrypt_frame b bytes)
  case decrypt bytes => exact data (decrypt_frame b bytes)
  case auth bytes => exact data (auth_frame b bytes)
  case final => exact data (final_frame b)
  case verify tag => exact data (verify_frame b tag.val)

theorem packRun_sameSession (b : Bank) (now : BitVec 64) (cmd body : List Byte) :
    b.SameSession (b.packRun now cmd body).state :=
  packRun_state_of b.SameSession (.refl b) (fun c n h => h.trans (shouldRekey_frame c now n).session)
    (fun c h => h.trans (rekeyWith_frame c _ _).1) (fun c buf h => h.trans (cryptSize_frame c buf).session)
    (fun c data h => h.trans (encrypt_frame c data).session) (fun c h => h.trans (final_frame c).session)
    (fun c h => h.trans (sequence_frame c).1)

end Sys2Proof.Machine
end

section
/-! FEED's parser keeps the invariant, and the order of its events. -/

namespace Sys2Proof.Machine

/-! ### The parser's invariant -/

/-- The clauses of `State.Inv` on the parser's phase alone; unlike `drained` they hold between two turns too. -/
structure State.PhaseInv (s : State) : Prop where
  phaseA : s.hasSize = false → s.waiting = 4
  phaseB : s.hasSize = true → 22 ≤ s.waiting.toNat ∧ s.waiting.toNat ≤ 12000016
  halted : s.halted = true → s.hasSize = false

theorem phaseInv_of_phaseA {s : State} (hs : s.hasSize = false) (hw : s.waiting = 4) : s.PhaseInv :=
  ⟨fun _ => hw, fun h => (by rw [hs] at h; cases h), fun _ => hs⟩

theorem phaseA_phaseInv {s : State} (chunk : List Byte) (hs : s.hasSize = false) (hh : s.halted = false)
    (hw : s.waiting = 4) : (phaseA chunk s).state.PhaseInv := by
  rcases phaseA_cases chunk s with ⟨_, e⟩ | ⟨_, _, e⟩ | ⟨_, _, size, _, ⟨_, e⟩ | ⟨hmin, hmax, e⟩⟩ <;> rw [e]
  · exact phaseInv_of_phaseA hs hw
  · exact phaseInv_of_phaseA hs hw
  · exact phaseInv_of_phaseA hs hw
  · -- The size is within bounds, so `waiting` holds `size + 16` without a wrap.
    refine ⟨by simp, fun _ => ?_, fun h => by simp [hh] at h⟩
    simp only [state_done, BitVec.toNat_ofNat]
    omega

/-- A turn leaves phase and `waiting` in agreement, whether or not it raises (R223 to R230). -/
theorem parserTurn_phaseInv {s : State} (h : s.PhaseInv) (hh : s.halted = false) : (parserTurn s).state.PhaseInv := by
  cases hs : s.hasSize with
  | false =>
    rw [parserTurn_phaseA hs]
    exact phaseA_phaseInv _ hs hh (h.phaseA hs)
  | true =>
    cases ht : parserTurn s with
    | done events t =>
      obtain ⟨_, _, hB, _⟩ := parserTurn_done ht
      exact phaseInv_of_phaseA (hB hs).1 (hB hs).2
    | raised c t =>
      obtain ⟨_, _, _, ⟨hA, _⟩ | ⟨_, hsize, hwait⟩⟩ := parserTurn_raised ht
      · rw [hA] at hs; cases hs
      · exact phaseInv_of_phaseA hsize hwait

/-- What every step of a turn on `in` keeps, the turn keeps. -/
theorem parserTurn_inBank_of (P : Bank → Prop) {s : State} (h : P s.inBank)
    (hsize : ∀ b buf, P b → P (b.cryptSize buf).state) (hauth : ∀ b data, P b → P (b.auth data).state)
    (hfinal : ∀ b, P b → P b.final.state) (hdec : ∀ b data, P b → P (b.decrypt data).state)
    (hseq : ∀ b, P b → P b.sequence.state) : P (parserTurn s).state.inBank := by
  have onIn {α : Type} {op : Bank → Run Bank α} (hop : ∀ b, P b → P (op b).state) (s : State) (hs : P s.inBank) :
      P (s.onBank .input op).state.inBank := by
    rw [onBank_state]
    exact hop _ hs
  have bad (t : List Byte) (s : State) (hs : P s.inBank) : P (phaseBBad t s).state.inBank :=
    bind_state_of (fun s : State => P s.inBank) (onIn hseq s hs) fun _ _ hs => hs
  have good (payload : List Byte) (s : State) (hs : P s.inBank) : P (phaseBGood payload s).state.inBank := by
    refine bind_state_of (fun s : State => P s.inBank) (onIn (fun b => hdec b payload) s hs) fun plain s hs => ?_
    refine bind_state_of (fun s : State => P s.inBank) (onIn hseq s hs) fun _ s hs => ?_
    cases parseInner Config.strictCs plain <;> exact hs
  cases hs : s.hasSize with
  | false =>
    rw [parserTurn_phaseA hs]
    refine bind_state_of (fun s : State => P s.inBank) (onIn (fun b => hsize b _) _ h) fun d s hs => ?_
    split <;> exact hs
  | true =>
    rw [parserTurn_phaseB hs]
    refine bind_state_of (fun s : State => P s.inBank) (onIn (fun b => hauth b _) _ h) fun _ s hs => ?_
    refine bind_state_of (fun s : State => P s.inBank) (onIn hfinal s hs) fun _ s hs => ?_
    refine bind_state_of (fun s : State => P s.inBank)
      (onIn (fun b hb => by rw [verify_state]; exact hb) s hs) fun verdict s hs => ?_
    cases verdict
    · exact bad _ s hs
    · exact good _ s hs

theorem parserTurn_inv {s : State} (h : s.inBank.Inv) : (parserTurn s).state.inBank.Inv :=
  parserTurn_inBank_of Bank.Inv h (fun _ buf h => cryptSize_inv h buf) (fun _ data h => auth_inv h data)
    (fun _ => final_inv) (fun _ data h => decrypt_inv h data) (fun _ => sequence_inv)

theorem runLoop_inv (events : List Event) {s : State} (hb : s.inBank.Inv) (hp : s.PhaseInv) :
    (runLoop events s).state.inBank.Inv ∧ (runLoop events s).state.PhaseInv := by
  refine runLoop_induction (P := fun _ s r => s.inBank.Inv → s.PhaseInv → r.state.inBank.Inv ∧ r.state.PhaseInv)
    ?stop ?raised ?turn events s hb hp
  case stop => exact fun _ s _ hb hp => ⟨hb, hp⟩
  case raised =>
    intro _ s c t hr ht hb hp
    have hend : (parserTurn s).state = t := by rw [ht]; rfl
    exact hend ▸ ⟨parserTurn_inv hb, parserTurn_phaseInv hp (parserReady_iff.mp hr).1⟩
  case turn =>
    intro _ s new t hr ht ih hb hp
    have hend : (parserTurn s).state = t := by rw [ht]; rfl
    exact ih (hend ▸ parserTurn_inv hb) (hend ▸ parserTurn_phaseInv hp (parserReady_iff.mp hr).1)

/-- The answer to a loop that ended in `r.state`: unfaulted only where nothing was raised. -/
theorem answered_frame (r : FeedEnd) :
    AnswerFrame r.state r.answered ∧ (r.answered.fault = 0 → r.raised = none) := by
  unfold FeedEnd.answered
  cases r.raised with
  | none => exact ⟨respond_frame _ _, fun _ => rfl⟩
  | some c => exact ⟨raise_frame _ _ _, fun h => absurd h (raise_fault_ne_zero _ _ _)⟩

/-! ### The order of the events -/

/-- The loop appends packets to packets, then at most one error, and the parser has halted exactly when there is one
(R38, R239). -/
theorem runLoop_events (ms : List Message) {s : State} (hs : s.halted = false) :
    ∃ (ms' : List Message) (errors : List Event),
      (runLoop (ms.map .packet) s).events = ms'.map .packet ++ errors ∧
      ((errors = [] ∧ (runLoop (ms.map .packet) s).state.halted = false) ∨
        (∃ e, errors = [e] ∧ e.isError = true ∧ (runLoop (ms.map .packet) s).state.halted = true)) := by
  refine runLoop_induction (P := fun events s r => ∀ ms : List Message, events = ms.map .packet → s.halted = false →
    ∃ (ms' : List Message) (errors : List Event), r.events = ms'.map .packet ++ errors ∧
      ((errors = [] ∧ r.state.halted = false) ∨ (∃ e, errors = [e] ∧ e.isError = true ∧ r.state.halted = true)))
    ?stop ?raised ?turn (ms.map .packet) s ms rfl hs
  case stop => exact fun events s _ ms he hh => ⟨ms, [], by simp [he], .inl ⟨rfl, hh⟩⟩
  case raised =>
    intro events s c t _ ht ms he hh
    obtain ⟨_, hhalt, _⟩ := parserTurn_raised ht
    exact ⟨ms, [], by simp [he], .inl ⟨rfl, hhalt.trans hh⟩⟩
  case turn =>
    intro events s new t _ ht ih ms he hh
    obtain ⟨_, ⟨ms', hnew, hhalt⟩ | ⟨e, hnew, herr, hhalt⟩, _⟩ := parserTurn_done ht
    · exact ih (ms ++ ms') (by simp [he, hnew]) (hhalt.trans hh)
    · -- The error halts the parser, so no turn follows it.
      have hstop : t.parserReady = false := by simp [State.parserReady, hhalt]
      rw [runLoop_stop hstop]
      exact ⟨ms, [e], by simp [he, hnew], .inr ⟨e, rfl, herr, hhalt⟩⟩

/-! ### The block's invariant -/

theorem AnswerFrame.inBank {s t : State} (h : AnswerFrame s t) : t.inBank = s.inBank := h.bank .input

theorem AnswerFrame.outBank {s t : State} (h : AnswerFrame s t) : t.outBank = s.outBank := h.bank .output

theorem AnswerFrame.inv {s t : State} (h : AnswerFrame s t) (hs : s.Inv) : t.Inv where
  inBank := h.inBank ▸ hs.inBank
  outBank := h.outBank ▸ hs.outBank
  fault := h.legalFault hs.fault
  notLive hl := by
    rw [h.inBank, h.outBank, h.pending, h.halted, h.hasSize]
    exact hs.notLive (h.live ▸ hl)
  phaseA := by rw [h.hasSize, h.waiting]; exact hs.phaseA
  phaseB := by rw [h.hasSize, h.waiting]; exact hs.phaseB
  halted := by rw [h.halted, h.hasSize]; exact hs.halted
  drained hf := by rw [h.halted, h.pending, h.waiting]; exact hs.drained (h.fault_eq_zero hf)

/-- A live block keeps the invariant when one bank is replaced by one that meets its own. -/
theorem setBank_inv {s : State} (hs : s.Inv) (hl : s.live = true) (sel : BankSel) {b : Bank} (hb : b.Inv) :
    (s.setBank sel b).Inv where
  inBank := by
    cases sel
    · exact hb
    · exact hs.inBank
  outBank := by
    cases sel
    · exact hs.outBank
    · exact hb
  fault := by rw [setBank_fault]; exact hs.fault
  notLive h := by rw [setBank_live, hl] at h; cases h
  phaseA := by rw [setBank_hasSize, setBank_waiting]; exact hs.phaseA
  phaseB := by rw [setBank_hasSize, setBank_waiting]; exact hs.phaseB
  halted := by rw [setBank_halted, setBank_hasSize]; exact hs.halted
  drained := by rw [setBank_fault, setBank_halted, setBank_pending, setBank_waiting]; exact hs.drained

theorem bank_inv {s : State} (hs : s.Inv) (sel : BankSel) : (s.bank sel).Inv := by
  cases sel
  · exact hs.inBank
  · exact hs.outBank

theorem reset_inv : State.reset.Inv where
  inBank := bankReset_inv
  outBank := bankReset_inv
  fault := .inl rfl
  notLive _ := ⟨rfl, rfl, rfl, rfl, rfl⟩
  phaseA _ := rfl
  phaseB h := by cases h
  halted _ := rfl
  drained _ _ := by decide

/-- A cleared session meets the invariant, whatever `live`, a legal `fault` and the answer are (R133, R134). -/
theorem cleared_inv (s : State) (live : Bool) {fault : BitVec 8} (hf : LegalFault fault) (r : Response) :
    (s.cleared live fault r).Inv where
  inBank := bankReset_inv
  outBank := bankReset_inv
  fault := hf
  notLive _ := ⟨rfl, rfl, rfl, rfl, rfl⟩
  phaseA _ := rfl
  phaseB h := by cases h
  halted _ := rfl
  drained _ _ := reset_inv.drained rfl rfl

theorem fed_inv {s : State} (hs : s.Inv) (hl : s.live = true) (data : List Byte) :
    (runLoop [] (s.rxqAppend data)).answered.Inv := by
  obtain ⟨hframe, _⟩ := runLoop_frame [] (s.rxqAppend data)
  obtain ⟨hbank, hphase⟩ := runLoop_inv [] (s := s.rxqAppend data) hs.inBank ⟨hs.phaseA, hs.phaseB, hs.halted⟩
  obtain ⟨hans, hnone⟩ := answered_frame (runLoop [] (s.rxqAppend data))
  refine ⟨hans.inBank ▸ hbank, ?_, hans.legalFault (hframe.fault ▸ hs.fault), ?_, ?_, ?_, ?_, ?_⟩
  · rw [hans.outBank, hframe.outBank]
    exact hs.outBank
  · intro h
    rw [hans.live, hframe.live, rxqAppend_live, hl] at h
    cases h
  · rw [hans.hasSize, hans.waiting]; exact hphase.phaseA
  · rw [hans.hasSize, hans.waiting]; exact hphase.phaseB
  · rw [hans.halted, hans.hasSize]; exact hphase.halted
  · -- Nothing was raised, so the loop ended because the parser was not ready.
    intro hf
    rw [hans.halted, hans.pending, hans.waiting]
    intro hh
    have hready := runLoop_notReady [] (s.rxqAppend data) (hnone hf)
    by_contra hle
    exact absurd (parserReady_iff.mpr ⟨hh, by omega⟩) (by rw [hready]; decide)

theorem effect_inv {s t : State} {i : Instr} (hs : s.Inv) (h : Effect s i t) : t.Inv := by
  cases h with
  | new cid live fault r hf => exact cleared_inv s live hf r
  | destroy r => exact cleared_inv s false hs.fault r
  | answered _ _ h => exact h.inv hs
  | ran _ sel _ _ ha h => exact h.inv (setBank_inv hs ha.2 sel (bankRun_inv i (bank_inv hs sel)))
  | packed now cmd body _ ha h => exact h.inv (setBank_inv hs ha.2 .output (packRun_inv hs.outBank now cmd body))
  | fed data ha => exact fed_inv hs ha.2 data

/-- Taking a command from `CMD` does not touch what the invariant speaks of. -/
theorem takeCommand_inv {s : State} (hs : s.Inv) (rest : List (List Byte)) : State.Inv { s with cmd := rest } :=
  ⟨hs.inBank, hs.outBank, hs.fault, hs.notLive, hs.phaseA, hs.phaseB, hs.halted, hs.drained⟩

/-- Settles O5: each of the effects a command can have keeps the invariant. -/
theorem stepKeepsInvariant : Obligations.StepKeepsInvariant := by
  intro s t hs h
  rcases step_cases h with ⟨_, rfl⟩ | ⟨tx, rest, _, ⟨i, _, he⟩ | hans⟩
  · exact hs
  · exact effect_inv (takeCommand_inv hs rest) he
  · exact hans.inv (takeCommand_inv hs rest)

/-- Settles O4. -/
theorem resetMeetsInvariant : Obligations.ResetMeetsInvariant := reset_inv

end Sys2Proof.Machine
end

section
/-! What a command may not touch (spec/10_state.md R20 to R23, R34, R38; spec/40_stream_ops.md R145; spec/43_feed.md
R239). -/

namespace Sys2Proof.Machine

theorem microOn_unique {i : Instr} {x y : BankSel} (hx : i.microOn x = true) (hy : i.microOn y = true) : x = y := by
  cases i <;> simp only [Instr.microOn, beq_iff_eq, Bool.false_eq_true] at hx hy <;> exact hx.symm.trans hy

/-- Everything a command other than NEW and DESTROY can do to a bank: nothing, its own run on that bank, PACK's steps on
`out`, or FEED's loop on `in`. -/
theorem effect_bank_cases {i : Instr} {s t : State} (h : Effect s i t) (hnew : ∀ cid, i ≠ .new cid)
    (hdestroy : i ≠ .destroy) (sel : BankSel) :
    t.bank sel = s.bank sel ∨
    (i.microOn sel = true ∧ t.bank sel = (i.bankRun (s.bank sel)).state) ∨
    (∃ now cmd body, sel = .output ∧ i = .pack now cmd body ∧
      t.bank sel = ((s.bank sel).packRun now cmd body).state) ∨
    (∃ data, sel = .input ∧ i = .feed data ∧ (s.bank sel).SameSession (t.bank sel) ∧
      (s.bank sel).SameKeys (t.bank sel)) := by
  cases h with
  | new cid => exact absurd rfl (hnew cid)
  | destroy => exact absurd rfl hdestroy
  | answered _ _ h => exact .inl (h.bank sel)
  | ran _ x _ hx _ h =>
    by_cases hsel : sel = x
    · subst hsel
      exact .inr (.inl ⟨hx, (h.bank sel).trans (bank_setBank_self ..)⟩)
    · exact .inl ((h.bank sel).trans (bank_setBank_other s _ hsel))
  | packed now cmd body _ _ h =>
    cases sel with
    | input => exact .inl h.inBank
    | output => exact .inr (.inr (.inl ⟨now, cmd, body, rfl, rfl, h.outBank⟩))
  | fed data =>
    obtain ⟨hloop, _⟩ := runLoop_frame [] (s.rxqAppend data)
    obtain ⟨hans, _⟩ := answered_frame (runLoop [] (s.rxqAppend data))
    cases sel with
    | input =>
      refine .inr (.inr (.inr ⟨data, rfl, rfl, ?_⟩))
      rw [bank_input, bank_input, hans.inBank]
      exact ⟨⟨hloop.sid, hloop.keyed⟩, ⟨hloop.k1, hloop.k2⟩⟩
    | output => exact .inl (hans.outBank.trans hloop.outBank)

/-- Settles O17: only NEW writes `fault` where it is not 0. -/
theorem firstFaultStaysUntilNew : Obligations.FirstFaultStaysUntilNew := by
  intro s t h hf hnew
  rcases step_cases h with ⟨_, rfl⟩ | ⟨tx, rest, hc, ⟨i, hd, he⟩ | hans⟩
  · rfl
  · cases he with
    | new cid => exact absurd hd (hnew tx rest cid hc)
    | destroy => rfl
    | answered _ _ h => exact h.fault_of_ne_zero hf
    | ran _ _ _ _ ha | packed _ _ _ _ ha | fed _ ha => exact absurd ha.1 hf
  · exact hans.fault_of_ne_zero hf

/-- Settles O36. -/
theorem microOperationsStayInTheirBank : Obligations.MicroOperationsStayInTheirBank := by
  intro i sel s t hi h
  cases exec_effect h with
  | new | destroy | packed | fed => cases hi
  | answered _ _ h =>
    exact ⟨fun other _ => h.bank other, h.live, h.pending, h.waiting, h.hasSize, h.halted, h.cmd⟩
  | ran _ x _ hx _ h =>
    obtain rfl := microOn_unique hx hi
    exact ⟨fun other ho => (h.bank other).trans (bank_setBank_other s _ ho), h.live.trans (setBank_live ..),
      h.pending.trans (setBank_pending ..), h.waiting.trans (setBank_waiting ..), h.hasSize.trans (setBank_hasSize ..),
      h.halted.trans (setBank_halted ..), h.cmd.trans (setBank_cmd ..)⟩

/-- Settles O37. -/
theorem framingStaysInItsDirection : Obligations.FramingStaysInItsDirection := by
  constructor
  · intro now cmd body s t h
    cases exec_effect h with
    | answered _ _ h => exact ⟨h.inBank, h.live, h.pending, h.waiting, h.hasSize, h.halted, h.cmd⟩
    | ran _ _ _ hi => cases hi
    | packed _ _ _ _ _ h => exact ⟨h.inBank, h.live, h.pending, h.waiting, h.hasSize, h.halted, h.cmd⟩
  · intro data s t h
    cases exec_effect h with
    | answered _ _ h => exact ⟨h.outBank, h.live, h.cmd⟩
    | ran _ _ _ hi => cases hi
    | fed =>
      obtain ⟨hloop, _⟩ := runLoop_frame [] (s.rxqAppend data)
      obtain ⟨hans, _⟩ := answered_frame (runLoop [] (s.rxqAppend data))
      exact ⟨hans.outBank.trans hloop.outBank, hans.live.trans hloop.live, hans.cmd.trans hloop.cmd⟩

/-- Settles O38. -/
theorem secretsChangeOnlyByNamedCommands : Obligations.SecretsChangeOnlyByNamedCommands := by
  intro i sel s t h hnew hdestroy hinit
  rcases effect_bank_cases (exec_effect h) hnew hdestroy sel with
    e | ⟨hi, e⟩ | ⟨now, cmd, body, hsel, hi, e⟩ | ⟨_, _, _, hs, hk⟩
  · rw [e]
    exact ⟨rfl, rfl, fun _ _ _ => ⟨rfl, rfl⟩⟩
  · obtain ⟨hs, hk, _⟩ := bankRun_frame hi (s.bank sel) hinit
    rw [e]
    exact ⟨hs.sid, hs.keyed, fun h1 h2 _ => ⟨(hk h1 h2).k1, (hk h1 h2).k2⟩⟩
  · have hs := packRun_sameSession (s.bank sel) now cmd body
    rw [e]
    exact ⟨hs.sid, hs.keyed, fun _ _ hp => absurd hi (hp now cmd body hsel)⟩
  · exact ⟨hs.sid, hs.keyed, fun _ _ _ => ⟨hk.k1, hk.k2⟩⟩

/-- Settles O39. -/
theorem sequenceNumberChangesOnlyByNamedCommands : Obligations.SequenceNumberChangesOnlyByNamedCommands := by
  intro i sel s t h hnew hdestroy hinit hseq hpack hfeed
  rcases effect_bank_cases (exec_effect h) hnew hdestroy sel with
    e | ⟨hi, e⟩ | ⟨now, cmd, body, hsel, hi, _⟩ | ⟨data, hsel, hi, _⟩
  · rw [e]
  · obtain ⟨_, _, hq⟩ := bankRun_frame hi (s.bank sel) hinit
    rw [e]
    exact hq hseq
  · exact absurd hi (hpack now cmd body hsel)
  · exact absurd hi (hfeed data hsel)

/-- Settles O40: outside NEW, DESTROY and FEED no effect touches `halted`, and FEED runs only where it is 0. -/
theorem haltLastsUntilNewOrDestroy : Obligations.HaltLastsUntilNewOrDestroy := by
  intro i s t h
  have kept (e : t.halted = s.halted) :
      (s.halted = true → (∀ cid, i ≠ .new cid) → i ≠ .destroy → t.halted = true) ∧
      (s.halted = false → i.isFeed = false → t.halted = false) :=
    ⟨fun hs _ _ => e.trans hs, fun hs _ => e.trans hs⟩
  cases exec_effect h with
  | new cid => exact ⟨fun _ hnew _ => absurd rfl (hnew cid), fun _ _ => rfl⟩
  | destroy => exact ⟨fun _ _ hd => absurd rfl hd, fun _ _ => rfl⟩
  | answered _ _ h => exact kept h.halted
  | ran _ _ _ _ _ h => exact kept (h.halted.trans (setBank_halted ..))
  | packed _ _ _ _ _ h => exact kept h.halted
  | fed _ _ _ hh => exact ⟨fun hs => absurd hs (by simp [hh]), fun _ hf => by cases hf⟩

/-- FEED of a keyed, running parser with room runs the loop and answers its end (R220). -/
theorem exec_feed_of_room {s : State} {data : List Byte} (ha : s.Accepting) (hk : s.inBank.keyed = true)
    (hh : s.halted = false) (hroom : s.RoomFor data.length) :
    exec (.feed data) s = .next (runLoop [] (s.rxqAppend data)).answered := by
  have hexec : exec (.feed data) s = .next (s.guarded (State.feed data)) := rfl
  rw [hexec, guarded_of_accepting ha]
  rcases feed_cases data s with ⟨hk', _⟩ | ⟨_, hh', _⟩ | ⟨_, _, ho, _⟩ | ⟨_, _, _, e⟩
  · rw [hk] at hk'; cases hk'
  · rw [hh] at hh'; cases hh'
  · rw [roomFor_iff.mp hroom] at ho; cases ho
  · rw [e]

/-- However the loop ends, its answer carries no result and the events emitted (R345). -/
theorem answered_rsp (r : FeedEnd) :
    ∃ status, r.answered.rsp = r.state.rsp ++ [(Response.mk status [] r.events).encode] := by
  unfold FeedEnd.answered
  cases r.raised with
  | none => exact ⟨statusOk, rfl⟩
  | some c => exact ⟨c.byte, rfl⟩

/-- Settles O51: FEED answers what its loop emitted, and `runLoop_events` says in which order. -/
theorem errorEventIsLastAndHalts : Obligations.ErrorEventIsLastAndHalts := by
  intro s data ha hk hh hroom
  obtain ⟨ms, errors, hevents, hend⟩ := runLoop_events [] (s := s.rxqAppend data) hh
  rw [List.map_nil] at hevents hend
  obtain ⟨hloop, _⟩ := runLoop_frame [] (s.rxqAppend data)
  obtain ⟨hans, _⟩ := answered_frame (runLoop [] (s.rxqAppend data))
  obtain ⟨status, hrsp⟩ := answered_rsp (runLoop [] (s.rxqAppend data))
  rw [hevents, hloop.rsp, rxqAppend_rsp] at hrsp
  rw [← hans.halted] at hend
  exact ⟨_, status, ms, errors, exec_feed_of_room ha hk hh hroom, hrsp, hend⟩

end Sys2Proof.Machine
end

section
/-! Reset values, the guard's refusals, what INIT, SEQUENCE and the size cipher do, and what RDREG answers. -/

namespace Sys2Proof.Machine

/-! ### Reset, NEW and DESTROY -/

theorem bankReset_atReset : Bank.reset.AtReset :=
  ⟨rfl, rfl, rfl, rfl, rfl, by decide, rfl, rfl, rfl, rfl, rfl, rfl, rfl, rfl⟩

theorem cleared_parserAtReset (s : State) (live : Bool) (fault : BitVec 8) (r : Response) :
    (s.cleared live fault r).ParserAtReset := ⟨rfl, rfl, rfl, rfl, rfl⟩

/-- Settles O1. -/
theorem banksAndParserTakeResetValues : Obligations.BanksAndParserTakeResetValues := by
  refine ⟨⟨bankReset_atReset, bankReset_atReset, ⟨rfl, rfl, rfl, rfl, rfl⟩, rfl, rfl⟩, fun s cid => ?_, fun s =>
    ⟨_, exec_destroy s, bankReset_atReset, bankReset_atReset, cleared_parserAtReset .., rfl, rfl⟩⟩
  by_cases h : cid = 0
  · subst h
    exact ⟨_, exec_new_zero s, bankReset_atReset, bankReset_atReset, cleared_parserAtReset .., fun _ => ⟨rfl, rfl⟩⟩
  · exact ⟨_, exec_new_ne_zero h s, bankReset_atReset, bankReset_atReset, cleared_parserAtReset ..,
      fun h0 => absurd h0 h⟩

/-! ### The guard -/

/-- Settles O14. -/
theorem faultedBlockRefuses : Obligations.FaultedBlockRefuses := by
  intro i s hi hf
  obtain ⟨f, hexec⟩ := exec_guarded hi
  rw [hexec, guarded_of_faulted hf, refuse_eq]

/-- Settles O15. -/
theorem withoutSessionFaults : Obligations.WithoutSessionFaults := by
  intro i s hi hf hl
  obtain ⟨f, hexec⟩ := exec_guarded hi
  rw [hexec, guarded_of_notLive hf hl, raise_eq_faultedWith hf]
  rfl

/-! ### Un-keyed banks -/

/-- A micro-operation that raises on its bank without writing it, in an accepting block. -/
theorem exec_micro_of_raised {i : Instr} {sel : BankSel} {s : State} {c : FaultCode} (hi : i.microOn sel = true)
    (ha : s.Accepting) (h : i.bankRun (s.bank sel) = .raised c (s.bank sel)) :
    exec i s = .next (s.faultedWith c.byte) := by
  rw [exec_bankRun hi, guarded_of_accepting ha, onBank_of_raised h, setBank_bank_self, answer_raised,
    raise_eq_faultedWith ha.1]

/-- A micro-operation that uses a key raises `F_NOT_KEYED` on an un-keyed bank before anything else (R131). -/
theorem bankRun_of_unkeyed {i : Instr} {sel : BankSel} {b : Bank} (hi : i.microOn sel = true)
    (hn : i.needsKeyed = some sel) (hb : b.keyed = false) : i.bankRun b = .raised .notKeyed b := by
  cases i with
  | rekey | rekeyx | shouldrekey | sequence | encsize | decsize | encrypt | decrypt | auth | final =>
    simp [Instr.bankRun, Bank.rekey, Bank.rekeyWith, Bank.shouldRekey, Bank.sequence, Bank.cryptSize, Bank.encrypt,
      Bank.decrypt, Bank.auth, Bank.final, needKeyed_of_unkeyed hb]
  | init | verify | new | destroy | rdreg => cases hn
  | pack | feed => cases hi

/-- A PACK whose trigger raises has written nothing (R202). -/
theorem exec_pack_of_trigger_raised {s : State} {now : BitVec 64} {cmd body : List Byte} {c : FaultCode}
    (ha : s.Accepting) (h : s.outBank.packTrigger now cmd body = .raised c s.outBank) :
    exec (.pack now cmd body) s = .next (s.faultedWith c.byte) := by
  rw [show exec (.pack now cmd body) s = execPack now cmd body s from rfl, execPack, guarded_of_accepting ha,
    onBank_of_raised (sel := .output) h]
  exact congrArg _ (raise_eq_faultedWith ha.1 c)

theorem packTrigger_of_unkeyed {b : Bank} (h : b.keyed = false) (now : BitVec 64) (cmd body : List Byte) :
    b.packTrigger now cmd body = .raised .notKeyed b := by
  simp [Bank.packTrigger, needKeyed_of_unkeyed h]

theorem exec_feed_of_unkeyed {s : State} (ha : s.Accepting) (h : s.inBank.keyed = false) (data : List Byte) :
    exec (.feed data) s = .next (s.faultedWith FaultCode.notKeyed.byte) := by
  rw [show exec (.feed data) s = .next (s.guarded (State.feed data)) from rfl, guarded_of_accepting ha,
    ← raise_eq_faultedWith ha.1]
  exact congrArg _ (if_pos h)

theorem microOn_of_needsKeyed {i : Instr} {sel : BankSel} (hn : i.needsKeyed = some sel) (hp : i.isPack = false)
    (hf : i.isFeed = false) : i.microOn sel = true := by
  cases i with
  | rekey | rekeyx | shouldrekey | sequence | encsize | decsize | encrypt | decrypt | auth | final =>
    cases hn
    exact beq_self_eq_true _
  | init | verify | new | destroy | rdreg => cases hn
  | pack => cases hp
  | feed => cases hf

/-- Settles O16. -/
theorem unkeyedBankFaults : Obligations.UnkeyedBankFaults := by
  intro i sel s hn ha hk
  cases i with
  | pack now cmd body =>
    cases hn
    exact exec_pack_of_trigger_raised ha (packTrigger_of_unkeyed hk now cmd body)
  | feed data =>
    cases hn
    exact exec_feed_of_unkeyed ha hk data
  | _ =>
    have hi := microOn_of_needsKeyed hn rfl rfl
    exact exec_micro_of_raised hi ha (bankRun_of_unkeyed hi hn hk)

/-! ### What three micro-operations do where they run -/

/-- Settles O23. -/
theorem initLoadsUnkeyedBank : Obligations.InitLoadsUnkeyedBank :=
  fun _ _ now k1 k2 sid ha hk => congrArg _ (runUnit_of_done ha (load_of_unkeyed hk now k1 k2 sid))

/-- Settles O24. -/
theorem sequenceAdvancesBank : Obligations.SequenceAdvancesBank := by
  intro s sel ha hk
  have hseq : ((s.bank sel).seq + 1).toNat = ((s.bank sel).seq.toNat + 1) % 2 ^ 32 := BitVec.toNat_add ..
  refine ⟨_, congrArg _ (runUnit_of_done ha (sequence_of_keyed hk)), rfl, hseq, ?_⟩
  rw [← hseq]
  rfl

/-- Settles O25: the two commands are one run on the bank. -/
theorem sizeCipherXorsNextFourBytes : Obligations.SizeCipherXorsNextFourBytes := by
  intro s sel buf ha hk hp
  have hrun := runBytes_of_done ha (cryptSize_of_keyed hk hp buf.val)
  exact ⟨congrArg _ hrun, congrArg _ hrun⟩

/-! ### RDREG -/

theorem exec_rdreg (reg : Reg) (s : State) : exec (.rdreg reg) s = .next (s.respond (okResponse (regBytes s reg))) := rfl

/-- Three flags laid out in a byte, bit 0 first, as a number. -/
theorem flagByte_eq (b0 b1 b2 : Bool) :
    (0#5 ++ BitVec.ofBool b2 ++ BitVec.ofBool b1 ++ BitVec.ofBool b0 : BitVec 8) =
      BitVec.ofNat 8 ((if b0 then 1 else 0) + (if b1 then 2 else 0) + (if b2 then 4 else 0)) := by
  revert b0 b1 b2
  decide

/-- Settles O34: but for the two flag bytes the model's register values are those of R42 as they stand. -/
theorem rdregAnswersRegister : Obligations.RdregAnswersRegister := by
  intro s
  constructor
  · rintro sel r value rfl
    rw [exec_rdreg]
    cases r with
    | sflags => rw [← flagByte_eq]; rfl
    | seq | iv | cipherId | processed | lastRekey | tag | sid | sizePos | aeadPos | macLen => rfl
  · rintro r value rfl
    rw [exec_rdreg]
    cases r with
    | bflags => rw [← flagByte_eq]; rfl
    | fault | waiting | total => rfl

end Sys2Proof.Machine
end

section
/-! Noninterference (spec/40_stream_ops.md R145): what a run answers without the keys, and that responses are made of it. -/

namespace Sys2Proof.Machine

/-! ### Outcomes that no key takes part in -/

theorem load_outcome (b : Bank) (now : BitVec 64) (k1 k2 sid : Config.Key) :
    (b.load now k1 k2 sid).outcome = if b.keyed then .error .alreadyKeyed else .ok () := by
  rcases load_cases b now k1 k2 sid with ⟨hk, e⟩ | ⟨hk, e⟩ <;> rw [e, hk] <;> rfl

theorem sequence_outcome (b : Bank) : b.sequence.outcome = if b.keyed then .ok () else .error .notKeyed := by
  rcases sequence_cases b with ⟨hk, e⟩ | ⟨hk, e⟩ <;> rw [e, hk] <;> rfl

theorem rekeyWith_outcome (b : Bank) (k1 k2 : Config.Key) :
    (b.rekeyWith k1 k2).outcome = if b.keyed then .ok () else .error .notKeyed := by
  rcases rekeyWith_cases b k1 k2 with ⟨hk, e⟩ | ⟨hk, e⟩ <;> rw [e, hk] <;> rfl

theorem auth_outcome (b : Bank) (data : List Byte) :
    (b.auth data).outcome =
      if b.keyed then (if b.macFinal then .error .macFinal else .ok ()) else .error .notKeyed := by
  rcases auth_cases b data with ⟨hk, e⟩ | ⟨hk, hm, e⟩ | ⟨hk, hm, e⟩ <;> simp [*]

theorem verify_outcome (b : Bank) (t : List Byte) :
    (b.verify t).outcome = if b.tagValid then .ok (decide (b.tag.val = t)) else .error .noTag := by
  rcases verify_cases b t with ⟨hv, e⟩ | ⟨hv, e⟩ <;> rw [e, hv] <;> rfl

theorem shouldRekey_outcome (b : Bank) (now : BitVec 64) (n : Nat) :
    (b.shouldRekey now n).outcome =
      if b.keyed then
        (if 2 ^ 64 ≤ b.processed.toNat + n then .error .range
          else .ok (rekeyDue now b.lastRekeyTime (b.processed.toNat + n)))
      else .error .notKeyed := by
  rcases shouldRekey_cases b now n with ⟨hk, e⟩ | ⟨hk, hr, e⟩ | ⟨hk, hr, hd, e⟩ | ⟨hk, hr, hd, e⟩ <;> rw [e, hk]
  · rfl
  · rw [if_pos rfl, if_pos hr]; rfl
  · rw [if_pos rfl, if_neg (by omega), hd]; rfl
  · rw [if_pos rfl, if_neg (by omega), hd]; rfl

/-! ### Responses -/

theorem answer_rsp_congr {r r' : Run State (List Byte)} (events : List Event) (ho : r.outcome = r'.outcome)
    (hs : r.state.rsp = r'.state.rsp) : (answer events r).rsp = (answer events r').rsp := by
  cases r <;> cases r' <;> cases ho <;> simpa using hs

theorem guarded_rsp_congr {s s' : State} {f f' : State → State} (hf : s.fault = s'.fault) (hl : s.live = s'.live)
    (hr : s.rsp = s'.rsp) (h : (f s).rsp = (f' s').rsp) : (s.guarded f).rsp = (s'.guarded f').rsp := by
  unfold State.guarded
  rw [hf, hl]
  split_ifs
  · rw [refuse_rsp, refuse_rsp, hr]
  · exact h
  · rw [raise_rsp, raise_rsp, hr]

/-- A micro-operation answers alike in two blocks where the guard and the outcome on the bank it names are the same. -/
theorem micro_rsp_congr {i : Instr} {sel : BankSel} (hi : i.microOn sel = true) {s s' t t' : State}
    (hf : s.fault = s'.fault) (hl : s.live = s'.live) (hr : s.rsp = s'.rsp)
    (ho : (i.bankRun (s.bank sel)).outcome = (i.bankRun (s'.bank sel)).outcome) (h : exec i s = .next t)
    (h' : exec i s' = .next t') : t.rsp = t'.rsp := by
  rw [exec_bankRun hi, Host.Outcome.next.injEq] at h h'
  subst h h'
  exact guarded_rsp_congr hf hl hr (answer_rsp_congr [] (by simpa using ho) (by simpa using hr))

/-! ### Banks that differ in their keys -/

/-- The bank with other keys. -/
def Bank.withKeys (k1 k2 : Config.Key) (b : Bank) : Bank := { b with k1 := k1, k2 := k2 }

theorem bank_setBank_withKeys (s : State) (sel other : BankSel) (k1 k2 : Config.Key) :
    ∃ k1' k2', (s.setBank sel ((s.bank sel).withKeys k1 k2)).bank other = (s.bank other).withKeys k1' k2' := by
  by_cases h : other = sel
  · subst h
    exact ⟨k1, k2, bank_setBank_self ..⟩
  · exact ⟨(s.bank other).k1, (s.bank other).k2, bank_setBank_other s _ h⟩

/-- R42 lists neither key. -/
theorem bankRegBytes_withKeys (k1 k2 : Config.Key) (b : Bank) (r : BankReg) :
    bankRegBytes (b.withKeys k1 k2) r = bankRegBytes b r := by
  cases r <;> rfl

theorem blockRegBytes_setBank (s : State) (sel : BankSel) (b : Bank) (r : BlockReg) :
    blockRegBytes (s.setBank sel b) r = blockRegBytes s r := by
  cases sel <;> cases r <;> rfl

theorem regBytes_setBank_withKeys (s : State) (sel : BankSel) (k1 k2 : Config.Key) (reg : Reg) :
    regBytes (s.setBank sel ((s.bank sel).withKeys k1 k2)) reg = regBytes s reg := by
  cases reg with
  | ofBank other r =>
    obtain ⟨k1', k2', h⟩ := bank_setBank_withKeys s sel other k1 k2
    rw [regBytes, h, bankRegBytes_withKeys]
    rfl
  | ofBlock r => exact blockRegBytes_setBank ..

/-- A micro-operation whose outcome no key takes part in answers alike where only keys differ. -/
theorem micro_rsp_withKeys {i : Instr} {other : BankSel} (hi : i.microOn other = true)
    (ho : ∀ b k1 k2, (i.bankRun b).outcome = (i.bankRun (b.withKeys k1 k2)).outcome) {s t u : State} {sel : BankSel}
    {k1 k2 : Config.Key} (ht : exec i s = .next t)
    (hu : exec i (s.setBank sel ((s.bank sel).withKeys k1 k2)) = .next u) : t.rsp = u.rsp := by
  obtain ⟨k1', k2', hb⟩ := bank_setBank_withKeys s sel other k1 k2
  exact micro_rsp_congr hi (setBank_fault ..).symm (setBank_live ..).symm (setBank_rsp ..).symm (hb ▸ ho _ _ _) ht hu

/-- Settles O35. -/
theorem keysDoNotShowInReads : Obligations.KeysDoNotShowInReads := by
  intro s sel k1 k2 i hi
  obtain ⟨t, ht⟩ := exec_next i s
  obtain ⟨u, hu⟩ := exec_next i (s.setBank sel ((s.bank sel).withKeys k1 k2))
  refine ⟨t, u, ht, hu, ?_⟩
  have micro {other : BankSel} (hm : i.microOn other = true)
      (ho : ∀ b k1 k2, (i.bankRun b).outcome = (i.bankRun (b.withKeys k1 k2)).outcome) : t.rsp = u.rsp :=
    micro_rsp_withKeys hm ho ht hu
  cases i with
  | new cid =>
    by_cases h : cid = 0
    · subst h
      cases ht; cases hu
      simp
    · rw [exec_new_ne_zero h, Host.Outcome.next.injEq] at ht hu
      subst ht hu
      simp [State.cleared]
  | destroy =>
    cases ht; cases hu
    simp
  | rdreg reg =>
    rw [exec_rdreg, Host.Outcome.next.injEq] at ht hu
    subst ht hu
    rw [regBytes_setBank_withKeys, respond_rsp, respond_rsp, setBank_rsp]
  | init x now k1 k2 sid =>
    exact micro (beq_self_eq_true x) fun b _ _ =>
      bind_result_outcome (fun _ => []) (by rw [load_outcome, load_outcome]; rfl)
  | rekey x =>
    exact micro (beq_self_eq_true x) fun b _ _ =>
      bind_result_outcome (fun _ => []) (by rw [Bank.rekey, Bank.rekey, rekeyWith_outcome, rekeyWith_outcome]; rfl)
  | rekeyx x k1 k2 =>
    exact micro (beq_self_eq_true x) fun b _ _ =>
      bind_result_outcome (fun _ => []) (by rw [rekeyWith_outcome, rekeyWith_outcome]; rfl)
  | shouldrekey x now n =>
    exact micro (beq_self_eq_true x) fun b _ _ =>
      bind_result_outcome boolResult (by rw [shouldRekey_outcome, shouldRekey_outcome]; rfl)
  | sequence x =>
    exact micro (beq_self_eq_true x) fun b _ _ =>
      bind_result_outcome (fun _ => []) (by rw [sequence_outcome, sequence_outcome]; rfl)
  | auth x data =>
    exact micro (beq_self_eq_true x) fun b _ _ =>
      bind_result_outcome (fun _ => []) (by rw [auth_outcome, auth_outcome]; rfl)
  | verify x tag =>
    exact micro (beq_self_eq_true x) fun b _ _ =>
      bind_result_outcome boolResult (by rw [verify_outcome, verify_outcome]; rfl)
  | encsize | decsize | encrypt | decrypt | final | pack | feed => exact hi.elim

end Sys2Proof.Machine
end

section
/-! The command port (spec/20_memory.md R60, R61, R75): a step takes one transaction and answers it with one response,
whose status is a code of R346. -/

namespace Sys2Proof.Machine

theorem step_of_nil {s : State} (hc : s.cmd = []) : step s = .next s := by
  simp only [step, takeCommand_nil hc]

theorem step_of_decoded {s : State} {tx : List Byte} {rest : List (List Byte)} {i : Instr} (hc : s.cmd = tx :: rest)
    (hd : decode tx = .ok i) : step s = exec i { s with cmd := rest } := by
  simp only [step, takeCommand_cons hc, hd]

theorem step_of_illegal {s : State} {tx : List Byte} {rest : List (List Byte)} {e : Reject} (hc : s.cmd = tx :: rest)
    (hd : decode tx = .error e) : step s = .next (State.illegalCommand { s with cmd := rest } tx) := by
  simp only [step, takeCommand_cons hc, hd]

/-- Settles O11. -/
theorem stepRunsDecodedCommand : Obligations.StepRunsDecodedCommand :=
  ⟨fun _ _ _ _ hc hd => step_of_decoded hc hd, fun _ hc => step_of_nil hc⟩

/-! ### Responses the block may give -/

/-- A response as R100 and R346 allow it: a result only with `ST_OK`, and a status of the table. -/
structure Response.Legal (r : Response) : Prop where
  result : r.status ≠ 0x00 → r.result = []
  status : r.status = 0x00 ∨ r.status = 0x02 ∨ (0x10 ≤ r.status.toNat ∧ r.status.toNat ≤ 0x19)

theorem statusOk_legal (result : List Byte) (events : List Event) : (Response.mk statusOk result events).Legal :=
  ⟨fun h => absurd rfl h, .inl rfl⟩

theorem statusFaulted_legal : (Response.mk statusFaulted [] []).Legal := ⟨fun _ => rfl, .inr (.inl rfl)⟩

theorem faultResponse_legal (c : FaultCode) (events : List Event) : (faultResponse c events).Legal :=
  ⟨fun _ => rfl, .inr (.inr (faultCode_byte_range c))⟩

/-- From `s` to `t` exactly one response went out, a legal one, and no transaction was taken. -/
structure AnsweredOnce (s t : State) : Prop where
  cmd : t.cmd = s.cmd
  rsp : ∃ r : Response, r.Legal ∧ t.rsp = s.rsp ++ [r.encode]

theorem respond_answeredOnce (s : State) {r : Response} (h : r.Legal) : AnsweredOnce s (s.respond r) :=
  ⟨rfl, r, h, rfl⟩

theorem raise_answeredOnce (s : State) (c : FaultCode) (events : List Event) : AnsweredOnce s (s.raise c events) :=
  ⟨rfl, _, faultResponse_legal c events, rfl⟩

theorem refuse_answeredOnce (s : State) : AnsweredOnce s s.refuse := respond_answeredOnce s statusFaulted_legal

/-- What left both ports alone before the answer does not count. -/
theorem AnsweredOnce.of_ports {s u t : State} (hc : u.cmd = s.cmd) (hr : u.rsp = s.rsp) (h : AnsweredOnce u t) :
    AnsweredOnce s t :=
  ⟨h.cmd.trans hc, hr ▸ h.rsp⟩

theorem answer_answeredOnce (events : List Event) (r : Run State (List Byte)) :
    AnsweredOnce r.state (answer events r) := by
  cases r with
  | done result s => exact respond_answeredOnce s (statusOk_legal result events)
  | raised c s => exact raise_answeredOnce s c events

/-- A run on a bank touches neither port. -/
theorem answer_onBank_answeredOnce (events : List Event) (s : State) (sel : BankSel)
    (op : Bank → Run Bank (List Byte)) : AnsweredOnce s (answer events (s.onBank sel op)) := by
  refine (answer_answeredOnce events (s.onBank sel op)).of_ports ?_ ?_ <;> simp

theorem feedEnd_answeredOnce (r : FeedEnd) : AnsweredOnce r.state r.answered := by
  unfold FeedEnd.answered
  cases r.raised with
  | none => exact respond_answeredOnce r.state (statusOk_legal [] r.events)
  | some c => exact raise_answeredOnce r.state c r.events

theorem guarded_answeredOnce {s : State} {f : State → State} (h : AnsweredOnce s (f s)) :
    AnsweredOnce s (s.guarded f) := by
  rcases guarded_cases s f with ⟨_, e⟩ | ⟨_, _, e⟩ | ⟨_, e⟩ <;> rw [e]
  · exact refuse_answeredOnce s
  · exact raise_answeredOnce s _ _
  · exact h

theorem illegalCommand_answeredOnce (s : State) (tx : List Byte) : AnsweredOnce s (s.illegalCommand tx) := by
  rcases illegalCommand_cases s tx with ⟨_, _, e⟩ | ⟨_, e⟩ <;> rw [e]
  · exact refuse_answeredOnce s
  · exact raise_answeredOnce s _ _

/-! ### Every command answers once -/

theorem feed_answeredOnce (data : List Byte) (s : State) : AnsweredOnce s (s.feed data) := by
  rcases feed_cases data s with ⟨_, e⟩ | ⟨_, _, e⟩ | ⟨_, _, _, e⟩ | ⟨_, _, _, e⟩ <;> rw [e]
  · exact raise_answeredOnce s _ _
  · exact respond_answeredOnce s (statusOk_legal [] [])
  · exact raise_answeredOnce s _ _
  · obtain ⟨hloop, _⟩ := runLoop_frame [] (s.rxqAppend data)
    exact (feedEnd_answeredOnce _).of_ports hloop.cmd hloop.rsp

/-- PACK after the guard: its trigger raises, or its frame is answered with the trigger's event (R200). -/
theorem exec_pack_of_accepting {s : State} (ha : s.Accepting) (now : BitVec 64) (cmd body : List Byte) :
    (∃ c b, s.outBank.packTrigger now cmd body = .raised c b ∧
      exec (.pack now cmd body) s = .next ((s.setBank .output b).raise c [])) ∨
    (∃ due b, s.outBank.packTrigger now cmd body = .done due b ∧
      exec (.pack now cmd body) s =
        .next (answer (packEvents due) ((s.setBank .output b).onBank .output (Bank.packFrame due cmd body)))) := by
  rw [show exec (.pack now cmd body) s = execPack now cmd body s from rfl, execPack, guarded_of_accepting ha]
  cases ht : s.outBank.packTrigger now cmd body with
  | raised c b => exact .inl ⟨c, b, rfl, by rw [onBank_of_raised (sel := .output) ht]⟩
  | done due b => exact .inr ⟨due, b, rfl, by rw [onBank_of_done (sel := .output) ht]⟩

/-- A guarded command answers once if it does so where the guard lets it through. -/
theorem exec_answeredOnce_of_accepting {i : Instr} (hi : i.unguarded = false) {s t : State} (h : exec i s = .next t)
    (hrun : s.Accepting → AnsweredOnce s t) : AnsweredOnce s t := by
  obtain ⟨f, hexec⟩ := exec_guarded hi
  rw [hexec, Host.Outcome.next.injEq] at h
  subst h
  rcases guarded_cases s f with ⟨_, e⟩ | ⟨_, _, e⟩ | ⟨ha, _⟩
  · exact e ▸ refuse_answeredOnce s
  · exact e ▸ raise_answeredOnce s _ _
  · exact hrun ha

theorem exec_pack_answeredOnce {s t : State} {now : BitVec 64} {cmd body : List Byte}
    (h : exec (.pack now cmd body) s = .next t) : AnsweredOnce s t := by
  refine exec_answeredOnce_of_accepting rfl h fun ha => ?_
  rcases exec_pack_of_accepting ha now cmd body with ⟨c, b, _, e⟩ | ⟨due, b, _, e⟩ <;>
    rw [e, Host.Outcome.next.injEq] at h <;> subst h
  · exact AnsweredOnce.of_ports (u := s.setBank .output b) rfl rfl (raise_answeredOnce _ c [])
  · exact AnsweredOnce.of_ports (u := s.setBank .output b) rfl rfl (answer_onBank_answeredOnce ..)

theorem exec_micro_answeredOnce {i : Instr} {sel : BankSel} (hi : i.microOn sel = true) {s t : State}
    (h : exec i s = .next t) : AnsweredOnce s t := by
  rw [exec_bankRun hi, Host.Outcome.next.injEq] at h
  exact h ▸ guarded_answeredOnce (answer_onBank_answeredOnce [] s sel i.bankRun)

theorem exec_new_answeredOnce {cid : BitVec 8} {s t : State} (h : exec (.new cid) s = .next t) : AnsweredOnce s t := by
  by_cases hc : cid = 0
  · subst hc
    rw [exec_new_zero, Host.Outcome.next.injEq] at h
    exact h ▸ ⟨rfl, _, statusOk_legal [] [], rfl⟩
  · rw [exec_new_ne_zero hc, Host.Outcome.next.injEq] at h
    exact h ▸ ⟨rfl, _, faultResponse_legal .badCipher [], rfl⟩

theorem exec_answeredOnce {i : Instr} {s t : State} (h : exec i s = .next t) : AnsweredOnce s t := by
  cases i with
  | new cid => exact exec_new_answeredOnce h
  | destroy => cases h; exact ⟨rfl, _, statusOk_legal [] [], rfl⟩
  | rdreg reg => cases h; exact respond_answeredOnce s (statusOk_legal _ [])
  | pack now cmd body => exact exec_pack_answeredOnce h
  | feed data => cases h; exact guarded_answeredOnce (feed_answeredOnce data s)
  | init sel | rekey sel | rekeyx sel | shouldrekey sel | sequence sel | encsize sel | decsize sel | encrypt sel
  | decrypt sel | auth sel | final sel | verify sel =>
    exact exec_micro_answeredOnce (sel := sel) (by simp [Instr.microOn]) h

/-- Settles O13: a legal command and an illegal one are both answered once. -/
theorem eachCommandIsAnsweredOnce : Obligations.EachCommandIsAnsweredOnce := by
  intro s tx rest hc
  have once {t : State} (ht : step s = .next t) (h : AnsweredOnce { s with cmd := rest } t) :
      ∃ (t : State) (r : Response), step s = .next t ∧ t.cmd = rest ∧ t.rsp = s.rsp ++ [r.encode] ∧
        (r.status ≠ 0x00 → r.result = []) ∧
        (r.status = 0x00 ∨ r.status = 0x02 ∨ (0x10 ≤ r.status.toNat ∧ r.status.toNat ≤ 0x19)) := by
    obtain ⟨r, hr, hrsp⟩ := h.rsp
    exact ⟨t, r, ht, h.cmd, hrsp, hr.result, hr.status⟩
  cases hd : decode tx with
  | ok i =>
    obtain ⟨t, ht⟩ := exec_next i { s with cmd := rest }
    exact once ((step_of_decoded hc hd).trans ht) (exec_answeredOnce ht)
  | error e => exact once (step_of_illegal hc hd) (illegalCommand_answeredOnce _ tx)

end Sys2Proof.Machine
end

section
/-! The receive queue (spec/20_memory.md R66): when FEED overflows it, and when FEED only fills it. -/

namespace Sys2Proof.Machine

theorem exec_feed_of_overflow {s : State} {data : List Byte} (ha : s.Accepting) (hk : s.inBank.keyed = true)
    (hh : s.halted = false) (hroom : ¬ s.RoomFor data.length) :
    exec (.feed data) s = .next (s.faultedWith FaultCode.rxqOverflow.byte) := by
  rw [show exec (.feed data) s = .next (s.guarded (State.feed data)) from rfl, guarded_of_accepting ha,
    ← raise_eq_faultedWith ha.1]
  rcases feed_cases data s with ⟨hk', _⟩ | ⟨_, hh', _⟩ | ⟨_, _, _, e⟩ | ⟨_, _, ho, _⟩
  · rw [hk] at hk'; cases hk'
  · rw [hh] at hh'; cases hh'
  · rw [e]
  · exact absurd (roomFor_iff.mpr ho) hroom

/-- FEED's loop does not raise the overflow: its codes are those of the micro-operations (spec/43_feed.md R242). -/
theorem runLoop_answered_fault_ne_rxqOverflow (events : List Event) {s : State} (hf : s.fault = 0) :
    (runLoop events s).answered.fault ≠ FaultCode.rxqOverflow.byte := by
  obtain ⟨hloop, hcodes⟩ := runLoop_frame events s
  have hstate : (runLoop events s).state.fault = 0 := hloop.fault.trans hf
  unfold FeedEnd.answered
  cases hr : (runLoop events s).raised with
  | none =>
    rw [respond_fault, hstate]
    exact (faultCode_byte_ne_zero .rxqOverflow).symm
  | some c =>
    rw [raise_fault, if_pos hstate]
    intro he
    rcases hcodes c hr with rfl | rfl | rfl <;> cases faultCode_byte_injective he

/-- Settles O48: with room FEED runs the loop, which raises other codes only. -/
theorem feedFaultsExactlyOnOverflow : Obligations.FeedFaultsExactlyOnOverflow := by
  intro s data ha hk hh
  refine ⟨exec_feed_of_overflow ha hk hh, fun h hroom => ?_⟩
  rw [exec_feed_of_room ha hk hh hroom, Host.Outcome.next.injEq] at h
  exact runLoop_answered_fault_ne_rxqOverflow [] (s := s.rxqAppend data) ha.1 (congrArg State.fault h)

/-- Settles O49: the parser is not ready, so the loop takes no turn. -/
theorem shortQueueOnlyGrows : Obligations.ShortQueueOnlyGrows := by
  intro s data ha hk hh hroom hshort
  have hwait : (s.rxqAppend data).parserReady = false := by
    rw [Bool.eq_false_iff, ne_eq, parserReady_iff, rxqAppend_pending, rxqAppend_waiting, List.length_append]
    omega
  rw [exec_feed_of_room ha hk hh hroom, runLoop_stop hwait]
  rfl

end Sys2Proof.Machine
end

section
/-! The two directions do not meet (spec/20_memory.md R77): what a command on `in` or on `out` does, as far as it depends
on its own direction alone, and that two such commands commute. -/

namespace Sys2Proof.Machine

/-- A guarded operation that leaves no fault was let through. -/
theorem accepting_of_guarded {s : State} {f : State → State} (h : (s.guarded f).fault = 0) :
    s.Accepting ∧ s.guarded f = f s := by
  rcases guarded_cases s f with ⟨hf, e⟩ | ⟨_, _, e⟩ | h'
  · exact absurd (by rwa [e] at h) hf
  · exact absurd (e ▸ h) (raise_fault_ne_zero _ _ _)
  · exact h'

theorem accepting_of_exec {i : Instr} (hi : i.unguarded = false) {s t : State} (h : exec i s = .next t)
    (hf : t.fault = 0) : s.Accepting := by
  obtain ⟨f, hexec⟩ := exec_guarded hi
  rw [hexec, Host.Outcome.next.injEq] at h
  exact (accepting_of_guarded (h ▸ hf)).1

theorem faultedWith_fault_ne_zero (s : State) (c : FaultCode) : (s.faultedWith c.byte).fault ≠ 0 :=
  faultCode_byte_ne_zero c

/-- An answer that leaves no fault is that of a run that ended. -/
theorem done_of_answer {events : List Event} {r : Run State (List Byte)} (h : (answer events r).fault = 0) :
    ∃ result s, r = .done result s := by
  cases r with
  | done result s => exact ⟨result, s, rfl⟩
  | raised c s => exact absurd h (raise_fault_ne_zero _ _ _)

/-! ### Commands that depend on one bank -/

/-- Wherever a block accepts commands and holds the bank `b` at `sel`, the command leaves `b'` there, changes nothing
else and answers `r`. -/
def ActsOnBank (i : Instr) (sel : BankSel) (b b' : Bank) (r : Response) : Prop :=
  ∀ t : State, t.Accepting → t.bank sel = b → exec i t = .next ((t.setBank sel b').respond r)

theorem micro_actsOnBank {i : Instr} {sel : BankSel} (hi : i.microOn sel = true) {s t : State} (ha : s.Accepting)
    (h : exec i s = .next t) (hf : t.fault = 0) : ∃ b' r, ActsOnBank i sel (s.bank sel) b' r := by
  rw [exec_bankRun hi, guarded_of_accepting ha, Host.Outcome.next.injEq] at h
  obtain ⟨result, u, hrun⟩ := done_of_answer (h ▸ hf)
  obtain ⟨b', hop, _⟩ := onBank_eq_done.mp hrun
  refine ⟨b', okResponse result, fun v hv hb => ?_⟩
  rw [exec_bankRun hi, guarded_of_accepting hv, onBank_of_done (hb ▸ hop), answer_done]
  rfl

theorem pack_actsOnBank {now : BitVec 64} {cmd body : List Byte} {s t : State} (ha : s.Accepting)
    (h : exec (.pack now cmd body) s = .next t) (hf : t.fault = 0) :
    ∃ b' r, ActsOnBank (.pack now cmd body) .output s.outBank b' r := by
  rcases exec_pack_of_accepting ha now cmd body with ⟨c, b, _, e⟩ | ⟨due, b, htrigger, e⟩ <;>
    rw [e, Host.Outcome.next.injEq] at h
  · exact absurd (h ▸ hf) (raise_fault_ne_zero _ _ _)
  obtain ⟨frame, u, hrun⟩ := done_of_answer (h ▸ hf)
  obtain ⟨b', hframe, _⟩ := onBank_eq_done.mp hrun
  rw [bank_setBank_self] at hframe
  refine ⟨b', ⟨statusOk, frame, packEvents due⟩, fun v hv hb => ?_⟩
  have hv_trigger : v.outBank.packTrigger now cmd body = .done due b := by rw [← htrigger]; exact congrArg _ hb
  rcases exec_pack_of_accepting hv now cmd body with ⟨c, x, h', _⟩ | ⟨due', x, h', e'⟩ <;> rw [hv_trigger] at h' <;>
    cases h'
  rw [e', onBank_of_done (by rwa [bank_setBank_self]), setBank_setBank, answer_done]

theorem unguarded_of_microOn {i : Instr} {sel : BankSel} (hi : i.microOn sel = true) : i.unguarded = false := by
  cases i with
  | new | destroy | rdreg => cases hi
  | _ => rfl

/-- A command of the sending direction depends on `out` alone. -/
theorem outSide_actsOnBank {j : Instr} (hj : j.outSide = true) {s t : State} (h : exec j s = .next t)
    (hf : t.fault = 0) : ∃ b' r, ActsOnBank j .output s.outBank b' r := by
  rcases Bool.or_eq_true_iff.mp hj with hm | hp
  · exact micro_actsOnBank hm (accepting_of_exec (unguarded_of_microOn hm) h hf) h hf
  · cases j with
    | pack now cmd body => exact pack_actsOnBank (accepting_of_exec rfl h hf) h hf
    | _ => cases hp

/-! ### Commands that depend on `in` and the parser -/

/-- The same block with another bank `out` and other responses given. -/
def State.beside (o : Bank) (rsp : List (List Byte)) (s : State) : State := { s with outBank := o, rsp := rsp }

/-- From `s`, whatever `out` and the responses so far are, the command leaves `u` beside them and answers `r`. -/
def ActsBesideOut (i : Instr) (s u : State) (r : Response) : Prop :=
  ∀ (o : Bank) (rsp : List (List Byte)), exec i (s.beside o rsp) = .next ((u.beside o rsp).respond r)

theorem actsOnBank_input_beside {i : Instr} {s : State} {b' : Bank} {r : Response} (ha : s.Accepting)
    (h : ActsOnBank i .input s.inBank b' r) : ActsBesideOut i s (s.setBank .input b') r :=
  fun o rsp => h (s.beside o rsp) ha rfl

/-- A turn of the parser does not see `out` and the responses. -/
theorem parserTurn_beside (o : Bank) (rsp : List (List Byte)) (s : State) :
    parserTurn (s.beside o rsp) = (parserTurn s).mapState (State.beside o rsp) := by
  have hgraft : parserTurn (s.beside o rsp) = _ := parserTurn_graft o s.pending rsp s rfl
  rw [hgraft]
  cases ht : parserTurn s with
  | done events t => simp only [Run.mapState, State.graft, State.beside, ← (parserTurn_done ht).1.pending]
  | raised c t => simp only [Run.mapState, State.graft, State.beside, ← (parserTurn_raised ht).1.pending]

/-- Nor does FEED's loop. -/
theorem runLoop_beside (o : Bank) (rsp : List (List Byte)) (events : List Event) (s : State) :
    runLoop events (s.beside o rsp) =
      { runLoop events s with state := (runLoop events s).state.beside o rsp } := by
  refine runLoop_induction (P := fun events s r =>
    runLoop events (s.beside o rsp) = { r with state := r.state.beside o rsp }) ?stop ?raised ?turn events s
  case stop => exact fun events s h => runLoop_stop h
  case raised =>
    intro events s c t hr ht
    exact runLoop_raised hr (by rw [parserTurn_beside, ht]; rfl)
  case turn =>
    intro events s new t hr ht ih
    rw [← ih]
    exact runLoop_done hr (by rw [parserTurn_beside, ht]; rfl)

/-- A halted parser drops what it is fed (spec/43_feed.md R221). -/
theorem exec_feed_of_halted {s : State} (ha : s.Accepting) (hk : s.inBank.keyed = true) (hh : s.halted = true)
    (data : List Byte) : exec (.feed data) s = .next (s.respond (okResponse [])) := by
  rw [show exec (.feed data) s = .next (s.guarded (State.feed data)) from rfl, guarded_of_accepting ha]
  rcases feed_cases data s with ⟨hk', _⟩ | ⟨_, _, e⟩ | ⟨_, hh', _⟩ | ⟨_, hh', _⟩
  · rw [hk] at hk'; cases hk'
  · rw [e]
  · rw [hh] at hh'; cases hh'
  · rw [hh] at hh'; cases hh'

/-- FEED without a fault: the parser has halted, or the loop ends without a raise. -/
theorem feed_actsBesideOut {data : List Byte} {s t : State} (ha : s.Accepting) (h : exec (.feed data) s = .next t)
    (hf : t.fault = 0) : ∃ u r, u.live = true ∧ ActsBesideOut (.feed data) s u r := by
  rcases (Bool.eq_false_or_eq_true s.inBank.keyed).symm with hk | hk
  · rw [exec_feed_of_unkeyed ha hk, Host.Outcome.next.injEq] at h
    exact absurd (h ▸ hf) (faultedWith_fault_ne_zero s _)
  rcases Bool.eq_false_or_eq_true s.halted with hh | hh
  · exact ⟨s, okResponse [], ha.2, fun o rsp => exec_feed_of_halted (s := s.beside o rsp) ha hk hh data⟩
  by_cases hroom : s.RoomFor data.length
  · rw [exec_feed_of_room ha hk hh hroom, Host.Outcome.next.injEq] at h
    have hnone := (answered_frame (runLoop [] (s.rxqAppend data))).2 (h ▸ hf)
    have hlive : (runLoop [] (s.rxqAppend data)).state.live = true :=
      (runLoop_frame [] (s.rxqAppend data)).1.live.trans ha.2
    refine ⟨_, ⟨statusOk, [], (runLoop [] (s.rxqAppend data)).events⟩, hlive, fun o rsp => ?_⟩
    have hloop := runLoop_beside o rsp [] (s.rxqAppend data)
    rw [exec_feed_of_room (s := s.beside o rsp) ha hk hh hroom]
    rw [show (s.beside o rsp).rxqAppend data = (s.rxqAppend data).beside o rsp from rfl, hloop, FeedEnd.answered, hnone]
  · rw [exec_feed_of_overflow ha hk hh hroom, Host.Outcome.next.injEq] at h
    exact absurd (h ▸ hf) (faultedWith_fault_ne_zero s _)

/-- A command of the receiving direction depends on `in` and the parser alone. -/
theorem inSide_actsBesideOut {i : Instr} (hi : i.inSide = true) {s t : State} (h : exec i s = .next t)
    (hf : t.fault = 0) : ∃ u r, u.live = true ∧ ActsBesideOut i s u r := by
  rcases Bool.or_eq_true_iff.mp hi with hm | hfeed
  · have ha := accepting_of_exec (unguarded_of_microOn hm) h hf
    obtain ⟨b', r, hacts⟩ := micro_actsOnBank hm ha h hf
    exact ⟨s.setBank .input b', r, ha.2, actsOnBank_input_beside ha hacts⟩
  · cases i with
    | feed data => exact feed_actsBesideOut (accepting_of_exec rfl h hf) h hf
    | _ => cases hfeed

/-- Settles O44: each command does in the second place what it does in the first. -/
theorem commandsOnTheTwoBanksCommute : Obligations.CommandsOnTheTwoBanksCommute := by
  intro i j s a b hi hj ha hb hfa hfb
  have hunguarded : j.unguarded = false := by
    cases j with
    | new | destroy | rdreg => cases hj
    | _ => rfl
  have hs : s.Accepting := accepting_of_exec hunguarded hb hfb
  obtain ⟨u, ri, hlive, hin⟩ := inSide_actsBesideOut hi ha hfa
  obtain ⟨o, rj, hout⟩ := outSide_actsOnBank hj hb hfb
  -- Each command alone, from `s`.
  obtain rfl : (u.beside s.outBank s.rsp).respond ri = a :=
    Host.Outcome.next.inj ((hin s.outBank s.rsp).symm.trans ha)
  obtain rfl : (s.setBank .output o).respond rj = b := Host.Outcome.next.inj ((hout s hs rfl).symm.trans hb)
  -- Each command after the other one.
  have hji := hout ((u.beside s.outBank s.rsp).respond ri) ⟨hfa, hlive⟩ rfl
  have hij := hin o (s.rsp ++ [rj.encode])
  refine ⟨_, _, ri.encode, rj.encode, hji, hij, rfl, rfl, rfl, ?_, ?_⟩ <;> simp [State.beside]

end Sys2Proof.Machine
end

section
/-! Command transactions (spec/30_encoding.md sections 1 to 3): the decoder reads `i` from exactly one transaction, the
encoding of `i`. What is illegal (R96, R97) follows from what an encoding looks like. -/

namespace Sys2Proof

open Machine (le32 leBytes)

/-! ### The fields of a command word -/

theorem sized_eq_ok {o : Option Instr} {i : Instr} : sized o = .ok i ↔ o = some i := by
  cases o <;> simp [sized]

@[simp] theorem sized_some (i : Instr) : sized (some i) = .ok i := rfl

@[simp] theorem bankOfBit_bitOfBank (sel : BankSel) : bankOfBit (bitOfBank sel) = sel := by cases sel <;> rfl

theorem bitOfBank_bankOfBit (s : Bool) : bitOfBank (bankOfBit s) = s := by cases s <;> rfl

/-- The codes of R92 are distinct. -/
theorem opcodeOfByte_eq_some {b : BitVec 8} {op : Opcode} : opcodeOfByte b = some op ↔ op.byte = b := by
  constructor
  · intro h
    exact beq_iff_eq.mp (List.find?_some h :)
  · rintro rfl
    cases op <;> rfl

/-- RDREG's `s` and `arg` name a register exactly when they are that register's fields (R42, R144). -/
theorem regOfFields_eq_some {s : Bool} {num : BitVec 8} {reg : Reg} :
    regOfFields s num = some reg ↔ (Instr.rdreg reg).sBit = s ∧ (Instr.rdreg reg).argField = num := by
  constructor
  · intro h
    unfold regOfFields at h
    split at h
    · next r hr =>
      cases h
      exact ⟨bitOfBank_bankOfBit s, beq_iff_eq.mp (List.find?_some hr :)⟩
    · split at h
      · next r hr =>
        cases s <;> cases h
        exact ⟨rfl, beq_iff_eq.mp (List.find?_some hr :)⟩
      · cases h
  · rintro ⟨rfl, rfl⟩
    cases reg with
    | ofBank sel r => cases sel <;> cases r <;> rfl
    | ofBlock r => cases r <;> rfl

/-- Only a command that names a bank has `s = 1` (R92, R93). -/
theorem namesBank_of_sBit {i : Instr} (h : i.sBit = true) : i.opcode.namesBank = true := by
  cases i with
  | new | destroy | pack | feed => cases h
  | _ => rfl

/-- Only NEW and RDREG have an argument (R90). -/
theorem usesArg_of_argField {i : Instr} (h : i.argField ≠ 0) : i.opcode.usesArg = true := by
  cases i with
  | new | rdreg => rfl
  | _ => exact absurd rfl h

/-! ### Operands -/

/-- `i` is the command that the row `op`, the bank bit, the argument and the operand bytes stand for (R91, R92); the bit
and the argument count where the row uses them. -/
structure Instr.CarriedBy (i : Instr) (op : Opcode) (s : Bool) (arg : BitVec 8) (ops : List Byte) : Prop where
  opcode : i.opcode = op
  sBit : op.namesBank = true → i.sBit = s
  argField : op.usesArg = true → i.argField = arg
  operands : i.operands = ops
  wellFormed : i.wellFormed = true

/-- A length operand that states the length of a byte string is the one R91 gives that string. -/
theorem lengthOperand_of_length {data : List Byte} {n : BitVec 32} (h : data.length = n.toNat) :
    lengthOperand data = le32 n ∧ fits32 data = true := by
  rw [lengthOperand, fits32, h, BitVec.ofNat_toNat, BitVec.setWidth_eq]
  exact ⟨rfl, decide_eq_true n.isLt⟩

theorem toNat_length_of_fits32 {data : List Byte} (h : fits32 data = true) :
    (BitVec.ofNat 32 data.length).toNat = data.length := by
  rw [BitVec.toNat_ofNat, Nat.mod_eq_of_lt (of_decide_eq_true h)]

theorem carriedBy_of_parseOperands {op : Opcode} {s : Bool} {arg : BitVec 8} {ops : List Byte} {i : Instr}
    (h : parseOperands op s arg ops = .ok i) : i.CarriedBy op s arg ops := by
  have hbit := bitOfBank_bankOfBit s
  cases op with
  | new =>
    obtain ⟨rfl, rfl⟩ := whenDone_eq_some.mp (sized_eq_ok.mp h)
    exact ⟨rfl, nofun, fun _ => rfl, rfl, rfl⟩
  | destroy =>
    obtain ⟨rfl, rfl⟩ := whenDone_eq_some.mp (sized_eq_ok.mp h)
    exact ⟨rfl, nofun, nofun, rfl, rfl⟩
  | rekey | sequence | final =>
    obtain ⟨rfl, rfl⟩ := whenDone_eq_some.mp (sized_eq_ok.mp h)
    exact ⟨rfl, fun _ => hbit, nofun, rfl, rfl⟩
  | init =>
    simp only [parseOperands, sized_eq_ok, Option.bind_eq_some_iff, Prod.exists, take64_eq_some, takeBytes_eq_some,
      whenDone_eq_some] at h
    obtain ⟨now, _, rfl, k1, _, rfl, k2, _, rfl, sid, _, rfl, rfl, rfl⟩ := h
    exact ⟨rfl, fun _ => hbit, nofun, by simp [Instr.operands], rfl⟩
  | rekeyx =>
    simp only [parseOperands, sized_eq_ok, Option.bind_eq_some_iff, Prod.exists, takeBytes_eq_some, whenDone_eq_some] at h
    obtain ⟨k1, _, rfl, k2, _, rfl, rfl, rfl⟩ := h
    exact ⟨rfl, fun _ => hbit, nofun, by simp [Instr.operands], rfl⟩
  | shouldrekey =>
    simp only [parseOperands, sized_eq_ok, Option.bind_eq_some_iff, Prod.exists, take64_eq_some, whenDone_eq_some] at h
    obtain ⟨now, _, rfl, n, _, rfl, rfl, rfl⟩ := h
    exact ⟨rfl, fun _ => hbit, nofun, by simp [Instr.operands], rfl⟩
  | encsize | decsize | verify =>
    simp only [parseOperands, sized_eq_ok, Option.bind_eq_some_iff, Prod.exists, takeBytes_eq_some, whenDone_eq_some] at h
    obtain ⟨field, _, rfl, rfl, rfl⟩ := h
    exact ⟨rfl, fun _ => hbit, nofun, by simp [Instr.operands], rfl⟩
  | encrypt | decrypt | auth =>
    obtain ⟨data, hd, rfl⟩ := Option.map_eq_some_iff.mp (sized_eq_ok.mp h)
    obtain ⟨rfl, hfits⟩ := takeData_eq_some.mp hd
    exact ⟨rfl, fun _ => hbit, nofun, rfl, hfits⟩
  | feed =>
    obtain ⟨data, hd, rfl⟩ := Option.map_eq_some_iff.mp (sized_eq_ok.mp h)
    obtain ⟨rfl, hfits⟩ := takeData_eq_some.mp hd
    exact ⟨rfl, nofun, nofun, rfl, hfits⟩
  | pack =>
    simp only [parseOperands, sized_eq_ok, Option.bind_eq_some_iff, Prod.exists, take64_eq_some, take32_eq_some] at h
    obtain ⟨now, _, rfl, c, _, rfl, b, rest, rfl, hb⟩ := h
    split_ifs at hb with hlen
    cases hb
    obtain ⟨hcmd, hcmdFits⟩ := lengthOperand_of_length (data := rest.take c.toNat) (n := c) (by simp; omega)
    obtain ⟨hbody, hbodyFits⟩ := lengthOperand_of_length (data := rest.drop c.toNat) (n := b) (by simp; omega)
    exact ⟨rfl, nofun, nofun, by simp [Instr.operands, hcmd, hbody], by simp [Instr.wellFormed, hcmdFits, hbodyFits]⟩
  | rdreg =>
    unfold parseOperands at h
    cases hr : regOfFields s arg with
    | none => rw [hr] at h; cases h
    | some reg =>
      rw [hr] at h
      obtain ⟨rfl, rfl⟩ := whenDone_eq_some.mp (sized_eq_ok.mp h)
      obtain ⟨hs, ha⟩ := regOfFields_eq_some.mp hr
      exact ⟨rfl, fun _ => hs, fun _ => ha, rfl, rfl⟩

theorem parseOperands_of_wellFormed {i : Instr} (hw : i.wellFormed = true) :
    parseOperands i.opcode i.sBit i.argField i.operands = .ok i := by
  cases i with
  | new cid => rfl
  | destroy => rfl
  | rekey | sequence | final | init | rekeyx | shouldrekey | encsize | decsize | verify =>
    simp [parseOperands, Instr.opcode, Instr.operands, Instr.sBit]
  | encrypt sel data | decrypt sel data | auth sel data =>
    simp [parseOperands, Instr.opcode, Instr.operands, Instr.sBit, takeData_eq_some.mpr ⟨rfl, hw⟩]
  | feed data =>
    simp [parseOperands, Instr.opcode, Instr.operands, takeData_eq_some.mpr ⟨rfl, hw⟩]
  | pack now cmd body =>
    obtain ⟨hcmd, hbody⟩ := Bool.and_eq_true_iff.mp hw
    simp only [parseOperands, Instr.opcode, Instr.operands, lengthOperand, take64_append, take32_append,
      Option.bind_some, toNat_length_of_fits32 hcmd, toNat_length_of_fits32 hbody]
    simp
  | rdreg reg =>
    have hreg : regOfFields (Instr.rdreg reg).sBit (Instr.rdreg reg).argField = some reg :=
      regOfFields_eq_some.mpr ⟨rfl, rfl⟩
    simp only [parseOperands, Instr.opcode, Instr.operands, hreg, whenDone_nil, sized_some]

/-! ### Transactions -/

theorem decodeFields_of_wellFormed {i : Instr} (hw : i.wellFormed = true) :
    decodeFields ⟨i.opcode.byte, i.sBit, i.argField⟩ i.operands = .ok i := by
  have hbank : ¬(i.sBit && !i.opcode.namesBank) = true := by simpa using namesBank_of_sBit
  have harg : ¬(i.argField != 0 && !i.opcode.usesArg) = true := by simpa using usesArg_of_argField
  simp only [decodeFields, opcodeOfByte_eq_some.mpr rfl, if_neg hbank, if_neg harg, parseOperands_of_wellFormed hw]

/-- Fields that decode are those of the command they decode to. -/
theorem fields_of_decodeFields {cw : CommandWord} {ops : List Byte} {i : Instr} (h : decodeFields cw ops = .ok i) :
    cw = ⟨i.opcode.byte, i.sBit, i.argField⟩ ∧ i.operands = ops ∧ i.wellFormed = true := by
  unfold decodeFields at h
  cases hop : opcodeOfByte cw.opc with
  | none => rw [hop] at h; cases h
  | some op =>
    simp only [hop] at h
    split_ifs at h with hbank harg
    obtain ⟨rfl, hs, ha, hops, hw⟩ := carriedBy_of_parseOperands h
    have hbank' : cw.s = true → i.opcode.namesBank = true := by simpa using hbank
    have harg' : cw.arg ≠ 0 → i.opcode.usesArg = true := by simpa using harg
    have hsEq : cw.s = i.sBit :=
      Bool.eq_iff_iff.mpr ⟨fun h1 => (hs (hbank' h1)).trans h1, fun h1 => (hs (namesBank_of_sBit h1)).symm.trans h1⟩
    have hargEq : cw.arg = i.argField := by
      by_cases hused : i.opcode.usesArg = true
      · exact (ha hused).symm
      · rw [not_imp_comm.mp harg' hused, not_imp_comm.mp usesArg_of_argField hused]
    exact ⟨by rw [opcodeOfByte_eq_some.mp hop, ← hsEq, ← hargEq], hops, hw⟩

/-- The decoder reads `i` from the encoding of `i`, and from no other transaction (R90 to R98). -/
theorem decode_eq_ok_iff {tx : List Byte} {i : Instr} : decode tx = .ok i ↔ i.wellFormed = true ∧ encode i = tx := by
  constructor
  · intro h
    unfold decode at h
    cases ht : take32 tx with
    | none => rw [ht] at h; cases h
    | some p =>
      obtain ⟨w, ops⟩ := p
      cases hsplit : splitWord w with
      | error e => simp only [ht, hsplit] at h; cases h
      | ok cw =>
        simp only [ht, hsplit] at h
        obtain ⟨rfl, rfl, hw⟩ := fields_of_decodeFields h
        exact ⟨hw, by rw [encode, Instr.word, commandWord_of_splitWord hsplit, take32_eq_some.mp ht]⟩
  · rintro ⟨hw, rfl⟩
    simp only [decode, encode, take32_append, Instr.word, splitWord_commandWord, decodeFields_of_wellFormed hw]

/-- Settles O6. -/
theorem decodeOfEncodeIsSame : Obligations.DecodeOfEncodeIsSame :=
  fun _ hw => decode_eq_ok_iff.mpr ⟨hw, rfl⟩

/-- Settles O7. -/
theorem encodeOfDecodeIsSame : Obligations.EncodeOfDecodeIsSame :=
  fun _ _ h => decode_eq_ok_iff.mp h

/-- Settles O8: each transaction is the encoding of its command. -/
theorem tableWordsDecode : Obligations.TableWordsDecode := by
  simp only [Obligations.TableWordsDecode, decode_eq_ok_iff]
  decide

/-! ### Illegal transactions -/

/-- What is no command's encoding does not decode. -/
theorem decode_error_of_ne_encode {tx : List Byte} (h : ∀ i, encode i ≠ tx) : ∃ e, decode tx = .error e := by
  cases hd : decode tx with
  | error e => exact ⟨e, rfl⟩
  | ok i => exact absurd (decode_eq_ok_iff.mp hd).2 (h i)

theorem splitWord_word (i : Instr) : splitWord i.word = .ok ⟨i.opcode.byte, i.sBit, i.argField⟩ :=
  splitWord_commandWord ..

/-- The fields of a command's word (R90): reserved bits zero, then `opc`, `s` and `arg`. -/
theorem word_fields (i : Instr) :
    (i.word.extractLsb' 9 7 = 0 ∧ i.word.extractLsb' 24 8 = 0) ∧ i.word.extractLsb' 0 8 = i.opcode.byte ∧
      i.word.getLsbD 8 = i.sBit ∧ i.word.extractLsb' 16 8 = i.argField := by
  have h := splitWord_word i
  unfold splitWord at h
  split_ifs at h with hz
  simp only [Except.ok.injEq, CommandWord.mk.injEq] at h
  exact ⟨hz, h⟩

/-- The first byte of a transaction is the low byte of its word (R90). -/
theorem le32_append_eq_cons (w : BitVec 32) (rest : List Byte) :
    ∃ tail, le32 w ++ rest = w.extractLsb' 0 8 :: tail :=
  ⟨_, by rw [le32, leBytes, List.cons_append]; congr 1⟩

/-- The first byte of an encoding is its operation code (R90). -/
theorem encode_eq_cons (i : Instr) : ∃ tail, encode i = i.opcode.byte :: tail := by
  obtain ⟨_, hopc, _⟩ := word_fields i
  exact hopc ▸ le32_append_eq_cons i.word i.operands

/-- The codes of R92 lie outside R96's ranges. -/
theorem opcode_byte_not_reserved (op : Opcode) : op.byte ≠ 0x00 ∧ op.byte ≠ 0x0F ∧ op.byte.toNat < 0x13 := by
  cases op <;> decide

/-- Settles O9. -/
theorem reservedOpcodesAreIllegal : Obligations.ReservedOpcodesAreIllegal := by
  intro opc rest hreserved
  refine decode_error_of_ne_encode fun i hi => ?_
  obtain ⟨tail, htail⟩ := encode_eq_cons i
  obtain ⟨rfl, _⟩ := List.cons.inj (htail.symm.trans hi)
  obtain ⟨h0, hF, hlt⟩ := opcode_byte_not_reserved i.opcode
  rcases hreserved with h | h | h
  · exact h0 h
  · exact hF h
  · omega

/-- The operations whose word has no bank bit (R92). -/
theorem namesBank_eq_false_iff (op : Opcode) :
    op.namesBank = false ↔ op.byte = 0x01#8 ∨ op.byte = 0x02#8 ∨ op.byte = 0x10#8 ∨ op.byte = 0x11#8 := by
  cases op <;> decide

/-- The operations whose word has an argument (R90). -/
theorem usesArg_eq_true_iff (op : Opcode) : op.usesArg = true ↔ op.byte = 0x01#8 ∨ op.byte = 0x12#8 := by
  cases op <;> decide

/-- Settles O10: the word of every command passes the three tests of R97. -/
theorem misusedWordFieldsAreIllegal : Obligations.MisusedWordFieldsAreIllegal := by
  intro w rest hmisused
  refine decode_error_of_ne_encode fun i hi => ?_
  obtain ⟨rfl, rfl⟩ : i.word = w ∧ i.operands = rest := by
    have hsplit := take32_append w rest
    rw [← hi, encode, take32_append] at hsplit
    simpa using hsplit
  obtain ⟨⟨hlow, hhigh⟩, hopc, hs, harg⟩ := word_fields i
  rw [hopc, hs, harg] at hmisused
  rcases hmisused with h | h | ⟨hbit, hcode⟩ | ⟨hne, hnew, hrdreg⟩
  · exact h hlow
  · exact h hhigh
  · exact absurd (namesBank_of_sBit hbit) (by rw [(namesBank_eq_false_iff _).mpr hcode]; decide)
  · rcases (usesArg_eq_true_iff _).mp (usesArg_of_argField hne) with h | h
    · exact hnew h
    · exact hrdreg h

end Sys2Proof
end

section
/-! The wire formats (spec/30_encoding.md section 5): compact-sizes, inner messages and payloads are read back from their
encodings, and with over-long forms refused nothing else is read. -/

namespace Sys2Proof.Machine

/-! ### Compact-sizes -/

/-- A number below `FD` is its own compact-size (R104). -/
theorem csEncode_of_lt {n : Nat} (h : n < 0xFD) : csEncode n = [BitVec.ofNat 8 n] := if_pos h

/-- The three first bytes that a number follows (R104). -/
theorem csTag_cases {t : Byte} (h : ¬t.toNat < 0xFD) : t = 0xFD ∨ t = 0xFE ∨ t = 0xFF := by
  bv_omega

/-- A number that needs the form of the first byte `t`, and fits it, is encoded in that form (R104, R105). -/
theorem csEncode_of_tag {t : Byte} {n : Nat} (ht : ¬t.toNat < 0xFD) (hleast : csLeast t ≤ n)
    (hfits : n < 256 ^ csWidth t) : csEncode n = t :: leBytes (csWidth t) n := by
  unfold csEncode
  rcases csTag_cases ht with rfl | rfl | rfl
  · have h1 : 0xFD ≤ n := hleast
    have h2 : n < 0x10000 := hfits
    rw [if_neg (by omega), if_pos h2]
    rfl
  · have h1 : 0x10000 ≤ n := hleast
    have h2 : n < 0x100000000 := hfits
    rw [if_neg (by omega), if_neg (by omega), if_pos h2]
    rfl
  · have h1 : 0x100000000 ≤ n := hleast
    rw [if_neg (by omega), if_neg (by omega), if_neg (by omega)]
    rfl

/-- Every number of at most 64 bits is of one of the four forms (R104). -/
theorem csForm_cases {n : Nat} (h : n < 2 ^ 64) :
    n < 0xFD ∨ ∃ t : Byte, ¬t.toNat < 0xFD ∧ csLeast t ≤ n ∧ n < 256 ^ csWidth t := by
  by_cases h1 : n < 0xFD
  · exact .inl h1
  by_cases h2 : n < 0x10000
  · exact .inr ⟨0xFD, by decide, Nat.le_of_not_lt h1, h2⟩
  by_cases h4 : n < 0x100000000
  · exact .inr ⟨0xFE, by decide, Nat.le_of_not_lt h2, h4⟩
  · exact .inr ⟨0xFF, by decide, Nat.le_of_not_lt h4, h⟩

theorem csDecode_csEncode (strict : Bool) {n : Nat} (h : n < 2 ^ 64) (rest : List Byte) :
    csDecode strict (csEncode n ++ rest) = .ok (n, csLen n) := by
  rw [← length_csEncode]
  rcases csForm_cases h with hsmall | ⟨t, ht, hleast, hfits⟩
  · have hn : (BitVec.ofNat 8 n).toNat = n := by rw [BitVec.toNat_ofNat]; omega
    rw [csEncode_of_lt hsmall, List.cons_append, csDecode, if_pos (by rwa [hn]), hn]
    rfl
  · have htake : (leBytes (csWidth t) n ++ rest).take (csWidth t) = leBytes (csWidth t) n :=
      List.take_left' (leBytes_length ..)
    have hn : rdle (leBytes (csWidth t) n) = n := by rw [rdle_leBytes, Nat.mod_eq_of_lt hfits]
    rw [csEncode_of_tag ht hleast hfits, List.cons_append, csDecode, if_neg ht, htake, hn, if_neg (by simp),
      if_neg (by simpa using fun hlt => absurd hlt (Nat.not_lt.mpr hleast)), List.length_cons, leBytes_length,
      Nat.add_comm]

/-- With over-long forms refused, what decodes begins with the compact-size of its value (R105). -/
theorem csEncode_of_csDecode {p : List Byte} {n used : Nat} (h : csDecode true p = .ok (n, used)) :
    ∃ rest, p = csEncode n ++ rest ∧ p.drop used = rest := by
  cases p with
  | nil => cases h
  | cons t bs =>
    simp only [csDecode] at h
    split_ifs at h with ht hlen hleast
    · cases h
      refine ⟨bs, ?_, rfl⟩
      rw [csEncode_of_lt ht, BitVec.ofNat_toNat, BitVec.setWidth_eq]
      rfl
    · cases h
      have hwidth : (bs.take (csWidth t)).length = csWidth t := List.length_take_of_le (Nat.le_of_not_lt hlen)
      have hfits := rdle_lt (bs.take (csWidth t))
      have hbytes := leBytes_rdle (bs.take (csWidth t))
      rw [hwidth] at hfits hbytes
      refine ⟨bs.drop (csWidth t), ?_, by rw [Nat.add_comm]; rfl⟩
      rw [csEncode_of_tag ht (by simpa using hleast) hfits, hbytes, List.cons_append, List.take_append_drop]

/-- Settles O56. -/
theorem compactSizeIsReadBack : Obligations.CompactSizeIsReadBack :=
  fun strict n rest h => ⟨csDecode_csEncode strict h rest, length_csEncode n⟩

/-! ### One inner message -/

theorem innerMessage_ne_nil (cmd body : List Byte) : innerMessage cmd body ≠ [] := by
  simp [innerMessage, ← List.length_eq_zero_iff]

theorem parseMessage_innerMessage (strict : Bool) {m : Message} (hcmd : m.cmd.length < 2 ^ 64)
    (hbody : m.body.length < 2 ^ 32) (rest : List Byte) :
    parseMessage strict (innerMessage m.cmd m.body ++ rest) = .ok (m, rest) := by
  have hlen : (BitVec.ofNat 32 m.body.length).toNat = m.body.length := by
    rw [BitVec.toNat_ofNat, Nat.mod_eq_of_lt hbody]
  have hle : (le32 (BitVec.ofNat 32 m.body.length)).length = 4 := length_le32 _
  simp only [parseMessage, innerMessage, varstring, List.append_assoc, csDecode_csEncode strict hcmd]
  simp only [List.drop_left' (length_csEncode _), List.drop_left, List.take_left, List.drop_left' hle,
    List.take_left' hle, rdle_le32, hlen]
  rw [if_neg (by simp), if_neg (by simp), if_neg (by simp)]

/-- With over-long forms refused, a message that parses stands encoded at the head of the payload (R107, R236). -/
theorem innerMessage_of_parseMessage {p rest : List Byte} {m : Message} (h : parseMessage true p = .ok (m, rest)) :
    p = innerMessage m.cmd m.body ++ rest := by
  unfold parseMessage at h
  cases hcs : csDecode true p with
  | error e => rw [hcs] at h; cases h
  | ok r =>
    obtain ⟨c, used⟩ := r
    obtain ⟨afterCs, rfl, hdrop⟩ := csEncode_of_csDecode hcs
    simp only [hcs, hdrop] at h
    split_ifs at h with hc h4 hb
    cases h
    have hcmd : (afterCs.take c).length = c := List.length_take_of_le (Nat.le_of_not_lt hc)
    have hfield : ((afterCs.drop c).take 4).length = 4 := List.length_take_of_le (Nat.le_of_not_lt h4)
    have hbody := List.length_take_of_le (Nat.le_of_not_lt hb)
    rw [innerMessage, varstring, hcmd, hbody, le32_rdle hfield]
    simp only [List.append_assoc, List.take_append_drop]

/-! ### Payloads -/

theorem parseLoop_flatMap (strict : Bool) {ms : List Message}
    (hms : ∀ m ∈ ms, m.cmd.length < 2 ^ 64 ∧ m.body.length < 2 ^ 32) {n : Nat}
    (hn : (ms.flatMap fun m => innerMessage m.cmd m.body).length ≤ n) :
    parseLoop strict n (ms.flatMap fun m => innerMessage m.cmd m.body) = .ok ms := by
  induction ms generalizing n with
  | nil => cases n <;> rfl
  | cons m ms ih =>
    obtain ⟨⟨hcmd, hbody⟩, hrest⟩ := List.forall_mem_cons.mp hms
    have hpos := List.length_pos_of_ne_nil (innerMessage_ne_nil m.cmd m.body)
    rw [List.flatMap_cons] at hn ⊢
    rw [List.length_append] at hn
    cases n with
    | zero => omega
    | succ n =>
      have hne : (innerMessage m.cmd m.body ++ ms.flatMap fun m => innerMessage m.cmd m.body).isEmpty = false := by
        simp [innerMessage_ne_nil]
      simp only [parseLoop, hne, parseMessage_innerMessage strict hcmd hbody, ih hrest (show _ ≤ n by omega)]
      rfl

/-- Settles O57. -/
theorem innerMessagesAreReadBack : Obligations.InnerMessagesAreReadBack :=
  fun strict _ hms => parseLoop_flatMap strict hms le_rfl

theorem flatMap_of_parseLoop {n : Nat} {p : List Byte} {ms : List Message} (hn : p.length ≤ n)
    (h : parseLoop true n p = .ok ms) : (ms.flatMap fun m => innerMessage m.cmd m.body) = p := by
  induction n generalizing p ms with
  | zero =>
    cases h
    exact (List.length_eq_zero_iff.mp (Nat.le_zero.mp hn)).symm
  | succ n ih =>
    unfold parseLoop at h
    split_ifs at h with hp
    · cases h
      exact (List.isEmpty_iff.mp hp).symm
    cases hm : parseMessage true p with
    | error e => rw [hm] at h; cases h
    | ok r =>
      obtain ⟨m, rest⟩ := r
      obtain rfl := innerMessage_of_parseMessage hm
      have hpos := List.length_pos_of_ne_nil (innerMessage_ne_nil m.cmd m.body)
      rw [List.length_append] at hn
      cases hr : parseLoop true n rest with
      | error e => simp only [hm, hr] at h; cases h
      | ok ms' =>
        simp only [hm, hr] at h
        cases h
        rw [List.flatMap_cons, ih (by omega) hr]

/-- Settles O58. -/
theorem strictPayloadIsItsMessages : Obligations.StrictPayloadIsItsMessages :=
  fun _ _ h => flatMap_of_parseLoop le_rfl h

end Sys2Proof.Machine
end

section
/-! Transactions that are no command (spec/30_encoding.md R98): how the block answers them. -/

namespace Sys2Proof.Machine

/-- The first bytes that name NEW, DESTROY and RDREG (R92, R130). -/
theorem alwaysAccepted_eq_true_iff (tx : List Byte) :
    alwaysAccepted tx = true ↔ ∃ b tail, tx = b :: tail ∧ (b = 0x01 ∨ b = 0x02 ∨ b = 0x12) := by
  cases tx with
  | nil => simp [alwaysAccepted]
  | cons b tail => simp [alwaysAccepted, Opcode.byte, or_assoc]

/-- A raise without events in a faulted block answers its code and keeps the first one (R34, R345). -/
theorem raise_of_faulted {s : State} (h : s.fault ≠ 0) (c : FaultCode) :
    s.raise c [] = { s with rsp := s.rsp ++ [[c.byte, 0, 0, 0, 0, 0, 0, 0, 0]] } := by
  rw [State.raise, if_neg h, State.respond, faultResponse, encode_plain]

theorem illegalCommand_of_unfaulted {s : State} (h : s.fault = 0) (tx : List Byte) :
    s.illegalCommand tx = s.faultedWith 0x11 := by
  rcases illegalCommand_cases s tx with ⟨hf, _, _⟩ | ⟨_, heq⟩
  · exact absurd h hf
  · rw [heq, raise_eq_faultedWith h, FaultCode.byte]

theorem illegalCommand_of_refused {s : State} {tx : List Byte} (h : s.fault ≠ 0) (hother : alwaysAccepted tx = false) :
    s.illegalCommand tx = { s with rsp := s.rsp ++ [[0x02, 0, 0, 0, 0, 0, 0, 0, 0]] } := by
  rw [State.illegalCommand, if_pos ⟨h, hother⟩, refuse_eq]

theorem illegalCommand_of_alwaysAccepted {s : State} {tx : List Byte} (h : s.fault ≠ 0)
    (hnamed : alwaysAccepted tx = true) :
    s.illegalCommand tx = { s with rsp := s.rsp ++ [[0x11, 0, 0, 0, 0, 0, 0, 0, 0]] } := by
  rcases illegalCommand_cases s tx with ⟨_, hother, _⟩ | ⟨_, heq⟩
  · rw [hnamed] at hother; cases hother
  · rw [heq, raise_of_faulted h, FaultCode.byte]

/-- Settles O12, by the block's fault and the transaction's first byte. -/
theorem illegalCommandIsAnswered : Obligations.IllegalCommandIsAnswered := by
  intro s tx rest e hc hd
  rw [step_of_illegal hc hd]
  refine ⟨fun h => ?_, fun h hother => ?_, fun h hnamed => ?_⟩
  · rw [illegalCommand_of_unfaulted (s := { s with cmd := rest }) h]
  · have hacc : alwaysAccepted tx = false := by
      refine Bool.eq_false_iff.mpr fun hacc => ?_
      obtain ⟨b, tail, htx, hb⟩ := (alwaysAccepted_eq_true_iff tx).mp hacc
      obtain ⟨h1, h2, h12⟩ := hother b tail htx
      exact hb.elim h1 (·.elim h2 h12)
    rw [illegalCommand_of_refused (s := { s with cmd := rest }) h hacc]
  · rw [illegalCommand_of_alwaysAccepted (s := { s with cmd := rest }) h ((alwaysAccepted_eq_true_iff tx).mpr hnamed)]

end Sys2Proof.Machine
end

section
/-! NEW and DESTROY, and the stream operations (spec/40_stream_ops.md R133 to R143) one command at a time: where each
faults and what it does where it runs. -/

namespace Sys2Proof.Machine

/-! ### NEW and DESTROY -/

/-- The cleared block field by field, with an answer that carries a status only (R40, R41, R100). -/
theorem cleared_plain (s : State) (live : Bool) (fault status : BitVec 8) :
    s.cleared live fault ⟨status, [], []⟩ =
      { inBank := Bank.reset, outBank := Bank.reset, live := live, fault := fault, pending := [], waiting := 4,
        hasSize := false, halted := false, cmd := s.cmd, rsp := s.rsp ++ [[status, 0, 0, 0, 0, 0, 0, 0, 0]] } := by
  rw [← encode_plain]
  rfl

/-- Settles O2. -/
theorem newStartsOrRefusesSession : Obligations.NewStartsOrRefusesSession := fun s =>
  ⟨(exec_new_zero s).trans (congrArg _ (cleared_plain s true 0 statusOk)),
    fun _ hcid => (exec_new_ne_zero hcid s).trans (congrArg _ (cleared_plain s false 0x12 FaultCode.badCipher.byte))⟩

/-- Settles O3. -/
theorem destroyClearsAllButFault : Obligations.DestroyClearsAllButFault := fun s =>
  (exec_destroy s).trans (congrArg _ (cleared_plain s false s.fault statusOk))

/-! ### Where the runs on a bank raise -/

theorem encrypt_of_macFinal {b : Bank} (hk : b.keyed = true) (hm : b.macFinal = true) (data : List Byte) :
    b.encrypt data = .raised .macFinal b := by
  simp [Bank.encrypt, needKeyed_of_keyed hk, hm]

theorem auth_of_macFinal {b : Bank} (hk : b.keyed = true) (hm : b.macFinal = true) (data : List Byte) :
    b.auth data = .raised .macFinal b := by
  simp [Bank.auth, needKeyed_of_keyed hk, hm]

theorem final_of_macFinal {b : Bank} (hk : b.keyed = true) (hm : b.macFinal = true) :
    b.final = .raised .macFinal b := by
  simp [Bank.final, needKeyed_of_keyed hk, hm]

theorem encrypt_past_limit {b : Bank} (hk : b.keyed = true) (hm : b.macFinal = false) {data : List Byte}
    (hp : Config.ksLimit < b.aeadPos.toNat + data.length) : b.encrypt data = .raised .ksLimit b := by
  simp [Bank.encrypt, needKeyed_of_keyed hk, hm, Bank.payloadPastLimit, hp]

theorem decrypt_past_limit {b : Bank} (hk : b.keyed = true) {data : List Byte}
    (hp : Config.ksLimit < b.aeadPos.toNat + data.length) : b.decrypt data = .raised .ksLimit b := by
  simp [Bank.decrypt, needKeyed_of_keyed hk, Bank.payloadPastLimit, hp]

/-! ### The commands that fault -/

/-- Settles O18. -/
theorem secondInitAndUntaggedVerifyFault : Obligations.SecondInitAndUntaggedVerifyFault := by
  constructor
  · intro s sel now k1 k2 sid ha hk
    refine exec_micro_of_raised (c := .alreadyKeyed) (beq_self_eq_true sel) ha ?_
    rw [Instr.bankRun, load_of_keyed hk, bind_raised]
  · intro s sel tag ha hv
    refine exec_micro_of_raised (c := .noTag) (beq_self_eq_true sel) ha ?_
    rw [Instr.bankRun, verify_of_invalid hv, bind_raised]

/-- Settles O19. -/
theorem finishedMacFaults : Obligations.FinishedMacFaults := by
  intro s sel data ha hk hm
  refine ⟨exec_micro_of_raised (c := .macFinal) (beq_self_eq_true sel) ha (encrypt_of_macFinal hk hm data),
    exec_micro_of_raised (c := .macFinal) (beq_self_eq_true sel) ha ?_,
    exec_micro_of_raised (c := .macFinal) (beq_self_eq_true sel) ha (final_of_macFinal hk hm)⟩
  rw [Instr.bankRun, auth_of_macFinal hk hm, bind_raised]

/-- Settles O20: ENCSIZE and DECSIZE are one run on the bank. -/
theorem keystreamLimitFaults : Obligations.KeystreamLimitFaults := by
  intro s sel ha hk
  constructor
  · intro hp buf
    have hrun := cryptSize_past_limit hk hp buf.val
    exact ⟨exec_micro_of_raised (c := .ksLimit) (beq_self_eq_true sel) ha hrun,
      exec_micro_of_raised (c := .ksLimit) (beq_self_eq_true sel) ha hrun⟩
  · intro data hp
    exact ⟨exec_micro_of_raised (c := .ksLimit) (beq_self_eq_true sel) ha (decrypt_past_limit hk hp), fun hm =>
      exec_micro_of_raised (c := .ksLimit) (beq_self_eq_true sel) ha (encrypt_past_limit hk hm hp)⟩

/-! ### What the commands do where they run -/

/-- A position moved by `n`, as the statements write it. -/
theorem add_ofNat_eq_ofNat_toNat_add (pos : BitVec 64) (n : Nat) :
    pos + BitVec.ofNat 64 n = BitVec.ofNat 64 (pos.toNat + n) := by
  rw [BitVec.ofNat_add, BitVec.ofNat_toNat, BitVec.setWidth_eq]

/-- A bank whose payload cipher has moved by `n` and whose MAC has absorbed `ct`; `encrypt_eq_advance` and
`decrypt_eq_advance` tie it to the two runs. -/
def Bank.advance (n : Nat) (ct : List Byte) (b : Bank) : Bank :=
  { b with aeadPos := b.aeadPos + BitVec.ofNat 64 n, macData := b.macData ++ ct }

theorem encrypt_eq_advance {b : Bank} (hk : b.keyed = true) (hm : b.macFinal = false) {data : List Byte}
    (hp : b.aeadPos.toNat + data.length ≤ Config.ksLimit) :
    b.encrypt data = .done (b.cryptPayload data) (b.advance data.length (b.cryptPayload data)) :=
  encrypt_of_keyed hk hm hp

/-- A finished MAC absorbs nothing (R140). -/
theorem decrypt_eq_advance {b : Bank} (hk : b.keyed = true) {data : List Byte}
    (hp : b.aeadPos.toNat + data.length ≤ Config.ksLimit) :
    b.decrypt data = .done (b.cryptPayload data) (b.advance data.length (if b.macFinal = true then [] else data)) := by
  rw [decrypt_of_keyed hk hp]
  cases hm : b.macFinal <;> simp [Bank.advance, hm]

/-- Settles O26. -/
theorem encryptEnciphersAndAbsorbs : Obligations.EncryptEnciphersAndAbsorbs := by
  intro s sel data ha hk hm hp
  rw [← add_ofNat_eq_ofNat_toNat_add]
  exact ⟨_, congrArg _ (runBytes_of_done ha (encrypt_eq_advance hk hm hp)), rfl⟩

/-- Settles O27. -/
theorem decryptDeciphersAndAbsorbs : Obligations.DecryptDeciphersAndAbsorbs := by
  intro s sel data ha hk hp
  rw [← add_ofNat_eq_ofNat_toNat_add]
  exact congrArg _ (runBytes_of_done ha (decrypt_eq_advance hk hp))

/-- Settles O28. -/
theorem authAbsorbsData : Obligations.AuthAbsorbsData :=
  fun _ _ data ha hk hm => congrArg _ (runUnit_of_done ha (auth_of_keyed hk hm data))

/-- Settles O29: the model's tag is by definition the composition of R310. -/
theorem finalStoresTag : Obligations.FinalStoresTag :=
  fun _ _ ha hk hm => ⟨_, congrArg _ (runBytes_of_done ha (final_of_keyed hk hm)), rfl⟩

/-- VERIFY of a bank that holds a tag leaves the whole block but for its answer (R143). -/
theorem exec_verify_of_valid {s : State} {sel : BankSel} (ha : s.Accepting) (hv : (s.bank sel).tagValid = true)
    (tag : Config.Tag) :
    exec (.verify sel tag) s =
      .next (s.respond (okResponse (boolResult (decide ((s.bank sel).tag.val = tag.val))))) := by
  have hrun := runBool_of_done ha (verify_of_valid hv tag.val)
  rw [setBank_bank_self] at hrun
  exact congrArg _ hrun

/-- Settles O30: tags are equal when their bytes are. -/
theorem verifyComparesTag : Obligations.VerifyComparesTag := by
  intro s sel tag ha hv
  rw [exec_verify_of_valid ha hv]
  constructor
  · intro heq
    rw [decide_eq_true (congrArg _ heq)]
    rfl
  · intro hne
    rw [decide_eq_false fun hval => hne (Subtype.ext hval)]
    rfl

end Sys2Proof.Machine
end

section
/-! Laws of the stream operations in a row (spec/40_stream_ops.md R146, R147): micro-operations run one after another on
one bank, and what that makes of the block. -/

namespace Sys2Proof.Machine

/-! ### Micro-operations one after another on a bank -/

/-- Micro-operations that end one after another on a bank, with what each answers; `execAll_of_runs` ties it to
`execAll`. -/
inductive Bank.Runs : List Instr → Bank → List (List Byte) → Bank → Prop
  | nil (b : Bank) : Bank.Runs [] b [] b
  | cons {i : Instr} {is : List Instr} {b b' b'' : Bank} {r : List Byte} {rs : List (List Byte)}
    (head : i.bankRun b = .done r b') (tail : Bank.Runs is b' rs b'') : Bank.Runs (i :: is) b (r :: rs) b''

/-- The block with one bank replaced and a result answered for each command. -/
def State.ranOn (s : State) (sel : BankSel) (b : Bank) (results : List (List Byte)) : State :=
  { s.setBank sel b with rsp := s.rsp ++ results.map fun r => (okResponse r).encode }

theorem ranOn_nil (s : State) (sel : BankSel) : s.ranOn sel (s.bank sel) [] = s := by
  cases sel <;> simp [State.ranOn, State.setBank]

theorem ranOn_cons (s : State) (sel : BankSel) (b b' : Bank) (r : List Byte) (rs : List (List Byte)) :
    (s.ranOn sel b [r]).ranOn sel b' rs = s.ranOn sel b' (r :: rs) := by
  cases sel <;> simp [State.ranOn, State.setBank]

@[simp] theorem bank_ranOn (s : State) (sel : BankSel) (b : Bank) (rs : List (List Byte)) :
    (s.ranOn sel b rs).bank sel = b := by
  cases sel <;> rfl

theorem ranOn_accepting {s : State} (ha : s.Accepting) (sel : BankSel) (b : Bank) (rs : List (List Byte)) :
    (s.ranOn sel b rs).Accepting := by
  cases sel <;> exact ha

/-- A micro-operation that ends on its bank, in an accepting block. -/
theorem exec_micro_of_done {i : Instr} {sel : BankSel} {s : State} {r : List Byte} {b : Bank}
    (hi : i.microOn sel = true) (ha : s.Accepting) (h : i.bankRun (s.bank sel) = .done r b) :
    exec i s = .next (s.ranOn sel b [r]) := by
  rw [exec_bankRun hi, guarded_of_accepting ha, onBank_of_done h, answer_done]
  cases sel <;> rfl

/-- Commands that end one after another on one bank of an accepting block, by the number of commands. -/
theorem execAll_of_runs {is : List Instr} {sel : BankSel} {s : State} {rs : List (List Byte)} {b : Bank}
    (hi : ∀ i ∈ is, i.microOn sel = true) (ha : s.Accepting) (h : Bank.Runs is (s.bank sel) rs b) :
    execAll is s = .next (s.ranOn sel b rs) := by
  induction is generalizing s rs with
  | nil =>
    cases h
    rw [execAll_nil, ranOn_nil]
  | cons i is ih =>
    cases h with
    | @cons _ _ _ b' _ r rs head tail =>
      obtain ⟨hhead, htail⟩ := List.forall_mem_cons.mp hi
      rw [execAll_cons (exec_micro_of_done hhead ha head),
        ih htail (ranOn_accepting ha sel b' [r]) (by rwa [bank_ranOn]), ranOn_cons]

/-! ### Data in two pieces -/

/-- A position that stays within `KS_LIMIT` does not wrap. -/
theorem toNat_add_of_le_ksLimit {pos : BitVec 64} {n : Nat} (h : pos.toNat + n ≤ Config.ksLimit) :
    (pos + BitVec.ofNat 64 n).toNat = pos.toNat + n := by
  have hlimit : Config.ksLimit < 2 ^ 64 := by decide
  rw [add_ofNat_eq_ofNat_toNat_add, BitVec.toNat_ofNat, Nat.mod_eq_of_lt (by omega)]

theorem advance_advance (n m : Nat) (ct ct' : List Byte) (b : Bank) :
    (b.advance n ct).advance m ct' = b.advance (n + m) (ct ++ ct') := by
  simp [Bank.advance, BitVec.ofNat_add, BitVec.add_assoc]

section
variable {b : Bank} {x y : List Byte} (hp : b.aeadPos.toNat + (x.length + y.length) ≤ Config.ksLimit)
include hp

/-- After the first piece there is room for the second. -/
theorem advance_aeadPos_le (ct : List Byte) : (b.advance x.length ct).aeadPos.toNat + y.length ≤ Config.ksLimit := by
  rw [Bank.advance, toNat_add_of_le_ksLimit (by omega)]
  omega

/-- The payload cipher on two pieces, the second where the first leaves the bank (R301 (a), R147). -/
theorem cryptPayload_append (ct : List Byte) :
    b.cryptPayload (x ++ y) = b.cryptPayload x ++ (b.advance x.length ct).cryptPayload y := by
  have hpos : (b.advance x.length ct).aeadPos.toNat = b.aeadPos.toNat + x.length :=
    toNat_add_of_le_ksLimit (by omega)
  have hiv : (b.advance x.length ct).iv = b.iv := iv_congr rfl
  have hk2 : (b.advance x.length ct).k2 = b.k2 := rfl
  have hlen := (crypto.ksPay b.k2 b.iv b.aeadPos.toNat x.length).property
  rw [Bank.cryptPayload, Bank.cryptPayload, Bank.cryptPayload, hk2, hiv, hpos, List.length_append,
    ← crypto_lawful.pay_append, xorBytes_append _ _ hlen.symm]

/-- DECRYPT of two pieces ends as DECRYPT of the whole, and answers its result cut in two (R147). -/
theorem decrypt_runs_append (sel : BankSel) (hk : b.keyed = true) :
    ∃ rx ry b', Bank.Runs [.decrypt sel x, .decrypt sel y] b [rx, ry] b' ∧
      b.decrypt (x ++ y) = .done (rx ++ ry) b' := by
  have hwhole := decrypt_eq_advance hk (data := x ++ y) (by rwa [List.length_append])
  have hx := decrypt_eq_advance hk (data := x) (by omega)
  have hy := decrypt_eq_advance (b := b.advance x.length (if b.macFinal = true then [] else x)) hk
    (advance_aeadPos_le hp _)
  have hct : (if b.macFinal = true then [] else x ++ y) =
      (if b.macFinal = true then [] else x) ++ (if b.macFinal = true then [] else y) := by
    split <;> rfl
  refine ⟨_, _, _, .cons hx (.cons hy (.nil _)), ?_⟩
  rw [hwhole, cryptPayload_append hp, advance_advance, List.length_append, hct]
  rfl

/-- ENCRYPT of two pieces ends as ENCRYPT of the whole, and answers its result cut in two (R147). -/
theorem encrypt_runs_append (sel : BankSel) (hk : b.keyed = true) (hm : b.macFinal = false) :
    ∃ rx ry b', Bank.Runs [.encrypt sel x, .encrypt sel y] b [rx, ry] b' ∧
      b.encrypt (x ++ y) = .done (rx ++ ry) b' := by
  have hwhole := encrypt_eq_advance hk hm (data := x ++ y) (by rwa [List.length_append])
  have hx := encrypt_eq_advance hk hm (data := x) (by omega)
  have hy := encrypt_eq_advance (b := b.advance x.length (b.cryptPayload x)) hk hm (advance_aeadPos_le hp _)
  refine ⟨_, _, _, .cons hx (.cons hy (.nil _)), ?_⟩
  rw [hwhole, cryptPayload_append hp (b.cryptPayload x), advance_advance, List.length_append]

end

/-- A bank whose MAC has absorbed `ct`, as AUTH leaves it; `bankRun_auth_of_keyed` ties it to the run. -/
def Bank.absorb (ct : List Byte) (b : Bank) : Bank := { b with macData := b.macData ++ ct }

theorem absorb_absorb (x y : List Byte) (b : Bank) : (b.absorb x).absorb y = b.absorb (x ++ y) := by
  simp [Bank.absorb]

/-- AUTH's run with its answer, which carries no result (R141). -/
theorem bankRun_auth_of_keyed {b : Bank} (sel : BankSel) (hk : b.keyed = true) (hm : b.macFinal = false)
    (data : List Byte) : (Instr.auth sel data).bankRun b = .done [] (b.absorb data) := by
  rw [Instr.bankRun, auth_of_keyed hk hm, bind_done, Bank.absorb]

/-- AUTH of two pieces ends as AUTH of the whole (R147). -/
theorem auth_runs_append {b : Bank} (sel : BankSel) (hk : b.keyed = true) (hm : b.macFinal = false) (x y : List Byte) :
    ∃ b', Bank.Runs [.auth sel x, .auth sel y] b [[], []] b' ∧
      (Instr.auth sel (x ++ y)).bankRun b = .done [] b' := by
  have hx := bankRun_auth_of_keyed sel hk hm x
  have hy := bankRun_auth_of_keyed (b := b.absorb x) sel hk hm y
  refine ⟨_, .cons hx (.cons hy (.nil _)), ?_⟩
  rw [bankRun_auth_of_keyed sel hk hm, absorb_absorb]

/-- Two commands that end on a bank as a third does make the same block of it, but for what they answer. -/
theorem execAll_pair_eq_exec {i j k : Instr} {sel : BankSel} {s : State} {r1 r2 r : List Byte} {b : Bank}
    (hi : ∀ l ∈ [i, j, k], l.microOn sel = true) (ha : s.Accepting)
    (hpair : Bank.Runs [i, j] (s.bank sel) [r1, r2] b) (hwhole : k.bankRun (s.bank sel) = .done r b) :
    ∃ t u : State, execAll [i, j] s = .next t ∧ exec k s = .next u ∧ t = { u with rsp := t.rsp } ∧
      t.rsp = s.rsp ++ [(okResponse r1).encode, (okResponse r2).encode] ∧ u.rsp = s.rsp ++ [(okResponse r).encode] :=
  ⟨_, _, execAll_of_runs (fun l hl => hi l (List.mem_append_left [k] hl)) ha hpair,
    exec_micro_of_done (hi k (by simp)) ha hwhole, rfl, rfl, rfl⟩

/-- Settles O41, from the law of each of the three runs on its bank. -/
theorem chunkedDataHasSameEffect : Obligations.ChunkedDataHasSameEffect := by
  intro s sel x y ha hk
  refine ⟨fun hp => ⟨?_, fun hm => ?_⟩, fun hm => ?_⟩
  · obtain ⟨rx, ry, b, hpair, hwhole⟩ := decrypt_runs_append hp sel hk
    obtain ⟨t, u, hsame⟩ := execAll_pair_eq_exec (k := .decrypt sel (x ++ y)) (by simp [Instr.microOn]) ha hpair
      hwhole
    exact ⟨t, u, rx, ry, hsame⟩
  · obtain ⟨rx, ry, b, hpair, hwhole⟩ := encrypt_runs_append hp sel hk hm
    obtain ⟨t, u, hsame⟩ := execAll_pair_eq_exec (k := .encrypt sel (x ++ y)) (by simp [Instr.microOn]) ha hpair
      hwhole
    exact ⟨t, u, rx, ry, hsame⟩
  · obtain ⟨b, hpair, hwhole⟩ := auth_runs_append sel hk hm x y
    exact execAll_pair_eq_exec (by simp [Instr.microOn]) ha hpair hwhole

/-! ### Sender and receiver -/

/-- The payload cipher of one bank undoes that of another with the same `K2`, `seq` and position (R301 (b)). -/
theorem cryptPayload_cryptPayload {b b' : Bank} (hk2 : b.k2 = b'.k2) (hseq : b.seq = b'.seq)
    (hpos : b.aeadPos = b'.aeadPos) (p : List Byte) : b'.cryptPayload (b.cryptPayload p) = p := by
  have hlen := (crypto.ksPay b'.k2 b'.iv b'.aeadPos.toNat p.length).property
  rw [Bank.cryptPayload, length_cryptPayload, Bank.cryptPayload, hk2, iv_congr hseq, hpos,
    xorBytes_cancel _ _ hlen.ge]

/-- The tag of a bank once it has absorbed `ct` (R142, R310). -/
def Bank.tagAfter (b : Bank) (ct : List Byte) : Config.Tag := crypto.tag b.k2 b.iv (b.macData ++ ct)

theorem tagAfter_eq_tag {b : Bank} (h : b.macData = []) (ct : List Byte) :
    b.tagAfter ct = crypto.tag b.k2 b.iv ct := by
  rw [Bank.tagAfter, h, List.nil_append]

theorem tagAfter_congr {b b' : Bank} (hk2 : b.k2 = b'.k2) (hseq : b.seq = b'.seq) (hmac : b.macData = b'.macData)
    (ct : List Byte) : b.tagAfter ct = b'.tagAfter ct := by
  rw [Bank.tagAfter, Bank.tagAfter, hk2, iv_congr hseq, hmac]

section
variable {b : Bank} (sel : BankSel) (hk : b.keyed = true) (hm : b.macFinal = false) {data : List Byte}
include hk hm

theorem runs_encrypt_final (hp : b.aeadPos.toNat + data.length ≤ Config.ksLimit) :
    ∃ b', Bank.Runs [.encrypt sel data, .final sel] b
      [b.cryptPayload data, (b.tagAfter (b.cryptPayload data)).val] b' :=
  ⟨_, .cons (encrypt_eq_advance hk hm hp) (.cons (final_of_keyed (b := b.advance _ _) hk hm) (.nil _))⟩

theorem runs_decrypt_final (hp : b.aeadPos.toNat + data.length ≤ Config.ksLimit) :
    ∃ b', Bank.Runs [.decrypt sel data, .final sel] b [b.cryptPayload data, (b.tagAfter data).val] b' := by
  have hrun := decrypt_eq_advance hk hp
  rw [if_neg (by simp [hm])] at hrun
  exact ⟨_, .cons hrun (.cons (final_of_keyed (b := b.advance _ _) hk hm) (.nil _))⟩

variable (data) in
theorem runs_auth_final :
    Bank.Runs [.auth sel data, .final sel] b [[], (b.tagAfter data).val] (b.authenticated data) :=
  .cons (bankRun_auth_of_keyed sel hk hm data) (.cons (final_of_keyed (b := b.absorb data) hk hm) (.nil _))

/-- DECRYPT after FINAL still deciphers; the finished MAC absorbs nothing (R140). -/
theorem runs_auth_final_decrypt (hp : b.aeadPos.toNat + data.length ≤ Config.ksLimit) :
    ∃ b', Bank.Runs [.auth sel data, .final sel, .decrypt sel data] b
      [[], (b.tagAfter data).val, b.cryptPayload data] b' :=
  ⟨_, .cons (bankRun_auth_of_keyed sel hk hm data) (.cons (final_of_keyed (b := b.absorb data) hk hm)
    (.cons (decrypt_of_keyed (b := b.authenticated data) hk hp) (.nil _)))⟩

end

/-- Settles O42: the receiver's runs on the sender's ciphertext, with equal tags and a cipher that undoes itself. -/
theorem tagsAgreeAndDecryptInverts : Obligations.TagsAgreeAndDecryptInverts := by
  intro s r x y p ha ha' hk hk' hk2 hseq hpos hmac hm hpos' hmac' hm' hp
  have hplain := cryptPayload_cryptPayload hk2 hseq (hpos.trans hpos'.symm) p
  have htag := tagAfter_congr hk2 hseq (hmac.trans hmac'.symm) ((s.bank x).cryptPayload p)
  have hroom : (s.bank x).aeadPos.toNat + p.length ≤ Config.ksLimit := by
    rw [hpos]
    exact (Nat.zero_add _).trans_le hp
  have hroom' : (r.bank y).aeadPos.toNat + ((s.bank x).cryptPayload p).length ≤ Config.ksLimit := by
    rw [length_cryptPayload, hpos', ← hpos]
    exact hroom
  obtain ⟨b1, h1⟩ := runs_encrypt_final x hk hm hroom
  have h2 := runs_auth_final y hk' hm' ((s.bank x).cryptPayload p)
  obtain ⟨b3, h3⟩ := runs_decrypt_final y hk' hm' hroom'
  obtain ⟨b4, h4⟩ := runs_auth_final_decrypt y hk' hm' hroom'
  rw [← htag] at h2
  rw [hplain, ← htag] at h3 h4
  exact ⟨_, _, _, _, _, _, congrArg _ (tagAfter_eq_tag hmac _),
    execAll_of_runs (by simp [Instr.microOn]) ha h1, rfl, execAll_of_runs (by simp [Instr.microOn]) ha' h2, rfl,
    execAll_of_runs (by simp [Instr.microOn]) ha' h3, rfl, execAll_of_runs (by simp [Instr.microOn]) ha' h4, rfl⟩

end Sys2Proof.Machine
end

section
/-! The re-key commands (spec/41_rekey.md R180 to R185): SHOULDREKEY's three ends, the range refusals of SHOULDREKEY and
PACK, and the keys REKEY and REKEYX leave. -/

namespace Sys2Proof.Machine

/-! ### The trigger's ends on a keyed bank -/

theorem rekeyDue_eq_false_iff {now last : BitVec 64} {p : Nat} :
    rekeyDue now last p = false ↔ now.toNat < last.toNat + 10 ∧ p < 2 ^ 30 := by
  rw [← Bool.not_eq_true, rekeyDue_iff, not_or, Nat.not_le, Nat.not_le]

section
variable {b : Bank} (hk : b.keyed = true) {now : BitVec 64} {n : Nat}
include hk

variable (now) in
theorem shouldRekey_of_range (hr : 2 ^ 64 ≤ b.processed.toNat + n) : b.shouldRekey now n = .raised .range b := by
  rw [Bank.shouldRekey, needKeyed_of_keyed hk, bind_done, if_pos hr]

/-- The trigger fires: both measures restart (R181). -/
theorem shouldRekey_of_due (hr : b.processed.toNat + n < 2 ^ 64)
    (hdue : rekeyDue now b.lastRekeyTime (b.processed.toNat + n) = true) :
    b.shouldRekey now n = .done true { b with processed := 0, lastRekeyTime := now } := by
  rw [Bank.shouldRekey, needKeyed_of_keyed hk, bind_done, if_neg hr.not_ge, if_pos hdue]

/-- The trigger does not fire: the bytes are counted (R181). -/
theorem shouldRekey_of_not_due (hr : b.processed.toNat + n < 2 ^ 64)
    (hdue : rekeyDue now b.lastRekeyTime (b.processed.toNat + n) = false) :
    b.shouldRekey now n = .done false { b with processed := BitVec.ofNat 64 (b.processed.toNat + n) } := by
  rw [Bank.shouldRekey, needKeyed_of_keyed hk, bind_done, if_neg hr.not_ge, if_neg (ne_true_of_eq_false hdue),
    add_ofNat_eq_ofNat_toNat_add]

variable (now) in
/-- PACK's size check comes before its trigger counts (R202). -/
theorem packTrigger_of_range {cmd body : List Byte} (hp : 2 ^ 32 ≤ payloadSize cmd body) :
    b.packTrigger now cmd body = .raised .range b := by
  rw [Bank.packTrigger, needKeyed_of_keyed hk, bind_done, if_pos hp]

end

/-! ### The commands -/

/-- Settles O21: both runs raise on the bank before they write it. -/
theorem rangeFaults : Obligations.RangeFaults := by
  constructor
  · intro s sel now n ha hk hr
    refine exec_micro_of_raised (c := .range) (beq_self_eq_true sel) ha ?_
    rw [Instr.bankRun, shouldRekey_of_range hk now hr, bind_raised]
  · intro s now cmd body ha hk hp
    rw [length_varstring] at hp
    exact exec_pack_of_trigger_raised (c := .range) ha (packTrigger_of_range hk now hp)

/-- Settles O31. -/
theorem shouldrekeyCountsAndAnswers : Obligations.ShouldrekeyCountsAndAnswers := by
  intro s sel now n ha hk hr
  constructor
  · intro hdue
    exact congrArg _ (runBool_of_done ha (shouldRekey_of_due hk hr (rekeyDue_iff.mpr hdue)))
  · intro hnot
    exact congrArg _ (runBool_of_done ha (shouldRekey_of_not_due hk hr (rekeyDue_eq_false_iff.mpr hnot)))

/-- Settles O32: the next key is by definition the double hash. -/
theorem rekeyHashesBothKeys : Obligations.RekeyHashesBothKeys :=
  fun _ _ ha hk => congrArg _ (runUnit_of_done ha (rekey_of_keyed hk))

/-- Settles O33. -/
theorem rekeyxInstallsKeys : Obligations.RekeyxInstallsKeys :=
  fun _ _ k1 k2 ha hk => congrArg _ (runUnit_of_done ha (rekeyWith_of_keyed hk k1 k2))

/-- Settles O43, from REKEY's whole next state: what it writes into a key depends on `SID` and that key alone. -/
theorem rekeyKeepsEqualBanksEqual : Obligations.RekeyKeepsEqualBanksEqual := by
  intro s r x y ha ha' hk hk' hsid hk1 hk2
  refine ⟨_, _, rekeyHashesBothKeys s x ha hk, rekeyHashesBothKeys r y ha' hk', ?_, ?_, ?_, ?_⟩
  · rw [respond_fault, setBank_fault, ha.1]
  · rw [respond_fault, setBank_fault, ha'.1]
  · rw [bank_respond, bank_respond, bank_setBank_self, bank_setBank_self, hsid, hk1]
  · rw [bank_respond, bank_respond, bank_setBank_self, bank_setBank_self, hsid, hk2]

end Sys2Proof.Machine
end

section
/-! PACK (spec/42_pack.md R200 to R209): its steps on a frame-clean bank, its frame and its final state in closed
form. -/

namespace Sys2Proof.Machine

/-! ### PACK's steps on a frame-clean bank -/

theorem length_ksSize (k : Config.Key) (iv : Config.Iv) (pos n : Nat) : (crypto.ksSize k iv pos n).val.length = n :=
  (crypto.ksSize k iv pos n).property

theorem length_tag (k : Config.Key) (iv : Config.Iv) (ct : List Byte) : (crypto.tag k iv ct).val.length = 16 :=
  (crypto.tag k iv ct).property

theorem le32_ofNat_of_lt {n : Nat} (h : n < 2 ^ 32) : le32 (BitVec.ofNat 32 n) = leBytes 4 n := by
  rw [le32, BitVec.toNat_ofNat, Nat.mod_eq_of_lt h]

theorem frameLength_eq (cmd body : List Byte) : frameLength cmd body = 4 + payloadSize cmd body + 16 := rfl

/-- A bank whose trigger has answered `due` on `n` bytes; `packTrigger_of_decide` ties it to PACK's trigger. -/
def Bank.counted (now : BitVec 64) (n : Nat) (due : Bool) (b : Bank) : Bank :=
  { b with
    processed := if due then 0 else BitVec.ofNat 64 (b.processed.toNat + n)
    lastRekeyTime := if due then now else b.lastRekeyTime }

/-- A bank with the keys of the next generation if the trigger fired; `rekeyStep_of_frameClean` ties it to PACK's
re-key. -/
def Bank.rekeyedIf (due : Bool) (b : Bank) : Bank :=
  if due then { b with k1 := nextKey b.sid b.k1, k2 := nextKey b.sid b.k2 } else b

/-- The frame of R209 under a bank's keys and IV; `packFrame_of_frameClean` ties it to PACK. -/
def Bank.frame (cmd body : List Byte) (b : Bank) : List Byte :=
  xorBytes (le32 (BitVec.ofNat 32 (payloadSize cmd body))) (crypto.ksSize b.k1 b.iv 0 4).val ++
    (b.cryptPayload (innerMessage cmd body) ++ (crypto.tag b.k2 b.iv (b.cryptPayload (innerMessage cmd body))).val)

/-- The trigger's condition as the statements decide it (R180). -/
theorem rekeyDue_eq_decide (now last : BitVec 64) (p : Nat) :
    rekeyDue now last p = decide (last.toNat + 10 ≤ now.toNat ∨ 1073741824 ≤ p) := by
  rw [Bool.eq_iff_iff, rekeyDue_iff, decide_eq_true_iff]
  exact Iff.rfl

/-- PACK's trigger in range, for a value of `due` as the statements give it (R202, R204). -/
theorem packTrigger_of_decide {b : Bank} {now : BitVec 64} {cmd body : List Byte} {due : Bool} (hk : b.keyed = true)
    (hps : payloadSize cmd body < 2 ^ 32) (hr : b.processed.toNat + frameLength cmd body < 2 ^ 64)
    (hdue : due = decide (b.lastRekeyTime.toNat + 10 ≤ now.toNat ∨
      1073741824 ≤ b.processed.toNat + frameLength cmd body)) :
    b.packTrigger now cmd body = .done due (b.counted now (frameLength cmd body) due) := by
  rw [Bank.packTrigger, needKeyed_of_keyed hk, bind_done, if_neg hps.not_ge]
  have hfires : rekeyDue now b.lastRekeyTime (b.processed.toNat + frameLength cmd body) = due :=
    (rekeyDue_eq_decide ..).trans hdue.symm
  cases due with
  | true => exact shouldRekey_of_due hk hr hfires
  | false => exact shouldRekey_of_not_due hk hr hfires

theorem rekeyedIf_frameClean {b : Bank} (hc : b.FrameClean) (due : Bool) : (b.rekeyedIf due).FrameClean := by
  cases due <;> exact hc

theorem rekeyedIf_keyed (due : Bool) (b : Bank) : (b.rekeyedIf due).keyed = b.keyed := by
  cases due <;> rfl

/-- On a frame-clean bank the re-key changes the keys alone: it starts a frame (R183), where the bank is already. -/
theorem rekeyStep_of_frameClean {b : Bank} (hk : b.keyed = true) (hc : b.FrameClean) (due : Bool) :
    (if due then b.rekey else .done () b) = .done () (b.rekeyedIf due) := by
  obtain ⟨hsize, haead, hmac, hfinal⟩ := hc
  cases due with
  | true => simp [rekey_of_keyed hk, Bank.rekeyedIf, hsize, haead, hmac, hfinal]
  | false => rfl

/-- A bank whose size cipher has moved past a frame's size; `cryptSize_of_frameClean` ties it to ENCSIZE and DECSIZE. -/
def Bank.pastSize (b : Bank) : Bank := { b with sizePos := 4 }

theorem cryptSize_of_frameClean {b : Bank} (hk : b.keyed = true) (hc : b.FrameClean) (buf : List Byte) :
    b.cryptSize buf = .done (xorBytes buf (crypto.ksSize b.k1 b.iv 0 4).val) b.pastSize := by
  obtain ⟨hsize, _⟩ := hc
  have hrun := cryptSize_of_keyed hk (by rw [hsize]; decide) buf
  rw [hsize] at hrun
  exact hrun

/-- FINAL and SEQUENCE after ENCSIZE and ENCRYPT end the frame with ciphertext `ct` (R142, R136). -/
theorem final_sequence_of_frameClean {b : Bank} (hk : b.keyed = true) (hc : b.FrameClean) (n : Nat) (ct : List Byte)
    (layout : List Byte → List Byte) :
    ((b.pastSize.advance n ct).final.bind fun tag b => b.sequence.bind fun _ b => .done (layout tag) b) =
      .done (layout (crypto.tag b.k2 b.iv ct).val) (b.afterFrame ct) := by
  obtain ⟨_, _, hmac, hm⟩ := hc
  have htag : (b.pastSize.advance n ct).currentTag = crypto.tag b.k2 b.iv ct := tagAfter_eq_tag hmac ct
  have hseq : ({ b.pastSize.advance n ct with tag := crypto.tag b.k2 b.iv ct, tagValid := true, macFinal := true } :
      Bank).sequence = .done () (b.afterFrame ct) := sequence_of_keyed hk
  rw [final_of_keyed (b := b.pastSize.advance n ct) hk hm, bind_done, htag, hseq, bind_done]

/-- PACK after its trigger, on a frame-clean bank: the frame under the keys after the re-key, and the bank after it
(R204 to R209). -/
theorem packFrame_of_frameClean {b : Bank} {cmd body : List Byte} (hk : b.keyed = true) (hc : b.FrameClean)
    (hps : payloadSize cmd body < 2 ^ 32) (due : Bool) :
    b.packFrame due cmd body = .done ((b.rekeyedIf due).frame cmd body)
      ((b.rekeyedIf due).afterFrame ((b.rekeyedIf due).cryptPayload (innerMessage cmd body))) := by
  rw [packFrame_eq, rekeyStep_of_frameClean hk hc, bind_done]
  have hk' := (rekeyedIf_keyed due b).trans hk
  have hc' := rekeyedIf_frameClean hc due
  generalize b.rekeyedIf due = c at hk' hc'
  have ⟨_, haead, _, hfinal⟩ := hc'
  have hroom : c.aeadPos.toNat + (innerMessage cmd body).length ≤ Config.ksLimit := by
    have hpos : c.aeadPos.toNat = 0 := by rw [haead]; rfl
    rw [hpos, length_innerMessage, ksLimit_eq]
    omega
  have henc : c.pastSize.encrypt (innerMessage cmd body) = .done (c.cryptPayload (innerMessage cmd body))
      (c.pastSize.advance (innerMessage cmd body).length (c.cryptPayload (innerMessage cmd body))) :=
    encrypt_eq_advance (b := c.pastSize) hk' hfinal hroom
  rw [cryptSize_of_frameClean hk' hc', bind_done, henc, bind_done]
  exact final_sequence_of_frameClean hk' hc' _ _ fun tag => _ ++ (_ ++ tag)

/-- The bank a frame is made with: its bytes counted, then the re-key if due; `exec_pack_of_frameClean` ties it to
PACK. -/
def Bank.prepared (now : BitVec 64) (n : Nat) (due : Bool) (b : Bank) : Bank := (b.counted now n due).rekeyedIf due

/-- PACK of a frame-clean bank in range (R200 to R209). -/
theorem exec_pack_of_frameClean {s : State} {now : BitVec 64} {cmd body : List Byte} {due : Bool} {b : Bank}
    (ha : s.Accepting) (hk : s.outBank.keyed = true) (hc : s.outBank.FrameClean) (hps : payloadSize cmd body < 2 ^ 32)
    (hp : s.outBank.processed.toNat < 1073741824)
    (hdue : due = decide (s.outBank.lastRekeyTime.toNat + 10 ≤ now.toNat ∨
      1073741824 ≤ s.outBank.processed.toNat + frameLength cmd body))
    (hb : b = s.outBank.prepared now (frameLength cmd body) due) :
    exec (.pack now cmd body) s = .next
      ((s.setBank .output (b.afterFrame (b.cryptPayload (innerMessage cmd body)))).respond
        ⟨statusOk, b.frame cmd body, packEvents due⟩) := by
  have htrigger := packTrigger_of_decide hk hps (by rw [frameLength_eq]; omega) hdue
  have hframe := packFrame_of_frameClean (b := s.outBank.counted now (frameLength cmd body) due) (cmd := cmd)
    (body := body) hk hc hps due
  rcases exec_pack_of_accepting ha now cmd body with ⟨_, _, h, _⟩ | ⟨_, _, h, hexec⟩ <;> rw [htrigger] at h <;> cases h
  rw [hexec, onBank_of_done (sel := .output) hframe, answer_done, setBank_setBank, hb, Bank.prepared]

theorem prepared_keys (now : BitVec 64) (n : Nat) (due : Bool) (b : Bank) :
    (b.prepared now n due).k1 = (if due then crypto.sha256d (b.sid.val ++ b.k1.val) else b.k1) ∧
    (b.prepared now n due).k2 = (if due then crypto.sha256d (b.sid.val ++ b.k2.val) else b.k2) := by
  cases due <;> exact ⟨rfl, rfl⟩

theorem prepared_seq (now : BitVec 64) (n : Nat) (due : Bool) (b : Bank) : (b.prepared now n due).seq = b.seq := by
  cases due <;> rfl

theorem prepared_frameClean {b : Bank} (hc : b.FrameClean) (now : BitVec 64) (n : Nat) (due : Bool) :
    (b.prepared now n due).FrameClean := rekeyedIf_frameClean (b := b.counted now n due) hc due

/-- An inner message as the statements lay it out (R107). -/
theorem innerMessage_eq {cmd body : List Byte} (hbody : body.length < 2 ^ 32) :
    innerMessage cmd body = csEncode cmd.length ++ cmd ++ leBytes 4 body.length ++ body := by
  simp [innerMessage, varstring, le32_ofNat_of_lt hbody]

/-- At the start of a frame the payload's keystream is at its beginning (R206, R232). -/
theorem cryptPayload_of_aeadPos_zero {b : Bank} (h : b.aeadPos = 0) (p : List Byte) :
    b.cryptPayload p = b.decipheredPayload p := by
  rw [Bank.cryptPayload, h]
  rfl

theorem afterFrame_prepared (now : BitVec 64) (n : Nat) (due : Bool) (b : Bank) (ct : List Byte) :
    (b.prepared now n due).afterFrame ct =
      { b with
        k1 := (b.prepared now n due).k1, k2 := (b.prepared now n due).k2, seq := b.seq + 1, sizePos := 0, aeadPos := 0
        macData := [], macFinal := false, tag := crypto.tag (b.prepared now n due).k2 b.iv ct, tagValid := true
        processed := if due then 0 else BitVec.ofNat 64 (b.processed.toNat + n)
        lastRekeyTime := if due then now else b.lastRekeyTime } := by
  cases due <;> rfl

/-- Settles O45. -/
theorem packFrameInClosedForm : Obligations.PackFrameInClosedForm := by
  intro s now cmd body ps due k1 k2 plain ct ha hk hc hps hlt hp hdue hk1 hk2 hplain hct
  rw [length_csEncode] at hps
  obtain rfl : payloadSize cmd body = ps := hps.symm
  rw [← innerMessage_eq (by omega)] at hplain
  obtain ⟨hkey1, hkey2⟩ := prepared_keys now (frameLength cmd body) due s.outBank
  have hiv := iv_congr (prepared_seq now (frameLength cmd body) due s.outBank)
  rw [← hkey1] at hk1
  rw [← hkey2] at hk2
  obtain ⟨_, haead, _⟩ := prepared_frameClean hc now (frameLength cmd body) due
  have hcipher := cryptPayload_of_aeadPos_zero haead (innerMessage cmd body)
  rw [Bank.decipheredPayload, hiv, length_innerMessage, ← hplain, ← hk2, ← hct] at hcipher
  rw [exec_pack_of_frameClean ha hk hc hlt hp hdue rfl, ← hplain, hcipher, afterFrame_prepared, Bank.frame, ← hplain,
    hcipher, hiv, ← hk1, ← hk2, le32_ofNat_of_lt hlt, List.append_assoc]
  rfl

end Sys2Proof.Machine
end

section
/-! PACK against its expansion into micro-operations (spec/42_pack.md R211). -/

namespace Sys2Proof.Machine

/-! ### Commands one after another, a fault in the middle included -/

/-- Micro-operations one after another on a bank, a raise included; `execAll_of_runAll_raised` and `runs_of_runAll` with
`execAll_of_runs` tie it to `execAll`. -/
def Bank.runAll : List Instr → Bank → Run Bank (List (List Byte))
  | [], b => .done [] b
  | i :: is, b => (i.bankRun b).bind fun r b => (Bank.runAll is b).bind fun rs b => .done (r :: rs) b

theorem Run.bind_assoc {σ α β γ : Type} (r : Run σ α) (f : α → σ → Run σ β) (g : β → σ → Run σ γ) :
    (r.bind f).bind g = r.bind fun a s => (f a s).bind g := by
  cases r <;> rfl

theorem runs_of_runAll {is : List Instr} {b b' : Bank} {rs : List (List Byte)} (h : b.runAll is = .done rs b') :
    Bank.Runs is b rs b' := by
  induction is generalizing b rs with
  | nil =>
    cases h
    exact .nil _
  | cons i is ih =>
    obtain ⟨r, c, hhead, htail⟩ := bind_eq_done.mp h
    obtain ⟨rs, d, htail, hend⟩ := bind_eq_done.mp htail
    cases hend
    exact .cons hhead (ih htail)

/-- A faulted block answers guarded commands and does nothing else (R347). -/
theorem execAll_of_faulted {is : List Instr} {s : State} (hi : ∀ i ∈ is, i.unguarded = false) (hf : s.fault ≠ 0) :
    ∃ t, execAll is s = .next t ∧ t = { s with rsp := t.rsp } := by
  induction is generalizing s with
  | nil => exact ⟨s, rfl, rfl⟩
  | cons i is ih =>
    obtain ⟨hhead, htail⟩ := List.forall_mem_cons.mp hi
    obtain ⟨f, hexec⟩ := exec_guarded hhead
    have hrefuse := hexec s
    rw [guarded_of_faulted hf] at hrefuse
    obtain ⟨t, hrest, hsame⟩ := ih (s := s.refuse) htail hf
    exact ⟨t, (execAll_cons hrefuse).trans hrest, hsame⟩

/-- Commands of which one raises leave the bank as it then stood and the fault, and those after it are refused (R345).
The state is that of a raise with any events, since only the response carries them. -/
theorem execAll_of_runAll_raised {is : List Instr} {sel : BankSel} {s : State} {c : FaultCode} {b : Bank}
    (hi : ∀ i ∈ is, i.microOn sel = true) (ha : s.Accepting) (h : (s.bank sel).runAll is = .raised c b)
    (events : List Event) :
    ∃ u, execAll is s = .next u ∧ u = { (s.setBank sel b).raise c events with rsp := u.rsp } := by
  induction is generalizing s with
  | nil => cases h
  | cons i is ih =>
    obtain ⟨hhead, htail⟩ := List.forall_mem_cons.mp hi
    rcases bind_eq_raised.mp h with hraise | ⟨r, d, hrun, hrest⟩
    · have hexec : exec i s = .next ((s.setBank sel b).raise c []) := by
        rw [exec_bankRun hhead, guarded_of_accepting ha, onBank_of_raised hraise, answer_raised]
      obtain ⟨u, hu, hsame⟩ := execAll_of_faulted (fun j hj => unguarded_of_microOn (htail j hj))
        (raise_fault_ne_zero (s.setBank sel b) c [])
      exact ⟨u, (execAll_cons hexec).trans hu, hsame⟩
    · have hrest : Bank.runAll is d = .raised c b := by
        rcases bind_eq_raised.mp hrest with h | ⟨_, _, _, h⟩
        · exact h
        · cases h
      obtain ⟨u, hu, hsame⟩ := ih (s := s.ranOn sel d [r]) htail (ranOn_accepting ha sel d [r]) (by rwa [bank_ranOn])
      refine ⟨u, (execAll_cons (exec_micro_of_done hhead ha hrun)).trans hu, hsame.trans ?_⟩
      cases sel <;> rfl

/-! ### PACK's steps as its expansion's runs -/

/-- What the commands after the trigger answer: the re-key if due, the three data results, the sequence step. -/
def packResults (due : Bool) (size ct tag : List Byte) : List (List Byte) :=
  (if due then [[]] else []) ++ [size, ct, tag, []]

/-- The commands after the trigger are PACK's steps after its trigger, but for the layout of what they answer. -/
theorem runAll_packRest (due : Bool) (cmd body : List Byte) (b : Bank) :
    b.runAll (packRest due cmd body) =
      (if due then b.rekey else .done () b).bind fun _ b =>
      (b.cryptSize (le32 (BitVec.ofNat 32 (payloadSize cmd body)))).bind fun size b =>
      (b.encrypt (innerMessage cmd body)).bind fun ct b =>
      b.final.bind fun tag b =>
      b.sequence.bind fun _ b =>
      .done (packResults due size ct tag) b := by
  cases due <;> simp [packRest, expansionFrame, packResults, Bank.runAll, Instr.bankRun, Run.bind_assoc]

theorem flatten_packResults (due : Bool) (size ct tag : List Byte) :
    (packResults due size ct tag).flatten = size ++ (ct ++ tag) := by
  cases due <;> simp [packResults]

/-- PACK's frame is the results of the commands after the trigger, one after the other (R211). -/
theorem packFrame_eq_runAll (due : Bool) (cmd body : List Byte) (b : Bank) :
    b.packFrame due cmd body = (b.runAll (packRest due cmd body)).bind fun rs b => .done rs.flatten b := by
  simp only [packFrame_eq, runAll_packRest, Run.bind_assoc, bind_done, flatten_packResults]

theorem packResults_of_runAll {due : Bool} {cmd body : List Byte} {b b' : Bank} {rs : List (List Byte)}
    (h : b.runAll (packRest due cmd body) = .done rs b') : ∃ size ct tag, rs = packResults due size ct tag := by
  rw [runAll_packRest] at h
  obtain ⟨_, _, _, h⟩ := bind_eq_done.mp h
  obtain ⟨size, _, _, h⟩ := bind_eq_done.mp h
  obtain ⟨ct, _, _, h⟩ := bind_eq_done.mp h
  obtain ⟨tag, _, _, h⟩ := bind_eq_done.mp h
  obtain ⟨_, _, _, h⟩ := bind_eq_done.mp h
  cases h
  exact ⟨size, ct, tag, rfl⟩

/-- SHOULDREKEY on the whole frame is PACK's trigger (R204, R211). -/
theorem bankRun_expansionTrigger {b : Bank} (hk : b.keyed = true) (now : BitVec 64) {cmd body : List Byte}
    (hps : payloadSize cmd body < 2 ^ 32) :
    (expansionTrigger now cmd body).bankRun b =
      (b.packTrigger now cmd body).bind fun due b => .done (boolResult due) b := by
  have hlen : (BitVec.ofNat 64 (frameLength cmd body)).toNat = frameLength cmd body := by
    rw [BitVec.toNat_ofNat, frameLength_eq]
    omega
  rw [expansionTrigger, Instr.bankRun, hlen, Bank.packTrigger, needKeyed_of_keyed hk, bind_done, if_neg hps.not_ge]

/-- What the trigger answers where it ends (R180, R204). -/
theorem due_of_packTrigger {b b' : Bank} {now : BitVec 64} {cmd body : List Byte} {due : Bool}
    (h : b.packTrigger now cmd body = .done due b') :
    due = decide (b.lastRekeyTime.toNat + 10 ≤ now.toNat ∨
      1073741824 ≤ b.processed.toNat + frameLength cmd body) := by
  rcases packTrigger_cases now cmd body b with ⟨_, e⟩ | ⟨_, _, e⟩ | ⟨_, _, e⟩ <;> rw [e] at h
  · cases h
  · cases h
  rcases shouldRekey_cases b now (frameLength cmd body) with ⟨_, e⟩ | ⟨_, _, e⟩ | ⟨_, _, hd, e⟩ | ⟨_, _, hd, e⟩ <;>
    rw [e] at h <;> cases h <;> exact hd.symm.trans (rekeyDue_eq_decide ..)

theorem expansion_microOn (now : BitVec 64) (due : Bool) (cmd body : List Byte) :
    ∀ i ∈ expansionTrigger now cmd body :: packRest due cmd body, i.microOn .output = true := by
  cases due <;> simp [expansionTrigger, packRest, expansionFrame, Instr.microOn]

/-- Settles O46: PACK and its expansion are one run on `out`, which raises in the trigger, raises in a later step, or
ends. -/
theorem packEqualsItsExpansion : Obligations.PackEqualsItsExpansion := by
  intro s now cmd body due ha hk hps hdue
  have hmicro := expansion_microOn now due cmd body
  have htrigger := bankRun_expansionTrigger hk now hps
  rcases exec_pack_of_accepting ha now cmd body with ⟨c, b, htr, hexec⟩ | ⟨due', b, htr, hexec⟩
  · have hrun : s.outBank.runAll (expansionTrigger now cmd body :: packRest due cmd body) = .raised c b := by
      rw [Bank.runAll, htrigger, htr, bind_raised, bind_raised]
    obtain ⟨u, hu, hsame⟩ := execAll_of_runAll_raised hmicro ha hrun []
    exact ⟨_, u, hexec, hu, hsame, fun h => absurd h (raise_fault_ne_zero _ _ _)⟩
  obtain rfl : due = due' := hdue.trans (due_of_packTrigger htr).symm
  have hframe := packFrame_eq_runAll due cmd body b
  cases hrest : b.runAll (packRest due cmd body) with
  | raised c b' =>
    rw [hrest, bind_raised] at hframe
    rw [onBank_of_raised (sel := .output) hframe, answer_raised, setBank_setBank] at hexec
    have hrun : s.outBank.runAll (expansionTrigger now cmd body :: packRest due cmd body) = .raised c b' := by
      rw [Bank.runAll, htrigger, htr, bind_done, bind_done, hrest, bind_raised]
    obtain ⟨u, hu, hsame⟩ := execAll_of_runAll_raised hmicro ha hrun (packEvents due)
    exact ⟨_, u, hexec, hu, hsame, fun h => absurd h (raise_fault_ne_zero _ _ _)⟩
  | done rs b' =>
    obtain ⟨size, ct, tag, rfl⟩ := packResults_of_runAll hrest
    rw [hrest, bind_done, flatten_packResults] at hframe
    rw [onBank_of_done (sel := .output) hframe, answer_done, setBank_setBank] at hexec
    have hhead : (expansionTrigger now cmd body).bankRun s.outBank = .done (boolResult due) b := by
      rw [htrigger, htr, bind_done]
    have hu := execAll_of_runs (s := s) hmicro ha (.cons hhead (runs_of_runAll hrest))
    refine ⟨_, _, hexec, hu, rfl, fun _ => ⟨size, ct, tag, ?_, ?_⟩⟩
    · rw [List.append_assoc]
      rfl
    · cases due <;> rfl

end Sys2Proof.Machine
end

section
/-! A good frame at the parser, and a frame that PACK made (spec/43_feed.md R225 to R235, R240). -/

namespace Sys2Proof.Machine

/-! ### The two turns of a good frame -/

section
variable {s : State} {chunk rest : List Byte} {n : Nat} (hp : s.pending = chunk ++ rest) (hn : n = chunk.length)
include hp hn

theorem rxqChunk_of_append : s.rxqChunk n = chunk := by
  rw [State.rxqChunk, hp, List.take_left' hn.symm]

theorem rxqDrop_of_append : s.rxqDrop n = { s with pending := rest } := by
  rw [State.rxqDrop, hp, List.drop_left' hn.symm]

end

/-- A parser between frames, with keys and not halted (R223, R230). -/
structure State.BetweenFrames (s : State) : Prop where
  keyed : s.inBank.keyed = true
  clean : s.inBank.FrameClean
  phaseA : s.hasSize = false
  waiting : s.waiting = 4
  running : s.halted = false

/-- The three parts of a frame that a bank takes for the messages `ms`: the size is within bounds, the tag is good and the
payload parses (R227, R230, R236). -/
structure Bank.Takes (b : Bank) (size ct tag : List Byte) (ms : List Message) : Prop where
  length_size : size.length = 4
  size_eq : b.decipheredSize size = ct.length
  least : 6 ≤ ct.length
  most : ct.length ≤ 12000000
  tag_eq : (crypto.tag b.k2 b.iv ct).val = tag
  parses : parseInner Config.strictCs (b.decipheredPayload ct) = .ok ms

theorem Bank.Takes.length_tag {b : Bank} {size ct tag : List Byte} {ms : List Message} (h : b.Takes size ct tag ms) :
    tag.length = 16 := by
  rw [← h.tag_eq, Machine.length_tag]

/-- The block between the two phases of a frame with `n` payload bytes; `parserTurn_of_goodSize` ties it to the
parser. -/
def State.awaiting (n : Nat) (rest : List Byte) (s : State) : State :=
  { s with inBank := s.inBank.pastSize, pending := rest, hasSize := true, waiting := BitVec.ofNat 32 (n + 16) }

/-- The block after a frame with payload ciphertext `ct`, `rest` left in the queue; `parserTurn_of_goodPayload` ties it
to the parser. -/
def State.delivered (ct rest : List Byte) (s : State) : State :=
  { s with inBank := s.inBank.afterFrame ct, pending := rest }

theorem awaiting_waiting {n : Nat} (hn : n ≤ 12000000) (rest : List Byte) (s : State) :
    (s.awaiting n rest).waiting.toNat = n + 16 := by
  rw [State.awaiting, BitVec.toNat_ofNat]
  omega

section
variable {s : State} {size ct tag : List Byte} {ms : List Message} (hs : s.BetweenFrames)
  (hf : s.inBank.Takes size ct tag ms)
include hs hf

/-- Phase A takes the size and waits for the payload and the tag (R226, R227). -/
theorem parserTurn_of_goodSize {rest : List Byte} (hp : s.pending = size ++ rest) :
    parserTurn s = .done [] (s.awaiting ct.length rest) := by
  obtain ⟨hpos, _⟩ := hs.clean
  have hwait : s.waiting.toNat = size.length := by rw [hs.waiting, hf.length_size]; rfl
  have hmin := hf.least
  have hmax := hf.most
  rw [parserTurn_phaseA hs.phaseA, rxqChunk_of_append hp hwait, rxqDrop_of_append hp hwait]
  rcases phaseA_cases size { s with pending := rest } with
    ⟨hk, _⟩ | ⟨_, hlimit, _⟩ | ⟨_, _, n, hn, hend⟩
  · rw [hs.keyed] at hk; cases hk
  · rw [hpos] at hlimit
    exact absurd hlimit (by decide)
  rw [hpos] at hn
  obtain rfl : n = ct.length := hn.trans hf.size_eq
  rcases hend with ⟨hbad, _⟩ | ⟨_, _, e⟩
  · omega
  · rw [e, hpos]
    rfl

/-- Phase B takes the payload and the tag and is between frames again (R230 to R235). -/
theorem parserTurn_of_goodPayload (rest : List Byte) :
    parserTurn (s.awaiting ct.length (ct ++ tag ++ rest)) = .done (ms.map .packet) (s.delivered ct rest) := by
  obtain ⟨_, haead, hmac, hfinal⟩ := hs.clean
  have hwait : (s.awaiting ct.length (ct ++ tag ++ rest)).waiting.toNat = (ct ++ tag).length := by
    rw [awaiting_waiting hf.most, List.length_append, hf.length_tag]
  have hsplit : (ct ++ tag).length - 16 = ct.length := by rw [List.length_append, hf.length_tag]; omega
  have hpos : s.inBank.pastSize.aeadPos.toNat = 0 := by rw [Bank.pastSize, haead]; rfl
  have hmac' : s.inBank.pastSize.macData = [] := hmac
  have hparse : parseInner Config.strictCs (s.inBank.pastSize.cryptPayload ct) = .ok ms := by
    rw [cryptPayload_of_aeadPos_zero (b := s.inBank.pastSize) haead]
    exact hf.parses
  have hmax := hf.most
  rw [parserTurn_phaseB rfl, rxqChunk_of_append rfl hwait, rxqDrop_of_append rfl hwait]
  have hcases := phaseB_cases (ct ++ tag) { s.awaiting ct.length (ct ++ tag ++ rest) with pending := rest }
  simp only [State.awaiting, hsplit, List.take_left, List.drop_left, hmac', List.nil_append, hpos] at hcases
  rcases hcases with ⟨hk, _⟩ | ⟨_, hm, _⟩ | ⟨_, _, _, _, rfl, rfl,
    ⟨hbad, _⟩ | ⟨_, hlimit, _⟩ | ⟨_, _, hend⟩⟩
  · rw [Bank.pastSize, hs.keyed] at hk; cases hk
  · rw [Bank.pastSize, hfinal] at hm; cases hm
  · exact absurd hf.tag_eq hbad
  · rw [ksLimit_eq] at hlimit
    omega
  rcases hend with ⟨_, hparse', _⟩ | ⟨_, hparse', e⟩ <;> rw [hparse] at hparse' <;> cases hparse'
  rw [State.delivered, hs.phaseA, hs.waiting]
  exact e

/-- The loop on a good frame at the head of the queue: two turns. -/
theorem runLoop_of_goodFrame (events : List Event) {rest : List Byte}
    (hp : s.pending = size ++ (ct ++ tag ++ rest)) :
    runLoop events s = runLoop (events ++ ms.map .packet) (s.delivered ct rest) := by
  have hreadyA : s.parserReady = true := by
    refine parserReady_iff.mpr ⟨hs.running, ?_⟩
    rw [hp, hs.waiting, List.length_append, hf.length_size]
    exact Nat.le_add_right ..
  have hreadyB : (s.awaiting ct.length (ct ++ tag ++ rest)).parserReady = true := by
    refine parserReady_iff.mpr ⟨hs.running, ?_⟩
    rw [awaiting_waiting hf.most, State.awaiting, List.length_append, List.length_append, hf.length_tag]
    exact Nat.le_add_right ..
  rw [runLoop_done hreadyA (parserTurn_of_goodSize hs hf hp),
    runLoop_done hreadyB (parserTurn_of_goodPayload hs hf rest), List.append_nil]

/-- FEED of one good frame to an empty queue (R240). -/
theorem exec_feed_of_goodFrame (ha : s.Accepting) (hempty : s.pending = [])
    (hroom : s.RoomFor (size ++ (ct ++ tag)).length) :
    exec (.feed (size ++ (ct ++ tag))) s = .next
      (State.respond { s with inBank := s.inBank.afterFrame ct } ⟨statusOk, [], ms.map .packet⟩) := by
  have hp : (s.rxqAppend (size ++ (ct ++ tag))).pending = size ++ (ct ++ tag ++ []) := by
    rw [rxqAppend_pending, hempty, List.nil_append, List.append_nil]
  have hfed : (s.rxqAppend (size ++ (ct ++ tag))).BetweenFrames :=
    ⟨hs.keyed, hs.clean, hs.phaseA, hs.waiting, hs.running⟩
  have hstop : ((s.rxqAppend (size ++ (ct ++ tag))).delivered ct []).parserReady = false := by
    rw [← Bool.not_eq_true, parserReady_iff]
    rintro ⟨_, hle⟩
    rw [State.delivered, hfed.waiting] at hle
    exact absurd hle (Nat.not_succ_le_zero 3)
  rw [exec_feed_of_room ha hs.keyed hs.running hroom, runLoop_of_goodFrame hfed hf [] hp, runLoop_stop hstop,
    FeedEnd.answered, List.nil_append, State.delivered, ← hempty]
  rfl

end

/-! ### A frame that PACK made -/

/-- The size of a frame made under the receiver's `K1` and `seq` (R205, R226). -/
theorem decipheredSize_of_le32 {b r : Bank} (hk1 : r.k1 = b.k1) (hseq : r.seq = b.seq) {n : Nat} (hn : n < 2 ^ 32) :
    r.decipheredSize (xorBytes (le32 (BitVec.ofNat 32 n)) (crypto.ksSize b.k1 b.iv 0 4).val) = n := by
  rw [Bank.decipheredSize, hk1, iv_congr hseq, xorBytes_cancel _ _ (by rw [length_ksSize, length_le32]), rdle_le32,
    BitVec.toNat_ofNat, Nat.mod_eq_of_lt hn]

/-- The payload of a frame made under the receiver's `K2` and `seq` (R206, R232). -/
theorem decipheredPayload_cryptPayload {b r : Bank} (hb : b.aeadPos = 0) (hr : r.aeadPos = 0) (hk2 : r.k2 = b.k2)
    (hseq : r.seq = b.seq) (p : List Byte) : r.decipheredPayload (b.cryptPayload p) = p := by
  rw [← cryptPayload_of_aeadPos_zero hr, cryptPayload_cryptPayload hk2.symm hseq.symm (hb.trans hr.symm)]

theorem parseInner_innerMessage (strict : Bool) {cmd body : List Byte} (hps : payloadSize cmd body < 2 ^ 32) :
    parseInner strict (innerMessage cmd body) = .ok [⟨cmd, body⟩] := by
  rw [payloadSize, varstringLen] at hps
  have hcmd : cmd.length < 2 ^ 64 := by omega
  have hbody : body.length < 2 ^ 32 := by omega
  have hread := innerMessagesAreReadBack strict [⟨cmd, body⟩] (List.forall_mem_singleton.mpr ⟨hcmd, hbody⟩)
  rwa [List.flatMap_singleton] at hread

theorem length_frame (cmd body : List Byte) (b : Bank) :
    (b.frame cmd body).length = 4 + payloadSize cmd body + 16 := by
  rw [Bank.frame, List.length_append, List.length_append, length_cryptPayload, length_innerMessage, length_tag,
    length_xorBytes, length_le32, length_ksSize, Nat.min_self, Nat.add_assoc]

/-- A bank with the keys, the sequence number and the position of another takes the frame that one makes. -/
theorem takes_frame {b r : Bank} {cmd body : List Byte} (hmin : 6 ≤ payloadSize cmd body)
    (hmax : payloadSize cmd body ≤ 12000000) (hk1 : r.k1 = b.k1) (hk2 : r.k2 = b.k2) (hseq : r.seq = b.seq)
    (hb : b.aeadPos = 0) (hr : r.aeadPos = 0) :
    r.Takes (xorBytes (le32 (BitVec.ofNat 32 (payloadSize cmd body))) (crypto.ksSize b.k1 b.iv 0 4).val)
      (b.cryptPayload (innerMessage cmd body)) (crypto.tag b.k2 b.iv (b.cryptPayload (innerMessage cmd body))).val
      [⟨cmd, body⟩] := by
  have hps : payloadSize cmd body < 2 ^ 32 := hmax.trans_lt (by decide)
  have hct : (b.cryptPayload (innerMessage cmd body)).length = payloadSize cmd body := by
    rw [length_cryptPayload, length_innerMessage]
  exact {
    length_size := by rw [length_xorBytes, length_le32, length_ksSize, Nat.min_self]
    size_eq := (decipheredSize_of_le32 hk1 hseq hps).trans hct.symm
    least := hmin.trans_eq hct.symm
    most := hct.trans_le hmax
    tag_eq := by rw [hk2, iv_congr hseq]
    parses := by rw [decipheredPayload_cryptPayload hb hr hk2 hseq, parseInner_innerMessage _ hps] }

/-- Settles O55: PACK makes the frame of the prepared bank, whose keys and number the receiver has. -/
theorem packedFrameIsDelivered : Obligations.PackedFrameIsDelivered := by
  intro a b now cmd body due ha hk hc hp hmin hmax hdue hb hbk hbc hbs hbw hbh hbp hroom hk1 hk2 hseq
  have hpack := exec_pack_of_frameClean ha hk hc (hmax.trans_lt (by decide)) hp hdue rfl
  obtain ⟨hkey1, hkey2⟩ := prepared_keys now (frameLength cmd body) due a.outBank
  obtain ⟨_, haead, _⟩ := prepared_frameClean hc now (frameLength cmd body) due
  rw [← hkey1] at hk1
  rw [← hkey2] at hk2
  rw [← prepared_seq now (frameLength cmd body) due a.outBank] at hseq
  generalize a.outBank.prepared now (frameLength cmd body) due = c at hpack haead hk1 hk2 hseq
  have hsynced : b.BetweenFrames := ⟨hbk, hbc, hbs, hbw, hbh⟩
  obtain ⟨_, haead', _⟩ := hbc
  rw [← length_frame cmd body c, Bank.frame] at hroom
  have hfeed := exec_feed_of_goodFrame hsynced (takes_frame hmin hmax hk1 hk2 hseq haead haead') hb hbp hroom
  have htag (ct : List Byte) : (b.inBank.afterFrame ct).tag = (c.afterFrame ct).tag := by
    rw [Bank.afterFrame, Bank.afterFrame, hk2, iv_congr hseq]
  exact ⟨_, _, _, hpack, rfl, hfeed, rfl, congrArg (· + 1) hseq, htag _, ⟨rfl, rfl, rfl, rfl⟩, ⟨rfl, rfl, rfl, rfl⟩,
    rfl⟩

end Sys2Proof.Machine
end

section
/-! One turn of a parser that FEED left between frames or between the two phases of one, and the outcomes of a frame
(spec/43_feed.md R225 to R241). -/

namespace Sys2Proof.Machine

/-- The same block with the parser halted (spec/10_state.md R38). -/
def State.halt (s : State) : State := { s with halted := true }

theorem halt_not_ready (s : State) : s.halt.parserReady = false := rfl

/-! ### The two turns -/

section
variable {s : State} (hs : s.BetweenFrames)
include hs

/-- Everything phase A can do between frames: the size is out of bounds and the parser halts, or it is within and the
parser awaits the payload (R226 to R228). -/
theorem parserTurn_size_cases {size rest : List Byte} {n : Nat} (hp : s.pending = size ++ rest)
    (hl : size.length = 4) (hn : n = s.inBank.decipheredSize size) :
    ((n < 6 ∨ 12000000 < n) ∧ parserTurn s = .done [.badSize (BitVec.ofNat 32 n)]
      (State.halt { s with inBank := s.inBank.pastSize, pending := rest })) ∨
    (6 ≤ n ∧ n ≤ 12000000 ∧ parserTurn s = .done [] (s.awaiting n rest)) := by
  obtain ⟨hpos, _⟩ := hs.clean
  have hwait : s.waiting.toNat = size.length := by rw [hs.waiting, hl]; rfl
  rw [parserTurn_phaseA hs.phaseA, rxqChunk_of_append hp hwait, rxqDrop_of_append hp hwait]
  rcases phaseA_cases size { s with pending := rest } with ⟨hk, _⟩ | ⟨_, hlimit, _⟩ | ⟨_, _, m, hm, hend⟩
  · rw [hs.keyed] at hk; cases hk
  · rw [hpos] at hlimit
    exact absurd hlimit (by decide)
  · rw [hpos] at hm hend
    obtain rfl : m = n := hm.trans hn.symm
    exact hend

/-- Everything phase B can do with the payload and the tag of a frame: the tag is bad, the payload does not parse, or it
parses (R229 to R236). -/
theorem parserTurn_payload_cases {ct tag : List Byte} (hmax : ct.length ≤ 12000000) (htag : tag.length = 16)
    (rest : List Byte) :
    ((crypto.tag s.inBank.k2 s.inBank.iv ct).val ≠ tag ∧
      parserTurn (s.awaiting ct.length (ct ++ tag ++ rest)) = .done [.badTag tag] (s.delivered ct rest).halt) ∨
    ((crypto.tag s.inBank.k2 s.inBank.iv ct).val = tag ∧
      ((∃ e, parseInner Config.strictCs (s.inBank.decipheredPayload ct) = .error e ∧
        parserTurn (s.awaiting ct.length (ct ++ tag ++ rest)) = .done [.parse e] (s.delivered ct rest).halt) ∨
       (∃ ms, parseInner Config.strictCs (s.inBank.decipheredPayload ct) = .ok ms ∧
        parserTurn (s.awaiting ct.length (ct ++ tag ++ rest)) = .done (ms.map .packet) (s.delivered ct rest)))) := by
  obtain ⟨_, haead, hmac, hfinal⟩ := hs.clean
  have hwait : (s.awaiting ct.length (ct ++ tag ++ rest)).waiting.toNat = (ct ++ tag).length := by
    rw [awaiting_waiting hmax, List.length_append, htag]
  have hsplit : (ct ++ tag).length - 16 = ct.length := by rw [List.length_append, htag, Nat.add_sub_cancel]
  have hpos : s.inBank.pastSize.aeadPos.toNat = 0 := by rw [Bank.pastSize, haead]; rfl
  have hmac' : s.inBank.pastSize.macData = [] := hmac
  have hdelivered : s.delivered ct rest =
      { s with inBank := s.inBank.afterFrame ct, pending := rest, hasSize := false, waiting := 4 } := by
    rw [State.delivered, hs.phaseA, hs.waiting]
  have hcases := phaseB_cases (ct ++ tag) { s.awaiting ct.length (ct ++ tag ++ rest) with pending := rest }
  simp only [State.awaiting, hsplit, List.take_left, List.drop_left, hmac', List.nil_append, hpos,
    cryptPayload_of_aeadPos_zero (b := s.inBank.pastSize) haead] at hcases
  rw [parserTurn_phaseB rfl, rxqChunk_of_append rfl hwait, rxqDrop_of_append rfl hwait, hdelivered]
  rcases hcases with ⟨hk, _⟩ | ⟨_, hm, _⟩ | ⟨_, _, _, _, rfl, rfl, hbad | ⟨_, hlimit, _⟩ | ⟨hgood, _, hend⟩⟩
  · rw [Bank.pastSize, hs.keyed] at hk; cases hk
  · rw [Bank.pastSize, hfinal] at hm; cases hm
  · exact .inl hbad
  · rw [ksLimit_eq] at hlimit
    omega
  · exact .inr ⟨hgood, hend⟩

end
/-! ### The outcomes of a frame -/

/-- FEED whose loop ends without a raise, answered (R220). -/
theorem exec_feed_of_runLoop {s t : State} {data : List Byte} {events : List Event} (ha : s.Accepting)
    (hk : s.inBank.keyed = true) (hh : s.halted = false) (hroom : s.RoomFor data.length)
    (hloop : runLoop [] (s.rxqAppend data) = ⟨t, events, none⟩) :
    exec (.feed data) s = .next (t.respond ⟨statusOk, [], events⟩) := by
  rw [exec_feed_of_room ha hk hh hroom, hloop]
  rfl

section
variable {s : State} (hs : s.BetweenFrames)
include hs

/-- Between frames four bytes are enough for a turn (R225). -/
theorem ready_between_frames (hq : 4 ≤ s.pending.length) : s.parserReady = true := by
  refine parserReady_iff.mpr ⟨hs.running, ?_⟩
  rw [hs.waiting]
  exact hq

/-- Inside a frame the payload and the tag are enough for a turn, and nothing less (R229). -/
theorem ready_awaiting_iff {n : Nat} (hn : n ≤ 12000000) (rest : List Byte) :
    (s.awaiting n rest).parserReady = true ↔ n + 16 ≤ rest.length := by
  rw [parserReady_iff, awaiting_waiting hn]
  exact and_iff_right hs.running

/-- After a good frame fewer than four bytes are not enough. -/
theorem delivered_not_ready (ct : List Byte) {rest : List Byte} (hrest : rest.length < 4) :
    (s.delivered ct rest).parserReady = false := by
  rw [← Bool.not_eq_true, parserReady_iff, State.delivered, hs.waiting]
  exact fun h => absurd h.2 hrest.not_ge

variable (hq : 4 ≤ s.pending.length) {n : Nat} (hn : n = s.inBank.decipheredSize (s.pending.take 4))
include hq hn

/-- A size out of bounds ends the loop (R241). -/
theorem runLoop_of_size_out_of_bounds (hbad : n < 6 ∨ 12000000 < n) :
    runLoop [] s = ⟨State.halt { s with inBank := s.inBank.pastSize, pending := s.pending.drop 4 },
      [.badSize (BitVec.ofNat 32 n)], none⟩ := by
  have hsplit := (List.take_append_drop 4 s.pending).symm
  rcases parserTurn_size_cases hs hsplit (List.length_take_of_le hq) hn with ⟨_, ht⟩ | ⟨hmin, hmax, _⟩
  · exact (runLoop_done (ready_between_frames hs hq) ht).trans (runLoop_stop (halt_not_ready _))
  · omega

variable (hmin : 6 ≤ n) (hmax : n ≤ 12000000)
include hmin hmax

/-- After a size within bounds the loop goes on with the payload (R227). -/
theorem runLoop_of_size_in_bounds : runLoop [] s = runLoop [] (s.awaiting n (s.pending.drop 4)) := by
  have hsplit := (List.take_append_drop 4 s.pending).symm
  rcases parserTurn_size_cases hs hsplit (List.length_take_of_le hq) hn with ⟨hbad, _⟩ | ⟨_, _, ht⟩
  · omega
  · exact runLoop_done (ready_between_frames hs hq) ht

/-- With the payload not all there the loop ends and waits for it (R241). -/
theorem runLoop_of_payload_incomplete (hshort : s.pending.length < 4 + n + 16) :
    runLoop [] s = ⟨s.awaiting n (s.pending.drop 4), [], none⟩ := by
  rw [runLoop_of_size_in_bounds hs hq hn hmin hmax, runLoop_stop]
  rw [← Bool.not_eq_true, ready_awaiting_iff hs hmax, List.length_drop]
  omega

/-- With the payload all there the loop takes its turn on it (R229). -/
theorem runLoop_of_payload_turn {ct tag rest : List Byte} (hp : s.pending.drop 4 = ct ++ tag ++ rest)
    (hct : n = ct.length) (htag : tag.length = 16) {events : List Event} {t : State}
    (ht : parserTurn (s.awaiting ct.length (ct ++ tag ++ rest)) = .done events t) :
    runLoop [] s = runLoop events t := by
  rw [runLoop_of_size_in_bounds hs hq hn hmin hmax, hp, hct]
  refine runLoop_done ((ready_awaiting_iff hs (hct ▸ hmax) _).mpr ?_) ht
  rw [List.length_append, List.length_append, htag]
  exact Nat.le_add_right ..

end

/-- A queue with a whole frame in it: size, payload, tag and what follows. -/
theorem frame_split {queue : List Byte} (n : Nat) :
    queue.drop 4 = (queue.drop 4).take n ++ (queue.drop (4 + n)).take 16 ++ queue.drop (4 + n + 16) := by
  rw [List.append_assoc, ← List.drop_drop (i := 16) (j := 4 + n), List.take_append_drop,
    ← List.drop_drop (i := n) (j := 4), List.take_append_drop]

/-- Settles O50: one turn on the size and, where the payload is all there, one on the payload. -/
theorem frameOutcomes : Obligations.FrameOutcomes := by
  intro s data queue size ha hk hc hphase hw hh hroom hqueue hq hsize
  have hs : (s.rxqAppend data).BetweenFrames := ⟨hk, hc, hphase, hw, hh⟩
  obtain rfl : queue = (s.rxqAppend data).pending := hqueue
  refine ⟨fun hbad => ?_, fun hmin hmax hshort => ?_, fun hmin hmax hall ct tag hct htag => ?_⟩
  · exact exec_feed_of_runLoop ha hk hh hroom (runLoop_of_size_out_of_bounds hs hq hsize hbad)
  · exact exec_feed_of_runLoop ha hk hh hroom (runLoop_of_payload_incomplete hs hq hsize hmin hmax hshort)
  have hlen : size = ct.length := by rw [hct, List.length_take, List.length_drop]; omega
  have hlen' : tag.length = 16 := by rw [htag, List.length_take, List.length_drop]; omega
  have hsplit := frame_split (queue := (s.rxqAppend data).pending) size
  rw [← hct, ← htag] at hsplit
  have hturn := parserTurn_payload_cases hs (hlen ▸ hmax) hlen' ((s.rxqAppend data).pending.drop (4 + size + 16))
  have hloop {events : List Event} {t : State} :=
    runLoop_of_payload_turn hs hq hsize hmin hmax hsplit hlen hlen' (events := events) (t := t)
  refine ⟨fun hbad => exec_feed_of_runLoop ha hk hh hroom ?badTag,
    fun hgood e he => exec_feed_of_runLoop ha hk hh hroom ?parseError,
    fun hgood hrest ms hms => exec_feed_of_runLoop ha hk hh hroom ?packets⟩
  case badTag =>
    rcases hturn with ⟨_, ht⟩ | ⟨hgood, _⟩
    · exact (hloop ht).trans (runLoop_stop (halt_not_ready _))
    · exact absurd hgood hbad
  case parseError =>
    rcases hturn with ⟨hbad, _⟩ | ⟨_, ⟨_, he', ht⟩ | ⟨_, hms, _⟩⟩
    · exact absurd hgood hbad
    · cases he.symm.trans he'
      exact (hloop ht).trans (runLoop_stop (halt_not_ready _))
    · cases he.symm.trans hms
  case packets =>
    rcases hturn with ⟨hbad, _⟩ | ⟨_, ⟨_, he, _⟩ | ⟨_, hms', ht⟩⟩
    · exact absurd hgood hbad
    · cases hms.symm.trans he
    · cases hms.symm.trans hms'
      refine (hloop ht).trans (runLoop_stop (delivered_not_ready hs ct ?_))
      rw [List.length_drop]
      omega

end Sys2Proof.Machine
end

section
/-! FEED on a parser that FEED left: it raises nothing, ends where it waits for bytes, and does not see how its input was
cut (spec/43_feed.md R221, R223, R238, R242). -/

namespace Sys2Proof.Machine

/-! ### Where FEED ends -/

/-- Settles O47. -/
theorem haltedFeedDropsData : Obligations.HaltedFeedDropsData :=
  fun _ data ha hk hh => exec_feed_of_halted ha hk hh data

/-- Settles O52: the loop ends without a raise only where no turn is ready. -/
theorem feedEndsHaltedOrWaiting : Obligations.FeedEndsHaltedOrWaiting := by
  intro s t data ha hk h hf
  rcases (Bool.eq_false_or_eq_true s.halted).symm with hh | hh
  · by_cases hroom : s.RoomFor data.length
    · rw [exec_feed_of_room ha hk hh hroom, Host.Outcome.next.injEq] at h
      obtain ⟨hans, hnone⟩ := answered_frame (runLoop [] (s.rxqAppend data))
      have hstop := runLoop_notReady _ _ (hnone (h ▸ hf))
      rw [← Bool.not_eq_true, parserReady_iff, ← hans.halted, ← hans.waiting, ← hans.pending, h] at hstop
      rcases (Bool.eq_false_or_eq_true t.halted).symm with hth | hth
      · exact .inr (Nat.lt_of_not_le fun hle => hstop ⟨hth, hle⟩)
      · exact .inl hth
    · rw [exec_feed_of_overflow ha hk hh hroom, Host.Outcome.next.injEq] at h
      exact absurd (h ▸ hf) (faultedWith_fault_ne_zero s _)
  · rw [exec_feed_of_halted ha hk hh, Host.Outcome.next.injEq] at h
    exact .inl (h ▸ hh)

/-! ### A synced parser stays synced -/

/-- What FEED leaves of the parser: halted, between frames, or between the phases of one. -/
def State.Settled (s : State) : Prop := s.halted = true ∨ s.ParserSynced

theorem State.BetweenFrames.synced {s : State} (hs : s.BetweenFrames) : s.ParserSynced :=
  .inl ⟨hs.phaseA, hs.waiting, hs.clean⟩

theorem awaiting_synced {s : State} (hs : s.BetweenFrames) {n : Nat} (hmin : 6 ≤ n) (hmax : n ≤ 12000000)
    (rest : List Byte) : (s.awaiting n rest).ParserSynced := by
  obtain ⟨_, haead, hmac, hfinal⟩ := hs.clean
  have hwait := awaiting_waiting hmax rest s
  exact .inr ⟨rfl, by omega, by omega, rfl, haead, hmac, hfinal⟩

theorem delivered_betweenFrames {s : State} (hs : s.BetweenFrames) (ct rest : List Byte) :
    (s.delivered ct rest).BetweenFrames := ⟨hs.keyed, ⟨rfl, rfl, rfl, rfl⟩, hs.phaseA, hs.waiting, hs.running⟩

/-- A synced parser is between frames, or awaits the payload of a frame whose size was taken between frames. -/
theorem synced_cases {s : State} (hk : s.inBank.keyed = true) (hh : s.halted = false) (hs : s.ParserSynced) :
    s.BetweenFrames ∨ ∃ (r : State) (n : Nat), r.BetweenFrames ∧ n ≤ 12000000 ∧ s = r.awaiting n s.pending := by
  rcases hs with ⟨hphase, hw, hc⟩ | ⟨hphase, hmin, hmax, hsize, haead, hmac, hfinal⟩
  · exact .inl ⟨hk, hc, hphase, hw, hh⟩
  refine .inr ⟨{ s with inBank := { s.inBank with sizePos := 0 }, hasSize := false, waiting := 4 },
    s.waiting.toNat - 16, ⟨hk, ⟨rfl, haead, hmac, hfinal⟩, rfl, rfl, hh⟩, by omega, ?_⟩
  have hwait : BitVec.ofNat 32 (s.waiting.toNat - 16 + 16) = s.waiting := by
    rw [Nat.sub_add_cancel (by omega), BitVec.ofNat_toNat, BitVec.setWidth_eq]
  rw [State.awaiting, hwait, Bank.pastSize, ← hsize, ← hphase]

/-- A turn between frames raises nothing and leaves the parser synced or halted (R225 to R228). -/
theorem parserTurn_between_frames {s : State} (hs : s.BetweenFrames) (hr : s.parserReady = true) :
    ∃ events t, parserTurn s = .done events t ∧ t.Settled := by
  obtain ⟨_, hle⟩ := parserReady_iff.mp hr
  rw [hs.waiting] at hle
  have hsplit := (List.take_append_drop 4 s.pending).symm
  rcases parserTurn_size_cases hs hsplit (List.length_take_of_le hle) rfl with ⟨_, ht⟩ | ⟨hmin, hmax, ht⟩
  · exact ⟨_, _, ht, .inl rfl⟩
  · exact ⟨_, _, ht, .inr (awaiting_synced hs hmin hmax _)⟩

/-- A turn on a payload raises nothing and leaves the parser synced or halted (R229 to R235). -/
theorem parserTurn_awaiting {s : State} (hs : s.BetweenFrames) {n : Nat} (hmax : n ≤ 12000000) {queue : List Byte}
    (hr : (s.awaiting n queue).parserReady = true) :
    ∃ events t, parserTurn (s.awaiting n queue) = .done events t ∧ t.Settled := by
  have hle := (ready_awaiting_iff hs hmax queue).mp hr
  have hct : (queue.take n).length = n := List.length_take_of_le (by omega)
  have htag : ((queue.drop n).take 16).length = 16 := by rw [List.length_take, List.length_drop]; omega
  have hsplit : queue = queue.take n ++ (queue.drop n).take 16 ++ (queue.drop n).drop 16 := by
    rw [List.append_assoc, List.take_append_drop, List.take_append_drop]
  have hturn := parserTurn_payload_cases hs (hct.trans_le hmax) htag ((queue.drop n).drop 16)
  rw [hct, ← hsplit] at hturn
  rcases hturn with ⟨_, ht⟩ | ⟨_, ⟨_, _, ht⟩ | ⟨_, _, ht⟩⟩
  · exact ⟨_, _, ht, .inl rfl⟩
  · exact ⟨_, _, ht, .inl rfl⟩
  · exact ⟨_, _, ht, .inr (delivered_betweenFrames hs _ _).synced⟩

/-- FEED's loop on a synced parser raises nothing and leaves it synced or halted (R242). -/
theorem runLoop_settled (events : List Event) {s : State} (hk : s.inBank.keyed = true) (hs : s.Settled) :
    (runLoop events s).raised = none ∧ (runLoop events s).state.Settled := by
  have turn {s : State} (hk : s.inBank.keyed = true) (hs : s.Settled) (hr : s.parserReady = true) :
      ∃ events t, parserTurn s = .done events t ∧ t.Settled := by
    obtain ⟨hh, _⟩ := parserReady_iff.mp hr
    rcases synced_cases hk hh (hs.resolve_left (by simp [hh])) with hb | ⟨r, n, hb, hmax, hawait⟩
    · exact parserTurn_between_frames hb hr
    · rw [hawait] at hr ⊢
      exact parserTurn_awaiting hb hmax hr
  refine runLoop_induction (P := fun _ s r => s.inBank.keyed = true → s.Settled → r.raised = none ∧ r.state.Settled)
    ?stop ?raised ?turn events s hk hs
  case stop => exact fun _ s _ _ hs => ⟨rfl, hs⟩
  case raised =>
    intro _ s c t hr ht hk hs
    obtain ⟨_, _, ht', _⟩ := turn hk hs hr
    cases ht.symm.trans ht'
  case turn =>
    intro _ s new t hr ht ih hk hs
    obtain ⟨_, _, ht', hset⟩ := turn hk hs hr
    cases ht.symm.trans ht'
    exact ih ((parserTurn_done ht).1.keyed.trans hk) hset

/-! ### Bytes behind those a loop takes -/

/-- The loop does not grow the queue. -/
theorem runLoop_total_le (events : List Event) (s : State) : (runLoop events s).state.total ≤ s.total := by
  refine runLoop_induction (P := fun _ s r => r.state.total ≤ s.total) (fun _ _ _ => le_rfl) ?raised ?turn events s
  case raised =>
    intro _ s c t _ ht
    rw [State.total, (parserTurn_raised ht).1.pending, List.length_drop]
    exact Nat.sub_le ..
  case turn =>
    intro _ s new t _ ht ih
    refine ih.trans ?_
    rw [State.total, (parserTurn_done ht).1.pending, List.length_drop]
    exact Nat.sub_le ..

/-- A loop's events come after those it was started with. -/
theorem runLoop_events_append (before events : List Event) (s : State) :
    runLoop (before ++ events) s =
      { runLoop events s with events := before ++ (runLoop events s).events } := by
  refine runLoop_induction (P := fun events s r => runLoop (before ++ events) s = { r with events := before ++ r.events })
    ?stop ?raised ?turn events s
  case stop => exact fun _ _ h => runLoop_stop h
  case raised => exact fun _ _ _ _ hr ht => runLoop_raised hr ht
  case turn =>
    intro events s new t hr ht ih
    rw [← ih, runLoop_done hr ht, List.append_assoc]

/-- A turn that is ready does not see more bytes at the end of the queue. -/
theorem parserTurn_rxqAppend {s : State} (hr : s.parserReady = true) (data : List Byte) :
    parserTurn (s.rxqAppend data) = (parserTurn s).mapState (State.rxqAppend · data) := by
  obtain ⟨_, hle⟩ := parserReady_iff.mp hr
  have hgraft : parserTurn (s.rxqAppend data) = _ :=
    parserTurn_graft s.outBank (s.pending ++ data) s.rsp s (List.take_append_of_le_length hle)
  rw [hgraft, List.drop_append_of_le_length hle]
  cases ht : parserTurn s with
  | done events t =>
    obtain ⟨hf, _⟩ := parserTurn_done ht
    simp only [Run.mapState, State.graft, State.rxqAppend, hf.pending, ← hf.outBank, ← hf.rsp]
  | raised c t =>
    obtain ⟨hf, _⟩ := parserTurn_raised ht
    simp only [Run.mapState, State.graft, State.rxqAppend, hf.pending, ← hf.outBank, ← hf.rsp]

theorem ready_rxqAppend {s : State} (hr : s.parserReady = true) (data : List Byte) :
    (s.rxqAppend data).parserReady = true := by
  obtain ⟨hh, hle⟩ := parserReady_iff.mp hr
  refine parserReady_iff.mpr ⟨hh, hle.trans ?_⟩
  rw [rxqAppend_pending, List.length_append]
  exact Nat.le_add_right ..

/-- The loop on a longer queue goes on where the loop on the shorter one ended (R238). -/
theorem runLoop_rxqAppend (data : List Byte) (events : List Event) (s : State)
    (hnone : (runLoop events s).raised = none) :
    runLoop events (s.rxqAppend data) =
      runLoop (runLoop events s).events ((runLoop events s).state.rxqAppend data) := by
  refine runLoop_induction (P := fun events s r => r.raised = none →
    runLoop events (s.rxqAppend data) = runLoop r.events (r.state.rxqAppend data)) ?stop ?raised ?turn events s hnone
  case stop => exact fun _ _ _ _ => rfl
  case raised => exact fun _ _ _ _ _ _ h => by cases h
  case turn =>
    intro events s new t hr ht ih h
    rw [← ih h]
    exact runLoop_done (ready_rxqAppend hr data) (by rw [parserTurn_rxqAppend hr, ht]; rfl)

/-! ### FEED of one piece -/

/-- Where the parser ends on more data; `feed_of_feedable` ties it to FEED. -/
def State.fed (data : List Byte) (s : State) : FeedEnd := runLoop [] (s.rxqAppend data)

/-- The same state but for the responses and, where the parser has halted, the bytes it leaves unread. -/
structure State.SameButUnread (t u : State) : Prop where
  same : t = { u with rsp := t.rsp, pending := t.pending }
  pending : t.halted = false → t.pending = u.pending

theorem State.SameButUnread.halted {t u : State} (h : t.SameButUnread u) : t.halted = u.halted := by
  rw [h.same]

theorem State.SameButUnread.symm {t u : State} (h : t.SameButUnread u) : u.SameButUnread t :=
  ⟨by rw [h.same], fun hh => (h.pending (h.halted.trans hh)).symm⟩

theorem State.SameButUnread.trans {t u v : State} (h : t.SameButUnread u) (h' : u.SameButUnread v) :
    t.SameButUnread v where
  same := h.same.trans (congrArg (fun x : State => { x with rsp := t.rsp, pending := t.pending }) h'.same)
  pending hh := (h.pending hh).trans (h'.pending (h.halted.symm.trans hh))

theorem fed_of_halted {s : State} (hh : s.halted = true) (data : List Byte) :
    s.fed data = ⟨s.rxqAppend data, [], none⟩ := runLoop_stop (by simp [State.parserReady, hh])

/-- Data in two pieces: the loop on the second goes on where the loop on the first ended (R238). -/
theorem fed_append {s : State} {x : List Byte} (hnone : (s.fed x).raised = none) (y : List Byte) :
    s.fed (x ++ y) = { (s.fed x).state.fed y with events := (s.fed x).events ++ ((s.fed x).state.fed y).events } := by
  have hqueue : s.rxqAppend (x ++ y) = (s.rxqAppend x).rxqAppend y := by
    simp only [State.rxqAppend, List.append_assoc]
  have hloop := runLoop_rxqAppend y [] (s.rxqAppend x) hnone
  rw [← List.append_nil (runLoop [] (s.rxqAppend x)).events, runLoop_events_append] at hloop
  rw [State.fed, hqueue, hloop]
  rfl

/-- States that differ in the responses and in bytes a halted parser leaves unread give the same events. -/
theorem State.SameButUnread.fed {t u : State} (h : t.SameButUnread u) (data : List Byte) :
    (t.fed data).events = (u.fed data).events ∧ (t.fed data).state.SameButUnread (u.fed data).state := by
  rcases Bool.eq_false_or_eq_true t.halted with hh | hh
  · rw [fed_of_halted hh, fed_of_halted (h.halted.symm.trans hh)]
    refine ⟨rfl, ⟨?_, fun hrun => ?_⟩⟩
    · exact congrArg (fun x : State => { x with pending := t.pending ++ data }) h.same
    · rw [rxqAppend_halted, hh] at hrun
      cases hrun
  · have hbeside : t.rxqAppend data = (u.rxqAppend data).beside u.outBank t.rsp := by
      rw [h.same, h.pending hh]
      rfl
    rw [State.fed, hbeside, runLoop_beside]
    refine ⟨rfl, ⟨?_, fun _ => rfl⟩⟩
    simp only [State.beside, State.fed, ← rxqAppend_outBank u data, ← (runLoop_frame [] (u.rxqAppend data)).1.outBank]

/-- A block that accepts FEED of `n` more bytes without a fault (R242). -/
structure State.Feedable (n : Nat) (s : State) : Prop where
  accepting : s.Accepting
  keyed : s.inBank.keyed = true
  settled : s.Settled
  room : s.RoomFor n

/-- Feeding `data` in pieces has led from `s` to `t` with the events `es`, one list per response: the events and the state
are those of the parser's loop on all of it. -/
structure FeedsTo (s : State) (data : List Byte) (es : List (List Event)) (t : State) : Prop where
  rsp : t.rsp = s.rsp ++ es.map fun events => (Response.mk 0x00 [] events).encode
  events : es.flatten = (s.fed data).events
  state : t.SameButUnread (s.fed data).state

theorem State.Feedable.fed {s : State} {n : Nat} (hs : s.Feedable n) (data : List Byte) :
    (s.fed data).raised = none ∧ (s.fed data).state.Settled :=
  runLoop_settled [] (s := s.rxqAppend data) hs.keyed hs.settled

theorem roomFor_of_total_le {s t : State} {m n : Nat} (h : s.RoomFor m) (hle : t.total + n ≤ s.total + m) :
    t.RoomFor n := fun cap hcap => hle.trans (h cap hcap)

/-- FEED of one piece: a halted parser drops it, a running one is left where the loop ends. -/
theorem feed_of_feedable {s : State} {data : List Byte} {n : Nat} (hs : s.Feedable (data.length + n)) :
    ∃ t, exec (.feed data) s = .next t ∧ FeedsTo s data [(s.fed data).events] t ∧ t.Feedable n := by
  have ⟨ha, hk, hset, hroom⟩ := hs
  rcases Bool.eq_false_or_eq_true s.halted with hh | hh
  · refine ⟨_, exec_feed_of_halted ha hk hh data, ⟨?_, List.flatten_singleton, ?_⟩,
      ⟨ha, hk, hset, roomFor_of_total_le hroom ?_⟩⟩
    · rw [fed_of_halted hh]
      rfl
    · rw [fed_of_halted hh]
      exact ⟨rfl, fun hrun => by cases hh.symm.trans hrun⟩
    · rw [total_respond]
      omega
  · obtain ⟨hnone, hend⟩ := hs.fed data
    obtain ⟨hframe, _⟩ := runLoop_frame [] (s.rxqAppend data)
    have htotal := runLoop_total_le [] (s.rxqAppend data)
    have hloop : runLoop [] (s.rxqAppend data) = ⟨(s.fed data).state, (s.fed data).events, none⟩ := by
      rw [← hnone]
      rfl
    refine ⟨_, exec_feed_of_runLoop ha hk hh (roomFor_of_total_le hroom (by omega)) hloop,
      ⟨?_, List.flatten_singleton, ⟨rfl, fun _ => rfl⟩⟩,
      ⟨⟨hframe.fault.trans ha.1, hframe.live.trans ha.2⟩, hframe.keyed.trans hk, hend, roomFor_of_total_le hroom ?_⟩⟩
    · exact congrArg (· ++ _) hframe.rsp
    · rw [total_rxqAppend] at htotal
      rw [total_respond, State.fed]
      omega

/-- Two parts of the data one after the other. -/
theorem FeedsTo.append {s t u : State} {x y : List Byte} {es es' : List (List Event)} (hx : FeedsTo s x es t)
    (hy : FeedsTo t y es' u) (hnone : (s.fed x).raised = none) : FeedsTo s (x ++ y) (es ++ es') u := by
  obtain ⟨hevents, hstate⟩ := hx.state.fed y
  have hfed := fed_append hnone y
  refine ⟨?_, ?_, ?_⟩
  · rw [hy.rsp, hx.rsp, List.map_append, List.append_assoc]
  · rw [List.flatten_append, hx.events, hy.events, hevents, hfed]
  · rw [hfed]
    exact hy.state.trans hstate

/-- FEED of several pieces. -/
theorem execAll_feed_of_feedable {s : State} {pieces : List (List Byte)} (hne : pieces ≠ [])
    (hs : s.Feedable pieces.flatten.length) :
    ∃ t es, execAll (pieces.map .feed) s = .next t ∧ es.length = pieces.length ∧ FeedsTo s pieces.flatten es t := by
  induction pieces generalizing s with
  | nil => exact absurd rfl hne
  | cons x pieces ih =>
    rw [List.flatten_cons, List.length_append] at hs
    obtain ⟨t, hexec, hx, ht⟩ := feed_of_feedable hs
    rw [List.map_cons, execAll_cons hexec]
    cases pieces with
    | nil => exact ⟨t, _, rfl, rfl, by simpa using hx⟩
    | cons y pieces =>
      obtain ⟨u, es, hall, hlen, hy⟩ := ih (List.cons_ne_nil _ _) ht
      exact ⟨u, _ :: es, hall, congrArg (· + 1) hlen, hx.append hy (hs.fed x).1⟩

/-- Settles O53. -/
theorem feedOnSyncedBankRaisesNoFault : Obligations.FeedOnSyncedBankRaisesNoFault := by
  intro s data ha hk hs hroom
  obtain ⟨t, hexec, _, ht⟩ := feed_of_feedable (n := 0) ⟨ha, hk, hs, hroom⟩
  obtain ⟨hfault, _⟩ := ht.accepting
  exact ⟨t, hexec, hfault, ht.settled⟩

/-- Settles O54: in pieces and at once, FEED ends where the parser's loop on all the data does. -/
theorem eventsDoNotDependOnTheCut : Obligations.EventsDoNotDependOnTheCut := by
  intro s pieces ha hk hs hroom hne
  have hfeedable : s.Feedable pieces.flatten.length := ⟨ha, hk, hs, hroom⟩
  obtain ⟨t, es, hall, hlen, ht⟩ := execAll_feed_of_feedable hne hfeedable
  obtain ⟨u, hexec, hu, _⟩ := feed_of_feedable (n := 0) hfeedable
  obtain ⟨hsame, hpending⟩ := ht.state.trans hu.state.symm
  refine ⟨t, u, es, hall, hexec, hlen, ht.rsp, ?_, hsame, hpending⟩
  rw [hu.rsp, ht.events]
  rfl

end Sys2Proof.Machine
end

section
/-! Poly1305 under the all-zero one-time key, and what the MAC's input says about the ciphertext
(spec/45_crypto_primitives.md R308, R309, R315 (b)). -/

namespace Sys2Proof.Machine

/-! ### The all-zero one-time key -/

theorem rdle_replicate_zero (n : Nat) : rdle (List.replicate n 0) = 0 := by
  induction n with
  | zero => rfl
  | succ n ih => rw [List.replicate_succ, rdle, ih]; rfl

@[simp] theorem leBytes_zero (n : Nat) : leBytes n 0 = List.replicate n 0#8 := by
  induction n with
  | zero => rfl
  | succ n ih => simp [List.replicate_succ, leBytes, ih]

/-- Multiplying by `r = 0` loses every piece. -/
@[simp] theorem polyAbsorb_zero_multiplier (acc : Nat) (piece : List Byte) : polyAbsorb 0 acc piece = 0 := by
  simp [polyAbsorb]

theorem polyPieces_zero_multiplier (n : Nat) (m : List Byte) : polyPieces 0 n 0 m = 0 := by
  induction n generalizing m with
  | zero => rfl
  | succ n ih => rw [polyPieces, polyAbsorb_zero_multiplier, ih]

/-- `Poly1305` under a key whose clamped first half is 0 is the key's second half, whatever the message (R308). -/
theorem poly1305_of_zero_multiplier {key : Bytes 32} (hr : rdle (key.val.take 16) &&& polyClamp = 0)
    (m : List Byte) : (poly1305 key m).val = key.val.drop 16 := by
  have hs : (key.val.drop 16).length = 16 := by simp [key.property]
  calc (poly1305 key m).val = leBytes 16 (rdle (key.val.drop 16)) := by
        simp [poly1305, hr, polyPieces_zero_multiplier]
    _ = leBytes (key.val.drop 16).length (rdle (key.val.drop 16)) := by rw [hs]
    _ = key.val.drop 16 := leBytes_rdle _

/-- Settles O59: both halves of the key are 0, so the multiplier is 0 and so is what is added at the end. -/
theorem zeroKeyGivesZeroTag : Obligations.ZeroKeyGivesZeroTag := by
  intro m
  have hr : rdle ((Bytes.zero 32).val.take 16) &&& polyClamp = 0 := by
    rw [Bytes.zero, List.take_replicate, rdle_replicate_zero, Nat.zero_and]
  rw [poly1305_of_zero_multiplier hr, Bytes.zero, List.drop_replicate]

/-! ### The MAC's input -/

theorem le64_injective : Function.Injective le64 := by
  intro v w h
  apply BitVec.eq_of_toNat_eq
  rw [← rdle_le64 v, h, rdle_le64]

theorem lengthField64_injOn {n m : Nat} (hn : n < 2 ^ 64) (hm : m < 2 ^ 64)
    (h : lengthField64 n = lengthField64 m) : n = m := by
  rw [lengthField64_of_lt hn, lengthField64_of_lt hm] at h
  have hmod := congrArg BitVec.toNat h
  rwa [BitVec.toNat_ofNat, BitVec.toNat_ofNat, Nat.mod_eq_of_lt hn, Nat.mod_eq_of_lt hm] at hmod

theorem length_macInput (ct : List Byte) :
    (macInput ct).length = ct.length + (16 - ct.length % 16) % 16 + 16 := by
  simp [macInput, Nat.add_assoc]

theorem take_macInput (ct : List Byte) : (macInput ct).take ct.length = ct := List.take_left

/-- The last 8 bytes are the ciphertext's length field (R309). -/
theorem lengthField64_eq_of_macInput_eq {a b : List Byte} (h : macInput a = macInput b) :
    lengthField64 a.length = lengthField64 b.length := by
  simp only [macInput, ← List.append_assoc] at h
  exact le64_injective (List.append_inj_right' h (by simp))

/-- Settles O60: equal inputs end in equal length fields, so the ciphertexts are equally long beginnings of them. -/
theorem macInputTellsCiphertextsApart : Obligations.MacInputTellsCiphertextsApart := by
  refine ⟨fun ct => ⟨?_, take_macInput ct⟩, fun a b ha hb h => ?_⟩
  · rw [length_macInput]
    omega
  · have hlen : a.length = b.length := lengthField64_injOn ha hb (lengthField64_eq_of_macInput_eq h)
    rw [← take_macInput a, h, hlen, take_macInput b]

end Sys2Proof.Machine
end

section
/-! Faults in micro-operations are precise (spec/60_exceptions.md R345, R354). -/

namespace Sys2Proof.Machine

/-- A raise seen in `fault` has written the code that is seen. -/
theorem eq_faultedWith_fault {s t : State} {c : FaultCode} (h : t = s.faultedWith c.byte) :
    t = s.faultedWith t.fault := by
  subst h
  rfl

/-- An unfaulted block whose run on a bank, answered without events, leaves a fault: the run raised, and where a raise
leaves the bank as it was, the code and its response are all that is new. -/
theorem answer_onBank_of_fault_ne_zero {s : State} {sel : BankSel} {op : Bank → Run Bank (List Byte)}
    (hop : ∀ b c b', op b = .raised c b' → b' = b) (hf : s.fault = 0)
    (h : (answer [] (s.onBank sel op)).fault ≠ 0) :
    ∃ c : FaultCode, answer [] (s.onBank sel op) = s.faultedWith c.byte := by
  cases hrun : op (s.bank sel) with
  | done result b =>
    rw [onBank_of_done hrun, answer_done, respond_fault, setBank_fault] at h
    exact absurd hf h
  | raised c b =>
    obtain rfl := hop _ _ _ hrun
    exact ⟨c, by rw [onBank_of_raised hrun, setBank_bank_self, answer_raised, raise_eq_faultedWith hf]⟩

/-- Settles O22: an unfaulted block raises in the guard, or in the run on the bank; neither has written anything. -/
theorem microOperationFaultsArePrecise : Obligations.MicroOperationFaultsArePrecise := by
  intro i sel s t hi hf h ht
  obtain ⟨op, hop, hexec⟩ := exec_micro hi
  rw [hexec, Host.Outcome.next.injEq] at h
  subst h
  rcases guarded_cases s fun s => answer [] (s.onBank sel op) with ⟨hne, _⟩ | ⟨_, _, hguard⟩ | ⟨_, hguard⟩
  · exact absurd hf hne
  · exact eq_faultedWith_fault (hguard.trans (raise_eq_faultedWith hf .notLive))
  · obtain ⟨c, hraised⟩ := answer_onBank_of_fault_ne_zero hop hf (hguard ▸ ht)
    exact eq_faultedWith_fault (hguard.trans hraised)

end Sys2Proof.Machine
end
